-- ==== Sys2Proof/Word.lean ====
section
/-! DEFINITION. The word types of the engine (00_scope.md R5, R6, R7). -/

namespace Sys2Proof

/-- A host-port word: a command, an address or the data of a transaction (20_memory.md R62). -/
abbrev Word := BitVec 32

/-- One byte of a memory, the smallest element a host word is packed from (20_memory.md R67). -/
abbrev Byte := BitVec 8

/-- One lane of a block register, a 16-bit two's-complement pattern (10_state.md R21). -/
abbrev Lane := BitVec 16

/-- A block register: 16 lanes in raster order, lane `i` at row `i div 4`, column `i mod 4` (10_state.md R21). -/
abbrev Block := Vector Lane 16

end Sys2Proof
end

