-- ==== Sys2Proof/Syntax.lean ====
section
/-! DEFINITION. The 18 commands with their operand fields (30_encoding.md R92, R93, R95). -/

namespace Sys2Proof

/-- A command. A field has exactly the width its format gives it, so a term is what a decoder can read from a word; the
operand ranges that raise `E_OPERAND` or `E_REGRANGE` are `Instr.wellFormed` and are checked by the meanings. -/
inductive Instr where
  /-- `NOP` (45_support.md R201). -/
  | nop
  /-- `LDI bd, lane, imm16` (45_support.md R202). -/
  | ldi (bd : BitVec 5) (lane : BitVec 4) (imm16 : BitVec 16)
  /-- `BFILL bd, imm16` (45_support.md R203). -/
  | bfill (bd : BitVec 5) (imm16 : BitVec 16)
  /-- `SEOB bd, n` (45_support.md R204). -/
  | seob (bd n : BitVec 5)
  /-- `GDC bd, bs` (42_transform.md R166). -/
  | gdc (bd bs : BitVec 5)
  /-- `FDCT bd, bs` (42_transform.md R162). -/
  | fdct (bd bs : BitVec 5)
  /-- `FWHT bd, bs` (42_transform.md R165). -/
  | fwht (bd bs : BitVec 5)
  /-- `QUANT bd, bs, t` (43_quantizer.md R172). -/
  | quant (bd bs : BitVec 5) (t : BitVec 2)
  /-- `DEQUANT bd, bs, t` (43_quantizer.md R175). -/
  | dequant (bd bs : BitVec 5) (t : BitVec 2)
  /-- `TKN bs, t, c0` (44_tokenizer.md R190). -/
  | tkn (bs : BitVec 5) (t c0 : BitVec 2)
  /-- `PUTTOK count` (44_tokenizer.md R197). -/
  | puttok (count : BitVec 16)
  /-- `BSTART` (40_bool_coder.md R125). -/
  | bstart
  /-- `BBOOL bit, prob` (40_bool_coder.md R126). -/
  | bbool (bit : BitVec 1) (prob : BitVec 8)
  /-- `BLIT n, value` (40_bool_coder.md R127). -/
  | blit (n : BitVec 5) (value : BitVec 16)
  /-- `BSTOP` (40_bool_coder.md R128). -/
  | bstop
  /-- `TWRITE tb, pb, v` (41_tree_coder.md R145). -/
  | twrite (tb pb v : BitVec 8)
  /-- `TCOST tb, pb, v` (41_tree_coder.md R150). -/
  | tcost (tb pb v : BitVec 8)
  /-- `TCOSTS tb, pb` (41_tree_coder.md R151). -/
  | tcosts (tb pb : BitVec 8)
  deriving DecidableEq, Repr

end Sys2Proof
end

