-- ==== Sys2Proof/WellFormed.lean ====
section
/-! DEFINITION. The operand range checks of decoding step (4) (30_encoding.md R91, R93). -/

namespace Sys2Proof

/-- The operands lie in the ranges whose breach raises `E_OPERAND` or `E_REGRANGE` (30_encoding.md R93): a well-formed
command passes step (4) of the decoding order. An ill-formed one still decodes; its meaning takes the fault. -/
def Instr.wellFormed : Instr → Bool
  | .nop => true
  | .ldi _ _ _ => true
  | .bfill _ _ => true
  | .seob _ n => decide (n.toNat ≤ 16)
  | .gdc _ bs => decide (bs.toNat + 15 ≤ 31)
  | .fdct _ _ => true
  | .fwht _ _ => true
  | .quant _ _ _ => true
  | .dequant _ _ _ => true
  | .tkn _ _ c0 => decide (c0.toNat ≤ 2)
  | .puttok _ => true
  | .bstart => true
  | .bbool _ _ => true
  | .blit n _ => decide (n.toNat ≤ 16)
  | .bstop => true
  | .twrite _ _ _ => true
  | .tcost _ _ _ => true
  | .tcosts _ _ => true

end Sys2Proof
end

