-- ==== Sys2Proof/Decode.lean ====
section
/-! DEFINITION. Decoding of command words, total on all 2^32 words and rejecting by name, and the encoder
(30_encoding.md R90 to R96). -/

namespace Sys2Proof

/-- Why a word is no command (30_encoding.md R91 steps 2 and 3); both are the fault `E_ILLCMD`. -/
inductive DecodeReject where
  /-- The opcode is not one of the 18 assigned ones. -/
  | unassignedOpcode
  /-- A bit that the command's format reserves is 1. -/
  | reservedBit
  deriving DecidableEq, Repr

/-- The opcode `op`, bits [31:26] of a command word (30_encoding.md R90). -/
def opField (w : Word) : BitVec 6 := w.extractLsb' 26 6

/-- A 5-bit field at [25:21]: `bd` of formats I, F, E, R, Q, and `n` of format L (30_encoding.md R92). -/
def fieldBd (w : Word) : BitVec 5 := w.extractLsb' 21 5

/-- The field `bs` at [20:16] of formats R, Q and T (30_encoding.md R92). -/
def fieldBs (w : Word) : BitVec 5 := w.extractLsb' 16 5

/-- The 16-bit field at [15:0] of formats I, F, C and L (30_encoding.md R92). -/
def fieldImm (w : Word) : BitVec 16 := w.extractLsb' 0 16

/-- The field at [1:0]: the block type of formats Q and T (30_encoding.md R92). -/
def fieldT (w : Word) : BitVec 2 := w.extractLsb' 0 2

/-- One row of the opcode map: the opcode of 30_encoding.md R95, the bits its format marks "0" (R92), and the operands. -/
structure OpRow where
  op : BitVec 6
  reserved : Word
  operands : Word → Instr

/-- The opcode map of 30_encoding.md R95, in its order. -/
def opTable : List OpRow :=
  [ ⟨0x01, 0x03FFFFFF, fun _ => .nop⟩,
    ⟨0x02, 0x00100000, fun w => .ldi (fieldBd w) (w.extractLsb' 16 4) (fieldImm w)⟩,
    ⟨0x03, 0x001F0000, fun w => .bfill (fieldBd w) (fieldImm w)⟩,
    ⟨0x04, 0x001FFFE0, fun w => .seob (fieldBd w) (w.extractLsb' 0 5)⟩,
    ⟨0x05, 0x0000FFFF, fun w => .gdc (fieldBd w) (fieldBs w)⟩,
    ⟨0x08, 0x0000FFFF, fun w => .fdct (fieldBd w) (fieldBs w)⟩,
    ⟨0x09, 0x0000FFFF, fun w => .fwht (fieldBd w) (fieldBs w)⟩,
    ⟨0x0A, 0x0000FFFC, fun w => .quant (fieldBd w) (fieldBs w) (fieldT w)⟩,
    ⟨0x0B, 0x0000FFFC, fun w => .dequant (fieldBd w) (fieldBs w) (fieldT w)⟩,
    ⟨0x10, 0x03E0FFF0, fun w => .tkn (fieldBs w) (fieldT w) (w.extractLsb' 2 2)⟩,
    ⟨0x11, 0x03FF0000, fun w => .puttok (fieldImm w)⟩,
    ⟨0x18, 0x03FFFFFF, fun _ => .bstart⟩,
    ⟨0x19, 0x03FEFF00, fun w => .bbool (w.extractLsb' 16 1) (w.extractLsb' 0 8)⟩,
    ⟨0x1A, 0x001F0000, fun w => .blit (fieldBd w) (fieldImm w)⟩,
    ⟨0x1B, 0x03FFFFFF, fun _ => .bstop⟩,
    ⟨0x20, 0x03000000, fun w => .twrite (w.extractLsb' 16 8) (w.extractLsb' 8 8) (w.extractLsb' 0 8)⟩,
    ⟨0x21, 0x03000000, fun w => .tcost (w.extractLsb' 16 8) (w.extractLsb' 8 8) (w.extractLsb' 0 8)⟩,
    ⟨0x22, 0x030000FF, fun w => .tcosts (w.extractLsb' 16 8) (w.extractLsb' 8 8)⟩ ]

/-- Steps (2) and (3) of the decoding order, then the operand fields (30_encoding.md R91 to R93). -/
def decode (w : Word) : Except DecodeReject Instr :=
  match opTable.find? (fun row => row.op == opField w) with
  | none => .error .unassignedOpcode
  | some row => if w &&& row.reserved = 0 then .ok (row.operands w) else .error .reservedBit

/-- The command word of a command (30_encoding.md R92, R95): the opcode, then the fields from bit 25 down, reserved bits
zero. -/
def encode : Instr → Word
  | .nop => 0x01#6 ++ 0#26
  | .ldi bd lane imm16 => 0x02#6 ++ bd ++ 0#1 ++ lane ++ imm16
  | .bfill bd imm16 => 0x03#6 ++ bd ++ 0#5 ++ imm16
  | .seob bd n => 0x04#6 ++ bd ++ 0#16 ++ n
  | .gdc bd bs => 0x05#6 ++ bd ++ bs ++ 0#16
  | .fdct bd bs => 0x08#6 ++ bd ++ bs ++ 0#16
  | .fwht bd bs => 0x09#6 ++ bd ++ bs ++ 0#16
  | .quant bd bs t => 0x0A#6 ++ bd ++ bs ++ 0#14 ++ t
  | .dequant bd bs t => 0x0B#6 ++ bd ++ bs ++ 0#14 ++ t
  | .tkn bs t c0 => 0x10#6 ++ 0#5 ++ bs ++ 0#12 ++ c0 ++ t
  | .puttok count => 0x11#6 ++ 0#10 ++ count
  | .bstart => 0x18#6 ++ 0#26
  | .bbool bit prob => 0x19#6 ++ 0#9 ++ bit ++ 0#8 ++ prob
  | .blit n value => 0x1A#6 ++ n ++ 0#5 ++ value
  | .bstop => 0x1B#6 ++ 0#26
  | .twrite tb pb v => 0x20#6 ++ 0#2 ++ tb ++ pb ++ v
  | .tcost tb pb v => 0x21#6 ++ 0#2 ++ tb ++ pb ++ v
  | .tcosts tb pb => 0x22#6 ++ 0#2 ++ tb ++ pb ++ 0#8

/-- What the decoder reads from an opcode-table word: one 32-bit command word, bits from `nbits` up zero. -/
def decodeTableWord (nbits w : Nat) : Option Instr :=
  match decode (BitVec.ofNat 32 (w % 2 ^ nbits)) with
  | .ok i => some i
  | .error _ => none

end Sys2Proof
end

