-- ==== Sys2Proof/Config.lean ====
section
/-! DEFINITION. What an implementation fixes (00_scope.md R5, R12) and the free value of never-written storage. -/

namespace Sys2Proof

/-- The constants `FDCTC` of the forward DCT that are an OPEN parameter (42_transform.md R161); `K1` and `K2` are fixed
there and stand with the transform. -/
structure FdctConsts where
  pre : Int
  ra : Int
  rb : Int
  s1 : Nat
  rc : Int
  s2 : Nat
  rd : Int
  re : Int
  s3 : Nat
  deriving DecidableEq, Repr

/-- One entry of the quantizer look-up table: four unsigned 16-bit fields (10_state.md R32). -/
structure QEntry where
  round : BitVec 16
  quant : BitVec 16
  zbin : BitVec 16
  dq : BitVec 16
  deriving DecidableEq, Repr

/-- The parameter `QLUT` (10_state.md R32, D9): the default of 43_quantizer.md R178, or a substituted table whose entry
`(t, q, i)` stands at index `(t*128 + q)*16 + i`. -/
inductive QTable where
  | standard
  | custom (entries : List QEntry)
  deriving DecidableEq, Repr

/-- The parameter `COSTTAB` (10_state.md R39, D28): the default of 41_tree_coder.md R147, or a substituted table whose
entry `p` stands at index `p`. -/
inductive CostTable where
  | standard
  | custom (entries : List (BitVec 16))
  deriving DecidableEq, Repr

/-- The parameters of the hardware: values of `step` that no transaction writes (00_scope.md R12). -/
structure Config where
  /-- `NTOK`: entries of the token memory. -/
  ntok : Nat
  /-- `NOBUF`: bytes of the output buffer. -/
  nobuf : Nat
  qlut : QTable
  costtab : CostTable
  fdctc : FdctConsts
  deriving DecidableEq, Repr

/-- A substituted quantizer table has all 4 * 128 * 16 entries (00_scope.md R5). -/
def QTable.full : QTable → Bool
  | .standard => true
  | .custom entries => entries.length == 8192

/-- A substituted cost table has all 256 entries (10_state.md R39). -/
def CostTable.full : CostTable → Bool
  | .standard => true
  | .custom entries => entries.length == 256

/-- The bounds the spec puts on the parameters: `NTOK` at most 16384, `NOBUF` at most 0xE0000, whole tables
(00_scope.md R5). -/
def Config.wf (c : Config) : Bool :=
  decide (c.ntok ≤ 16384) && decide (c.nobuf ≤ 0xE0000) && c.qlut.full && c.costtab.full

/-- DESIGN CHOICE (log 2), safe: the value of a byte of a memory that nothing has written since the `epoch`-th reset, at
its host-port byte address. 93_implementation_defined.md U1 lets a model take these contents as an argument, any value;
the constant has no body, so nothing can be proved of it. -/
opaque Config.powerOnByte (epoch addr : Nat) : Byte

end Sys2Proof
end

