-- ==== Sys2Proof/Machine/Tables.lean ====
section
/-! DEFINITION. The tables of the engine: the defaults of the OPEN parameters (41_tree_coder.md R147, 42_transform.md R161,
43_quantizer.md R178) and the fixed tokenizer tables (44_tokenizer.md R186, R187, R189, R195, R196). The spec marks their
contents as general knowledge; they are followed as printed (log 9). -/

namespace Sys2Proof.Machine

/-- `FDCTC` at its defaults (42_transform.md R161). -/
def fdctStandard : FdctConsts :=
  { pre := 8, ra := 14500, rb := 7500, s1 := 12, rc := 7, s2 := 4, rd := 12000, re := 51000, s3 := 16 }

/-- The multipliers `K1` and `K2`, fixed by the source (42_transform.md R161). -/
def fdctK1 : Int := 2217

/-- See `fdctK1`. -/
def fdctK2 : Int := 5352

/-- Every parameter at its default (00_scope.md R5). -/
def configStandard : Config :=
  { ntok := 4096, nobuf := 65536, qlut := .standard, costtab := .standard, fdctc := fdctStandard }

/-- `COSTTAB` at its default (41_tree_coder.md R147). -/
def costStandard : List Nat :=
  [0, 2048, 1792, 1642, 1536, 1454, 1386, 1329, 1280, 1236, 1198, 1162, 1130, 1101, 1073, 1048] ++
  [1024, 1002, 980, 961, 942, 924, 906, 890, 874, 859, 845, 831, 817, 804, 792, 780] ++
  [768, 757, 746, 735, 724, 714, 705, 695, 686, 676, 668, 659, 650, 642, 634, 626] ++
  [618, 611, 603, 596, 589, 582, 575, 568, 561, 555, 548, 542, 536, 530, 524, 518] ++
  [512, 506, 501, 495, 490, 484, 479, 474, 468, 463, 458, 453, 449, 444, 439, 434] ++
  [430, 425, 420, 416, 412, 407, 403, 399, 394, 390, 386, 382, 378, 374, 370, 366] ++
  [362, 358, 355, 351, 347, 343, 340, 336, 333, 329, 326, 322, 319, 315, 312, 309] ++
  [305, 302, 299, 296, 292, 289, 286, 283, 280, 277, 274, 271, 268, 265, 262, 259] ++
  [256, 253, 250, 247, 245, 242, 239, 236, 234, 231, 228, 226, 223, 220, 218, 215] ++
  [212, 210, 207, 205, 202, 200, 197, 195, 193, 190, 188, 185, 183, 181, 178, 176] ++
  [174, 171, 169, 167, 164, 162, 160, 158, 156, 153, 151, 149, 147, 145, 143, 140] ++
  [138, 136, 134, 132, 130, 128, 126, 124, 122, 120, 118, 116, 114, 112, 110, 108] ++
  [106, 104, 102, 101, 99, 97, 95, 93, 91, 89, 87, 86, 84, 82, 80, 78] ++
  [77, 75, 73, 71, 70, 68, 66, 64, 63, 61, 59, 58, 56, 54, 53, 51] ++
  [49, 48, 46, 44, 43, 41, 40, 38, 36, 35, 33, 32, 30, 28, 27, 25] ++
  [24, 22, 21, 19, 18, 16, 15, 13, 12, 10, 9, 7, 6, 4, 3, 1]

/-- `COSTTAB[p]` (10_state.md R39). An index past a substituted table, which `Config.wf` excludes, reads the default. -/
def costEntry (c : Config) (p : Nat) : Nat :=
  match c.costtab with
  | .standard => costStandard.getD p 0
  | .custom entries => (entries[p]?.map BitVec.toNat).getD (costStandard.getD p 0)

/-- `DCQ[q]`, the step sizes of the DC lane (43_quantizer.md R178). -/
def dcqTable : List Nat :=
  [4, 5, 6, 7, 8, 9, 10, 10, 11, 12, 13, 14, 15, 16, 17, 17] ++
  [18, 19, 20, 20, 21, 21, 22, 22, 23, 23, 24, 25, 25, 26, 27, 28] ++
  [29, 30, 31, 32, 33, 34, 35, 36, 37, 37, 38, 39, 40, 41, 42, 43] ++
  [44, 45, 46, 46, 47, 48, 49, 50, 51, 52, 53, 54, 55, 56, 57, 58] ++
  [59, 60, 61, 62, 63, 64, 65, 66, 67, 68, 69, 70, 71, 72, 73, 74] ++
  [75, 76, 76, 77, 78, 79, 80, 81, 82, 83, 84, 85, 86, 87, 88, 89] ++
  [91, 93, 95, 96, 98, 100, 101, 102, 104, 106, 108, 110, 112, 114, 116, 118] ++
  [122, 124, 126, 128, 130, 132, 134, 136, 138, 140, 143, 145, 148, 151, 154, 157]

/-- `ACQ[q]`, the step sizes of the AC lanes (43_quantizer.md R178). -/
def acqTable : List Nat :=
  [4, 5, 6, 7, 8, 9, 10, 11, 12, 13, 14, 15, 16, 17, 18, 19] ++
  [20, 21, 22, 23, 24, 25, 26, 27, 28, 29, 30, 31, 32, 33, 34, 35] ++
  [36, 37, 38, 39, 40, 41, 42, 43, 44, 45, 46, 47, 48, 49, 50, 51] ++
  [52, 53, 54, 55, 56, 57, 58, 60, 62, 64, 66, 68, 70, 72, 74, 76] ++
  [78, 80, 82, 84, 86, 88, 90, 92, 94, 96, 98, 100, 102, 104, 106, 108] ++
  [110, 112, 114, 116, 119, 122, 125, 128, 131, 134, 137, 140, 143, 146, 149, 152] ++
  [155, 158, 161, 164, 167, 170, 173, 177, 181, 185, 189, 193, 197, 201, 205, 209] ++
  [213, 217, 221, 225, 229, 234, 239, 245, 249, 254, 259, 264, 269, 274, 279, 284]

/-- `step(t, q, i)` (43_quantizer.md R178). -/
def quantStep (t q i : Nat) : Nat :=
  let dc := dcqTable.getD q 0
  let ac := acqTable.getD q 0
  if i = 0 then
    if t = 1 then 2 * dc else if t = 2 then min 132 dc else dc
  else
    if t = 1 then max 8 (ac * 155 / 100) else ac

/-- The default entry built from its step size (43_quantizer.md R178). -/
def qentryStandard (t q i : Nat) : QEntry :=
  let s := quantStep t q i
  let zf := if q < 48 then 84 else 80
  { round := BitVec.ofNat 16 (48 * s / 2 ^ 7)
    quant := BitVec.ofNat 16 (65536 / s)
    zbin := BitVec.ofNat 16 ((zf * s + 64) / 2 ^ 7)
    dq := BitVec.ofNat 16 s }

/-- `QLUT[t][q][i]` (10_state.md R32). An index past a substituted table, which `Config.wf` excludes, reads the default. -/
def qlutEntry (c : Config) (t q i : Nat) : QEntry :=
  match c.qlut with
  | .standard => qentryStandard t q i
  | .custom entries => entries[(t * 128 + q) * 16 + i]?.getD (qentryStandard t q i)

/-- `ZIGZAG[k]`, the lane of the coefficient at position `k` (44_tokenizer.md R186). -/
def zigzag (k : Nat) : Nat :=
  [0, 1, 4, 8, 5, 2, 3, 6, 9, 12, 13, 10, 7, 11, 14, 15].getD k 0

/-- `BANDS[k]`, the band of position `k` (44_tokenizer.md R187). -/
def bandOf (k : Nat) : Nat :=
  [0, 1, 2, 3, 6, 4, 5, 6, 6, 6, 6, 6, 6, 6, 6, 7].getD k 0

/-- `COEFTREE[i]`, the coefficient token tree (44_tokenizer.md R195). -/
def coefTree (i : Nat) : Int :=
  [-11, 2, 0, 4, -1, 6, 8, 12, -2, 10, -3, -4, 14, 16, -5, -6, 18, 20, -7, -8, -9, -10].getD i 0

/-- `NBITS[id]`, the number of extra bits of a token (44_tokenizer.md R189). -/
def tokenBits (id : Nat) : Nat :=
  [0, 0, 0, 0, 0, 1, 2, 3, 4, 5, 11, 0].getD id 0

/-- `CATBASE[id]` for the categories, ids 5 to 10 (44_tokenizer.md R189). -/
def catBase (id : Nat) : Nat :=
  [0, 1, 2, 3, 4, 5, 7, 11, 19, 35, 67].getD id 0

/-- `PCAT[id]`, the probabilities of the extra bits, most significant first (44_tokenizer.md R196). -/
def extraProbs (id : Nat) : List Nat :=
  match id with
  | 5 => [159]
  | 6 => [165, 145]
  | 7 => [173, 148, 140]
  | 8 => [176, 155, 140, 135]
  | 9 => [180, 157, 141, 134, 130]
  | 10 => [254, 254, 243, 230, 196, 177, 153, 140, 133, 130, 129]
  | _ => []

end Sys2Proof.Machine
end

