-- ==== Sys2Proof/Machine/State.lean ====
section
/-! DEFINITION. The state of the engine and its value after reset (10_state.md R20 to R45, 70_reset_and_hazards.md R250). -/

namespace Sys2Proof.Machine

/-- The fault codes of the engine (60_exceptions.md R211). A fault is architectural: the machine records it in `FSTAT`,
`FCAUSE` and `FINFO` and goes on to the next transaction, so none of them ends a run. -/
inductive FaultCode where
  /-- `E_ILLCMD` 0x10: unassigned opcode or reserved bit. -/
  | illCmd
  /-- `E_QIDX` 0x11: a host write to `QIDX` outside 0..127. -/
  | qidx
  /-- `E_REGRANGE` 0x12: GDC names a register past b31. -/
  | regRange
  /-- `E_OPERAND` 0x13: SEOB or BLIT with `n > 16`, TKN with `c0 = 3`. -/
  | operand
  /-- `E_WINDOW` 0x14: BSTART with a window outside `OBUF`. -/
  | window
  /-- `E_NOTACTIVE` 0x15: a bool is to be encoded and the coder is not active. -/
  | notActive
  /-- `E_PROB0` 0x16: a probability that would be used is 0. -/
  | prob0
  /-- `E_HOSTADDR` 0x17: a misaligned or unmapped host address. -/
  | hostAddr
  /-- `E_TOKPTR` 0x18: the token pointers do not frame the count of a PUTTOK. -/
  | tokPtr
  /-- `E_OBUFFULL` 0x20: a byte must be written and the window is full. -/
  | obufFull
  /-- `E_TOKFULL` 0x21: no room in `TOKM`. -/
  | tokFull
  /-- `E_RANGE` 0x30: the coder invariant is false at the start of a step. -/
  | coderRange
  /-- `E_EOB` 0x31: the EOB tag disagrees with the lanes. -/
  | eobTag
  /-- `E_TREE` 0x32: a malformed tree, a value that is no leaf, an index outside a tree memory. -/
  | tree
  /-- `E_CARRY` 0x33: a carry finds no byte below 0xFF. -/
  | carry
  /-- `E_MAG` 0x34: a magnitude no token can carry. -/
  | mag
  /-- `E_TOKEN` 0x35: a token record that TKN cannot produce. -/
  | token
  deriving DecidableEq, Repr

/-- The machine never stops with a fault: every fault of the spec is recorded in the state and the engine serves the next
transaction (60_exceptions.md R213, R214, R216). The type therefore has no constructor. -/
inductive Fault where
  deriving DecidableEq, Repr

/-- The reasons to give an instruction no meaning. -/
inductive Refusal where
  /-- Raised by an arm of `exec` whose instruction has no meaning yet; safe, since nothing is claimed of it. No arm of
  this model raises it. -/
  | notModelled (mnemonic : String)
  deriving DecidableEq, Repr

/-- The memories `CPROB`, `TREEM`, `PROBM`, `COSTM`, `TOKM`, `OBUF` as the bytes of their host-port windows
(20_memory.md R67, R68): `cells` lists the bytes written since the last reset, addresses strictly rising. `epoch` counts
the resets, so that contents left unspecified by two resets are two free values (log 2, log 3). -/
structure Memory where
  epoch : Nat
  cells : List Host.Cell
  deriving DecidableEq, Repr

/-- One event at the host port (20_memory.md R61) or the assertion of `rst` between two of them
(70_reset_and_hazards.md R250). -/
inductive Transaction where
  | hrd (addr : Word)
  | hwr (addr data : Word)
  | rst
  deriving DecidableEq, Repr

/-- What a mapped host address names (20_memory.md R68). -/
inductive Target where
  /-- The control and status register at an offset (10_state.md R24 to R30). -/
  | csr (offset : Nat)
  /-- Lanes `2*pair` and `2*pair + 1` of a block register. -/
  | lanes (n : BitVec 5) (pair : BitVec 3)
  /-- The EOB tag of a block register. -/
  | eob (n : BitVec 5)
  /-- Four bytes of one of the six memories. -/
  | storage
  /-- A word of the look-up table, counted from the start of its window. -/
  | qlut (word : Nat)
  deriving DecidableEq, Repr

/-- The state. The first group is the architectural state of 10_state.md R20 (the memories together in `mem`), every
register at its implemented width; the last four fields are the model's own. -/
structure State where
  /-- `BR[0..31]` (10_state.md R21). -/
  br : Vector Block 32
  /-- `EOB[0..31]` (10_state.md R22). -/
  eob : Vector (BitVec 5) 32
  /-- `FSTAT`: bit 0 CFG, bit 1 BUF, bit 2 INV (10_state.md R24). -/
  fstat : BitVec 3
  /-- `FCAUSE` (10_state.md R24). -/
  fcause : BitVec 8
  /-- `FINFO` (10_state.md R24). -/
  finfo : Word
  /-- `QIDX` (10_state.md R25). -/
  qidx : BitVec 7
  /-- `ZBINX` (10_state.md R25). -/
  zbinx : BitVec 16
  /-- `OBASE` (10_state.md R26). -/
  obase : Word
  /-- `OLIMIT` (10_state.md R26). -/
  olimit : Word
  /-- `BC_CTL.ACTIVE` (10_state.md R27). -/
  bcActive : BitVec 1
  /-- `BC_RANGE` (10_state.md R27). -/
  bcRange : BitVec 8
  /-- `BC_LOW` (10_state.md R27). -/
  bcLow : Word
  /-- `BC_COUNT` (10_state.md R27). -/
  bcCount : BitVec 5
  /-- `BC_POS` (10_state.md R27). -/
  bcPos : Word
  /-- `BLEN` (10_state.md R27). -/
  blen : Word
  /-- `TKWP` (10_state.md R29). -/
  tkwp : Word
  /-- `TKRP` (10_state.md R29). -/
  tkrp : Word
  /-- `COST` (10_state.md R30). -/
  cost : Word
  /-- `TKCNT` (10_state.md R29). -/
  tkcnt : BitVec 5
  /-- `CPROB`, `TREEM`, `PROBM`, `COSTM`, `TOKM`, `OBUF` (10_state.md R33 to R38). -/
  mem : Memory
  /-- The parameters of the hardware (00_scope.md R12), carried here because `step` takes nothing but a state (log 6). -/
  cfg : Config
  /-- The transactions the host has still to issue, the next one first (log 4). -/
  bus : List Transaction
  /-- The read data of the last transaction, none when it was no read (log 5). -/
  rdata : Option Word
  deriving DecidableEq, Repr

/-- How a command ends, before the fault is recorded: completed, or a fault with the effects that stay in spite of it
(60_exceptions.md R214, R215). -/
inductive Run where
  | done (s : State)
  | raised (code : FaultCode) (s : State)
  deriving DecidableEq, Repr

/-- The state after the `epoch`-th reset of hardware with parameters `cfg` (10_state.md R45, 70_reset_and_hazards.md R250).
The lanes and the EOB tags are unspecified there; DESIGN CHOICE (log 1), unsafe: zero. -/
def State.resetOf (cfg : Config) (epoch : Nat) : State where
  br := Vector.replicate 32 (Vector.replicate 16 0)
  eob := Vector.replicate 32 0
  fstat := 0
  fcause := 0
  finfo := 0
  qidx := 0
  zbinx := 0
  obase := 0
  olimit := BitVec.ofNat 32 cfg.nobuf
  bcActive := 0
  bcRange := 255
  bcLow := 0
  bcCount := 24
  bcPos := 0
  blen := 0
  tkwp := 0
  tkrp := 0
  cost := 0
  tkcnt := 0
  mem := { epoch := epoch, cells := [] }
  cfg := cfg
  bus := []
  rdata := none

/-- The machine right after its first reset, parameters at their defaults and no transaction issued
(70_reset_and_hazards.md R250; logs 3 to 6). -/
def State.reset : State := State.resetOf configStandard 0

end Sys2Proof.Machine
end

