-- ==== Sys2Proof/Machine/Flags.lean ====
section
/-! DEFINITION. The flag-like state of the engine: the fault-class bits of `FSTAT` and what sets and clears them, and
`BC_CTL.ACTIVE` (10_state.md R42). There are no condition codes. -/

namespace Sys2Proof.Machine

/-- The code recorded in `FCAUSE` (60_exceptions.md R211). -/
def FaultCode.number : FaultCode → BitVec 8
  | .illCmd => 0x10
  | .qidx => 0x11
  | .regRange => 0x12
  | .operand => 0x13
  | .window => 0x14
  | .notActive => 0x15
  | .prob0 => 0x16
  | .hostAddr => 0x17
  | .tokPtr => 0x18
  | .obufFull => 0x20
  | .tokFull => 0x21
  | .coderRange => 0x30
  | .eobTag => 0x31
  | .tree => 0x32
  | .carry => 0x33
  | .mag => 0x34
  | .token => 0x35

/-- The `FSTAT` bit of a fault's class, bit `code[5:4] - 1` (60_exceptions.md R212, R214). -/
def FaultCode.classBit (code : FaultCode) : BitVec 3 :=
  1#3 <<< ((code.number.extractLsb' 4 2).toNat - 1)

/-- `FSTAT` after a fault: the class bit is sticky (60_exceptions.md R214). -/
def fstatAfter (fstat : BitVec 3) (code : FaultCode) : BitVec 3 := fstat ||| code.classBit

/-- `FSTAT` after a write of `d` to `FCLR`: bits 0 and 1 of `d` clear CFG and BUF, and INV is never cleared
(60_exceptions.md R218). -/
def fstatCleared (fstat : BitVec 3) (d : Word) : BitVec 3 := fstat &&& ~~~(0#1 ++ d.extractLsb' 0 2)

/-- The engine is halted exactly when `FSTAT` is not 0 (60_exceptions.md R216). -/
def State.halted (s : State) : Bool := s.fstat != 0

/-- The output `fault`, a level equal to `FSTAT != 0` (60_exceptions.md R221). -/
def State.faultOutput (s : State) : Bool := s.fstat != 0

/-- The coder is active: `BC_CTL[0]` is 1 (40_bool_coder.md R121). -/
def State.active (s : State) : Bool := s.bcActive == 1

end Sys2Proof.Machine
end

