-- ==== Sys2Proof/Machine/Memory.lean ====
section
/-! DEFINITION. The memories as bytes of their host-port windows: reading, writing, the canonical form, and the index of
each memory (20_memory.md R60, R67, R68). -/

namespace Sys2Proof.Machine

/-- The value an address is listed with. -/
def cellsFind : List Host.Cell → Nat → Option Byte
  | [], _ => none
  | (a, v) :: rest, x => if a = x then some v else cellsFind rest x

/-- Insert or replace the cell of an address, keeping the addresses rising. -/
def cellsPut : List Host.Cell → Nat → Byte → List Host.Cell
  | [], x, v => [(x, v)]
  | (a, u) :: rest, x, v =>
    if x < a then (x, v) :: (a, u) :: rest
    else if x = a then (x, v) :: rest
    else (a, u) :: cellsPut rest x v

/-- The addresses rise strictly. -/
def cellsRising : List Host.Cell → Bool
  | [] => true
  | [_] => true
  | (a, _) :: (b, v) :: rest => decide (a < b) && cellsRising ((b, v) :: rest)

/-- What an unlisted address holds: no value, since nothing has written it since reset (10_state.md R45). -/
def Memory.unlisted : Option Byte := none

/-- The value written at an address since the last reset, or `Memory.unlisted`. -/
def Memory.written (m : Memory) (a : Nat) : Option Byte :=
  match cellsFind m.cells a with
  | some v => some v
  | none => Memory.unlisted

/-- Read one byte. A byte never written since reset reads as a free value (93_implementation_defined.md U1, log 2). -/
def Memory.read (m : Memory) (a : Nat) : Byte :=
  (m.written a).getD (Config.powerOnByte m.epoch a)

/-- Write one byte. No listed value equals `Memory.unlisted`, so the canonical form keeps every written byte. -/
def Memory.write (m : Memory) (a : Nat) (v : Byte) : Memory :=
  { m with cells := cellsPut m.cells a v }

/-- The canonical form: addresses strictly rising (and, `Memory.unlisted` being no value, no entry equal to it). -/
def Memory.wf (m : Memory) : Bool := cellsRising m.cells

/-- A 32-bit word from four bytes, the lowest address in the least significant bits (20_memory.md R67). -/
def Memory.readWord (m : Memory) (a : Nat) : Word :=
  m.read (a + 3) ++ m.read (a + 2) ++ m.read (a + 1) ++ m.read a

/-- Store a 32-bit word as four bytes, the least significant at the lowest address (20_memory.md R67). -/
def Memory.writeWord (m : Memory) (a : Nat) (w : Word) : Memory :=
  (((m.write a (w.extractLsb' 0 8)).write (a + 1) (w.extractLsb' 8 8)).write (a + 2)
    (w.extractLsb' 16 8)).write (a + 3) (w.extractLsb' 24 8)

/-- The address of `CPROB[t][b][c][n]` (10_state.md R33, 20_memory.md R68). -/
def cprobAddr (t b c n : Nat) : Nat := 0x1000 + (((t * 8 + b) * 3 + c) * 11 + n)

/-- The address of `TREEM[k]` (20_memory.md R68). -/
def treemAddr (k : Nat) : Nat := 0x1800 + k

/-- The address of `PROBM[k]` (20_memory.md R68). -/
def probmAddr (k : Nat) : Nat := 0x1900 + k

/-- The address of `COSTM[v]` (20_memory.md R68). -/
def costmAddr (v : Nat) : Nat := 0x1C00 + 4 * v

/-- The address of `TOKM[k]` (20_memory.md R68). -/
def tokmAddr (k : Nat) : Nat := 0x10000 + 4 * k

/-- The address of `OBUF[k]` (20_memory.md R68). -/
def obufAddr (k : Nat) : Nat := 0x20000 + k

/-- The address is that of a byte of one of the six memories, each at its implemented size (20_memory.md R64, R67, R68). -/
def storageByte (c : Config) (a : Nat) : Bool :=
  decide (0x1000 ≤ a ∧ a < 0x1420) || decide (0x1800 ≤ a ∧ a < 0x1A00) || decide (0x1C00 ≤ a ∧ a < 0x2000) ||
    decide (0x10000 ≤ a ∧ a < 0x10000 + 4 * c.ntok) || decide (0x20000 ≤ a ∧ a < 0x20000 + c.nobuf)

end Sys2Proof.Machine
end

