-- ==== Sys2Proof/Machine/Operands.lean ====
section
/-! DEFINITION. How operands are read and results narrowed: lanes of block registers, entries of the memories, the
arithmetic primitives of 00_scope.md R7 and R8. -/

namespace Sys2Proof.Machine

/-- `trunc16(v)`: the integer in -32768..32767 congruent to `v` modulo 65536 (00_scope.md R7). -/
def trunc16 (v : Int) : Int := (BitVec.ofInt 16 v).toInt

/-- The lane pattern that holds `trunc16(v)` (00_scope.md R7). -/
def laneOf (v : Int) : Lane := BitVec.ofInt 16 v

/-- `asr(v, k)`: floor of `v / 2^k` (00_scope.md R7). -/
def asr (v : Int) (k : Nat) : Int := v / 2 ^ k

/-- A bare condition used as a number (00_scope.md R7). -/
def bit01 (c : Bool) : Int := if c then 1 else 0

/-- `BR[n]`, the 16 lanes of a block register (10_state.md R21). -/
def State.block (s : State) (n : BitVec 5) : Block := s.br[n.toNat]'n.isLt

/-- Lane `i` of a block as a signed integer (00_scope.md R7). -/
def lane (b : Block) (i : Nat) : Int := (b[i]?.getD 0).toInt

/-- `EOB[n]` (10_state.md R22). -/
def State.eobTag (s : State) (n : BitVec 5) : BitVec 5 := s.eob[n.toNat]'n.isLt

/-- `CPROB[t][b][c][n]`, unsigned (10_state.md R33). -/
def Memory.cprob (m : Memory) (t b c n : Nat) : Nat := (m.read (cprobAddr t b c n)).toNat

/-- `TREEM[k]`, signed (10_state.md R34). -/
def Memory.treem (m : Memory) (k : Nat) : Int := (m.read (treemAddr k)).toInt

/-- `PROBM[k]`, unsigned (10_state.md R35). -/
def Memory.probm (m : Memory) (k : Nat) : Nat := (m.read (probmAddr k)).toNat

/-- `COSTM[v]` (10_state.md R36). -/
def Memory.costm (m : Memory) (v : Nat) : Word := m.readWord (costmAddr v)

/-- `TOKM[k]` (10_state.md R37). -/
def Memory.tokm (m : Memory) (k : Nat) : Word := m.readWord (tokmAddr k)

/-- `OBUF[k]` (10_state.md R38). -/
def Memory.obuf (m : Memory) (k : Nat) : Byte := m.read (obufAddr k)

end Sys2Proof.Machine
end

