-- ==== Sys2Proof/Machine/Ops.lean ====
section
/-! DEFINITION. The named operations every command goes through: taking a fault, leaving the fault state, reset, writing
registers and memories, ending a command. -/

namespace Sys2Proof.Machine

/-- Taking a fault, the engine's only exception: the class bit of `FSTAT` is set, and the first fault since `FSTAT` was 0
records its code and `info` (the command word or the byte address). Nothing else changes (60_exceptions.md R214). -/
def State.raise (s : State) (code : FaultCode) (info : Word) : State :=
  if s.fstat = 0 then
    { s with fstat := fstatAfter s.fstat code, fcause := code.number, finfo := info }
  else
    { s with fstat := fstatAfter s.fstat code }

/-- Leaving the fault state, a host write of `d` to `FCLR`: CFG and BUF are cleared by ones, and the cause registers are
cleared when `FSTAT` becomes 0 (60_exceptions.md R218). -/
def State.clearFaults (s : State) (d : Word) : State :=
  if fstatCleared s.fstat d = 0 then
    { s with fstat := 0, fcause := 0, finfo := 0 }
  else
    { s with fstat := fstatCleared s.fstat d }

/-- The assertion of `rst` between two transactions: every register at its reset value, the memories unspecified again,
the parameters and the host's own list untouched (70_reset_and_hazards.md R250, R251). -/
def State.assertReset (s : State) : State :=
  { State.resetOf s.cfg (s.mem.epoch + 1) with bus := s.bus }

/-- `BR[n] <- b`; the EOB tag stays (70_reset_and_hazards.md R262). -/
def State.setBlock (s : State) (n : BitVec 5) (b : Block) : State :=
  { s with br := s.br.set n.toNat b n.isLt }

/-- `BR[n][i] <- v` (00_scope.md R7). -/
def State.setLane (s : State) (n : BitVec 5) (i : BitVec 4) (v : Lane) : State :=
  s.setBlock n ((s.block n).set i.toNat v i.isLt)

/-- `EOB[n] <- v` (00_scope.md R7). -/
def State.setEobTag (s : State) (n : BitVec 5) (v : BitVec 5) : State :=
  { s with eob := s.eob.set n.toNat v n.isLt }

/-- `COSTM[v] <- c`, 32 bits (10_state.md R36). -/
def State.setCostm (s : State) (v : Nat) (c : Nat) : State :=
  { s with mem := s.mem.writeWord (costmAddr v) (BitVec.ofNat 32 c) }

/-- `TOKM[k] <- w` (10_state.md R37). -/
def State.setTokm (s : State) (k : Nat) (w : Word) : State :=
  { s with mem := s.mem.writeWord (tokmAddr k) w }

/-- The state a command leaves: a fault is taken on top of the effects that stay, with the command word in `FINFO`
(60_exceptions.md R214). -/
def Run.settle (word : Word) : Run → State
  | .done s => s
  | .raised code s => s.raise code word

/-- How every meaning ends: the engine goes on in every case, and the command word `FINFO` takes is the command's own
encoding (30_encoding.md R91, log 8). -/
def finish (i : Instr) (r : Run) : Host.Outcome State Fault Refusal := .next (r.settle (encode i))

end Sys2Proof.Machine
end

