-- ==== Sys2Proof/Machine/Coder.lean ====
section
/-! DEFINITION. `EncodeBool`, the one procedure through which every bit reaches the output, and its repetition
(40_bool_coder.md R120 to R124, R130). -/

namespace Sys2Proof.Machine

/-- The tuple a coding step works on, as exact integers, with the memory that holds `OBUF` (40_bool_coder.md R120). -/
structure Coder where
  range : Nat
  low : Nat
  count : Nat
  pos : Nat
  mem : Memory
  deriving DecidableEq, Repr

/-- `BacOk`: `128 <= range <= 255`, `1 <= count <= 24`, `OBASE <= pos <= OLIMIT <= NOBUF` (40_bool_coder.md R121). -/
def State.bacOk (s : State) : Bool :=
  decide (128 ≤ s.bcRange.toNat ∧ s.bcRange.toNat ≤ 255) && decide (1 ≤ s.bcCount.toNat ∧ s.bcCount.toNat ≤ 24) &&
    decide (s.obase.toNat ≤ s.bcPos.toNat ∧ s.bcPos.toNat ≤ s.olimit.toNat ∧ s.olimit.toNat ≤ s.cfg.nobuf)

/-- The coder tuple of a state (40_bool_coder.md R120). -/
def State.coder (s : State) : Coder :=
  { range := s.bcRange.toNat, low := s.bcLow.toNat, count := s.bcCount.toNat, pos := s.bcPos.toNat, mem := s.mem }

/-- The state with a new coder tuple (40_bool_coder.md R120). -/
def State.withCoder (s : State) (c : Coder) : State :=
  { s with
    bcRange := BitVec.ofNat 8 c.range, bcLow := BitVec.ofNat 32 c.low, bcCount := BitVec.ofNat 5 c.count,
    bcPos := BitVec.ofNat 32 c.pos, mem := c.mem }

/-- A carry into the `n` bytes from `base` on, from the last one down: a byte 0xFF becomes 0x00, the first other one is
incremented; none when there is no such byte (40_bool_coder.md R123). -/
def carryInto (base : Nat) : Nat → Memory → Option Memory
  | 0, _ => none
  | n + 1, m =>
    if m.obuf (base + n) = 0xFF then carryInto base n (m.write (obufAddr (base + n)) 0x00)
    else some (m.write (obufAddr (base + n)) (m.obuf (base + n) + 1))

/-- `split = 1 + (((range - 1) * p) >> 8)` (40_bool_coder.md R123). -/
def splitOf (range p : Nat) : Nat := 1 + (range - 1) * p / 2 ^ 8

/-- The sub-range of a bit: `low` and `range` before renormalisation (40_bool_coder.md R123). -/
def Coder.narrow (c : Coder) (bit : Bool) (p : Nat) : Coder :=
  if bit then { c with low := (c.low + splitOf c.range p) % 2 ^ 32, range := c.range - splitOf c.range p }
  else { c with range := splitOf c.range p }

/-- One turn of the renormalisation loop: double `range`, propagate the carry of bit 31 of `low`, shift `low`, and write a
byte when `count` reaches 0 (40_bool_coder.md R123). -/
def Coder.shift (base limit : Nat) (c : Coder) : Except FaultCode Coder :=
  match (if c.low.testBit 31 then carryInto base (c.pos - base) c.mem else some c.mem) with
  | none => .error .carry
  | some mem =>
    let low := c.low * 2 % 2 ^ 32
    if c.count - 1 = 0 then
      if c.pos = limit then .error .obufFull
      else
        .ok { range := c.range * 2, low := low % 2 ^ 24, count := 8, pos := c.pos + 1
              mem := mem.write (obufAddr c.pos) (BitVec.ofNat 8 (low / 2 ^ 24)) }
    else .ok { range := c.range * 2, low := low, count := c.count - 1, pos := c.pos, mem := mem }

/-- The renormalisation loop, at most `fuel` turns; 7 suffice for every range of 1 or more (40_bool_coder.md R123, R124,
log 10). -/
def Coder.renorm (base limit : Nat) : Nat → Coder → Except FaultCode Coder
  | 0, c => .ok c
  | fuel + 1, c =>
    if c.range < 128 then
      match c.shift base limit with
      | .error code => .error code
      | .ok c' => c'.renorm base limit fuel
    else .ok c

/-- `EncodeBool(bit, p)`, atomic: on a fault nothing changes, but for `E_OBUFFULL`, which also clears ACTIVE
(40_bool_coder.md R123). -/
def encodeBool (bit : Bool) (p : Nat) (s : State) : Run :=
  if s.active = false then .raised .notActive s
  else if p = 0 then .raised .prob0 s
  else if s.bacOk = false then .raised .coderRange s
  else
    match (s.coder.narrow bit p).renorm s.obase.toNat s.olimit.toNat 7 with
    | .ok c => .done (s.withCoder c)
    | .error .obufFull => .raised .obufFull { s with bcActive := 0 }
    | .error code => .raised code s

/-- `EncodeBool` for each bit and probability in turn: a fault leaves the steps before it done (60_exceptions.md R215). -/
def encodeBools : List (Bool × Nat) → State → Run
  | [], s => .done s
  | (bit, p) :: rest, s =>
    match encodeBool bit p s with
    | .done s' => encodeBools rest s'
    | .raised code s' => .raised code s'

end Sys2Proof.Machine
end

