-- ==== Sys2Proof/Machine/BoolCoder.lean ====
section
/-! DEFINITION. The Bit Arithmetic Coder commands BSTART, BBOOL, BLIT, BSTOP (40_bool_coder.md). -/

namespace Sys2Proof.Machine

/-- The bools of a literal: bits `n-1` down to 0 of the value, each at probability 128 (40_bool_coder.md R127). -/
def literalBools (n : Nat) (value : BitVec 16) : List (Bool × Nat) :=
  (List.range n).reverse.map fun k => (value.getLsbD k, 128)

/-- The 32 zero bools of a flush (40_bool_coder.md R128). -/
def flushBools : List (Bool × Nat) := List.replicate 32 (false, 128)

/-- The coder at the start of a partition (40_bool_coder.md R125). -/
def State.startCoder (s : State) : State :=
  { s with bcRange := 255, bcLow := 0, bcCount := 24, bcPos := s.obase, bcActive := 1 }

/-- The end of a flush: the length is recorded and the coder is no longer active (40_bool_coder.md R128). -/
def State.stopCoder (s : State) : State := { s with blen := s.bcPos - s.obase, bcActive := 0 }

/-- BSTART: start a partition in the window `OBASE..OLIMIT` (40_bool_coder.md R125). -/
def execBstart (s : State) : Host.Outcome State Fault Refusal :=
  finish .bstart
    (if s.obase.toNat ≤ s.olimit.toNat ∧ s.olimit.toNat ≤ s.cfg.nobuf then .done s.startCoder else .raised .window s)

/-- BBOOL: encode one bool (40_bool_coder.md R126). -/
def execBbool (bit : BitVec 1) (prob : BitVec 8) (s : State) : Host.Outcome State Fault Refusal :=
  finish (.bbool bit prob) (encodeBool (bit == 1) prob.toNat s)

/-- BLIT: encode the low `n` bits of a literal, most significant first (40_bool_coder.md R127). -/
def execBlit (n : BitVec 5) (value : BitVec 16) (s : State) : Host.Outcome State Fault Refusal :=
  finish (.blit n value)
    (if 16 < n.toNat then .raised .operand s else encodeBools (literalBools n.toNat value) s)

/-- BSTOP: flush and finish a partition (40_bool_coder.md R128). -/
def execBstop (s : State) : Host.Outcome State Fault Refusal :=
  finish .bstop
    (if s.active = false then .raised .notActive s
     else
      match encodeBools flushBools s with
      | .done s' => .done s'.stopCoder
      | .raised code s' => .raised code s')

end Sys2Proof.Machine
end

