-- ==== Sys2Proof/Machine/Quantizer.lean ====
section
/-! DEFINITION. The quantizer commands QUANT and DEQUANT (43_quantizer.md). -/

namespace Sys2Proof.Machine

/-- The magnitude a coefficient of magnitude `a` quantizes to: 0 in the dead zone, which `boost` widens, else
`((a + round) * quant) >> 16` (43_quantizer.md R172). -/
def quantMag (e : QEntry) (boost a : Nat) : Nat :=
  if a < e.zbin.toNat + boost then 0 else (a + e.round.toNat) * e.quant.toNat / 2 ^ 16

/-- One lane of QUANT: the sign is applied last, then `trunc16` (43_quantizer.md R171, R172). -/
def quantLane (e : QEntry) (boost : Nat) (x : Int) : Lane :=
  laneOf (if x < 0 then -(quantMag e boost x.natAbs : Int) else (quantMag e boost x.natAbs : Int))

/-- The block QUANT computes (43_quantizer.md R172). -/
def quantBlock (c : Config) (t q boost : Nat) (x : Block) : Block :=
  Vector.ofFn fun i => quantLane (qlutEntry c t q i.val) boost x[i].toInt

/-- `EobOf(y)`: one more than the last position whose coefficient is not zero, 0 when there is none
(43_quantizer.md R173). -/
def eobOf (y : Block) : Nat :=
  (List.range 16).foldl (fun n k => if lane y (zigzag k) = 0 then n else k + 1) 0

/-- One lane of DEQUANT (43_quantizer.md R175). -/
def dequantLane (e : QEntry) (x : Int) : Lane := laneOf (x * (e.dq.toNat : Int))

/-- The block DEQUANT computes (43_quantizer.md R175). -/
def dequantBlock (c : Config) (t q : Nat) (x : Block) : Block :=
  Vector.ofFn fun i => dequantLane (qlutEntry c t q i.val) x[i].toInt

/-- QUANT: quantize `BR[bs]` into `BR[bd]` and set `EOB[bd]` (43_quantizer.md R172). -/
def execQuant (bd bs : BitVec 5) (t : BitVec 2) (s : State) : Host.Outcome State Fault Refusal :=
  let y := quantBlock s.cfg t.toNat s.qidx.toNat s.zbinx.toNat (s.block bs)
  finish (.quant bd bs t) (.done ((s.setBlock bd y).setEobTag bd (BitVec.ofNat 5 (eobOf y))))

/-- DEQUANT: dequantize `BR[bs]` into `BR[bd]` (43_quantizer.md R175). -/
def execDequant (bd bs : BitVec 5) (t : BitVec 2) (s : State) : Host.Outcome State Fault Refusal :=
  finish (.dequant bd bs t)
    (.done (s.setBlock bd (dequantBlock s.cfg t.toNat s.qidx.toNat (s.block bs))))

end Sys2Proof.Machine
end

