-- ==== Sys2Proof/Machine/Support.lean ====
section
/-! DEFINITION. The support commands NOP, LDI, BFILL, SEOB (45_support.md). -/

namespace Sys2Proof.Machine

/-- NOP: nothing (45_support.md R201). -/
def execNop (s : State) : Host.Outcome State Fault Refusal := finish .nop (.done s)

/-- LDI: load one lane with an immediate (45_support.md R202). -/
def execLdi (bd : BitVec 5) (lane : BitVec 4) (imm16 : BitVec 16) (s : State) : Host.Outcome State Fault Refusal :=
  finish (.ldi bd lane imm16) (.done (s.setLane bd lane imm16))

/-- BFILL: set all 16 lanes to one value (45_support.md R203). -/
def execBfill (bd : BitVec 5) (imm16 : BitVec 16) (s : State) : Host.Outcome State Fault Refusal :=
  finish (.bfill bd imm16) (.done (s.setBlock bd (Vector.replicate 16 imm16)))

/-- SEOB: set an EOB tag, 0..16 (45_support.md R204). -/
def execSeob (bd n : BitVec 5) (s : State) : Host.Outcome State Fault Refusal :=
  finish (.seob bd n) (if 16 < n.toNat then .raised .operand s else .done (s.setEobTag bd n))

end Sys2Proof.Machine
end

