-- ==== Sys2Proof/Machine/TreeWalk.lean ====
section
/-! DEFINITION. Walking a tree held as an array of signed entries: the path search, the collection of all leaves, and the
cost of a path (41_tree_coder.md R140 to R142, R148, R151). -/

namespace Sys2Proof.Machine

/-- A path from a node to a leaf: the nodes in order, each with the bit taken there (41_tree_coder.md R142). -/
abbrev Path := List (Nat × Bool)

/-- How a search below a node ends: at the leaf, without having met it (with the nodes visited so far), or at a
malformation (41_tree_coder.md R142). -/
inductive Search where
  | found (path : Path)
  | absent (visited : List Nat)
  | malformed
  deriving DecidableEq, Repr

/-- One child of a node: entry `e`, taken by `bit` at node `i`. A leaf is compared with `v`; a link, which must be even, is
walked by `down` (41_tree_coder.md R142). -/
def searchChild (down : Nat → List Nat → Search) (v i : Nat) (bit : Bool) (e : Int) (visited : List Nat) : Search :=
  if e ≤ 0 then
    if e.natAbs = v then .found [(i, bit)] else .absent visited
  else if e % 2 = 1 then .malformed
  else
    match down e.toNat visited with
    | .found path => .found ((i, bit) :: path)
    | other => other

/-- `Walk(i, path)` over a table of `size` entries with the tree at `tb`: preorder, bit 0 before bit 1, first match wins. A
node entered twice or outside the table is a malformation. `fuel` bounds the depth (41_tree_coder.md R142, R152). -/
def walk (entry : Nat → Int) (size tb v : Nat) : Nat → Nat → List Nat → Search
  | 0, _, _ => .malformed
  | fuel + 1, i, visited =>
    if visited.contains i then .malformed
    else if size - 1 < tb + i + 1 then .malformed
    else
      match searchChild (walk entry size tb v fuel) v i false (entry (tb + i)) (i :: visited) with
      | .absent visited' => searchChild (walk entry size tb v fuel) v i true (entry (tb + i + 1)) visited'
      | other => other

/-- The bound of nodes a walk can meet (41_tree_coder.md R142, R152). -/
def walkFuel : Nat := 128

/-- `FindPath(T, N, tb, v, s)` (41_tree_coder.md R142). -/
def findPath (entry : Nat → Int) (size tb v start : Nat) : Except FaultCode Path :=
  match walk entry size tb v walkFuel start [] with
  | .found path => .ok path
  | .absent _ => .error .tree
  | .malformed => .error .tree

/-- A leaf value with the path to it. -/
abbrev Leaf := Nat × Path

/-- One child of a node in a collection: a leaf is appended to the leaves met so far, a link is walked
(41_tree_coder.md R151). -/
def collectChild (down : Nat → Path → List Nat → List Leaf → Option (List Nat × List Leaf)) (i : Nat) (bit : Bool)
    (e : Int) (path : Path) (visited : List Nat) (leaves : List Leaf) : Option (List Nat × List Leaf) :=
  if e ≤ 0 then some (visited, leaves ++ [(e.natAbs, path ++ [(i, bit)])])
  else if e % 2 = 1 then none
  else down e.toNat (path ++ [(i, bit)]) visited leaves

/-- `Collect(i, path)`: every leaf below a node in preorder, none on any malformation (41_tree_coder.md R151). -/
def collect (entry : Nat → Int) (size tb : Nat) :
    Nat → Nat → Path → List Nat → List Leaf → Option (List Nat × List Leaf)
  | 0, _, _, _, _ => none
  | fuel + 1, i, path, visited, leaves =>
    if visited.contains i then none
    else if size - 1 < tb + i + 1 then none
    else
      match collectChild (collect entry size tb fuel) i false (entry (tb + i)) path (i :: visited) leaves with
      | none => none
      | some (visited', leaves') =>
        collectChild (collect entry size tb fuel) i true (entry (tb + i + 1)) path visited' leaves'

/-- The leaves of the whole tree at `tb` in `TREEM`, in preorder (41_tree_coder.md R151). -/
def treeLeaves (m : Memory) (tb : Nat) : Option (List Leaf) :=
  (collect m.treem 256 tb walkFuel 0 [] [] []).map Prod.snd

/-- The check of the probabilities along a path: an index outside `PROBM` before a probability 0, element by element
(41_tree_coder.md R145, R150, R151). -/
def checkProbs (m : Memory) (pb : Nat) : Path → Option FaultCode
  | [] => none
  | (i, _) :: rest =>
    if 256 - 1 < pb + i / 2 then some .tree
    else if m.probm (pb + i / 2) = 0 then some .prob0
    else checkProbs m pb rest

/-- The bools of a path with the probabilities of its nodes (41_tree_coder.md R145). -/
def pathBools (prob : Nat → Nat) (path : Path) : List (Bool × Nat) := path.map fun (i, bit) => (bit, prob (i / 2))

/-- The cost of one bit at probability `p` (41_tree_coder.md R147, R148). -/
def bitCost (c : Config) (bit : Bool) (p : Nat) : Nat := if bit then costEntry c (256 - p) else costEntry c p

/-- `PathCost(path, PROBM, pb)` (41_tree_coder.md R148). -/
def pathCost (c : Config) (m : Memory) (pb : Nat) (path : Path) : Nat :=
  (path.map fun (i, bit) => bitCost c bit (m.probm (pb + i / 2))).sum

end Sys2Proof.Machine
end

