-- ==== Sys2Proof/Machine/Tokenizer.lean ====
section
/-! DEFINITION. The tokenizer commands TKN and PUTTOK and the token record (44_tokenizer.md). -/

namespace Sys2Proof.Machine

/-- A token record field by field (44_tokenizer.md R188). -/
structure Token where
  id : BitVec 4
  band : BitVec 3
  ctx : BitVec 2
  skip : BitVec 1
  sign : BitVec 1
  extra : BitVec 11
  type : BitVec 2
  reserved : BitVec 8
  deriving DecidableEq, Repr

/-- The 32-bit word of a token record (44_tokenizer.md R188). -/
def packToken (k : Token) : Word :=
  k.reserved ++ k.type ++ k.extra ++ k.sign ++ k.skip ++ k.ctx ++ k.band ++ k.id

/-- The fields of a token record's word (44_tokenizer.md R188, R197). -/
def unpackToken (w : Word) : Token where
  id := w.extractLsb' 0 4
  band := w.extractLsb' 4 3
  ctx := w.extractLsb' 7 2
  skip := w.extractLsb' 9 1
  sign := w.extractLsb' 10 1
  extra := w.extractLsb' 11 11
  type := w.extractLsb' 22 2
  reserved := w.extractLsb' 24 8

/-- The largest magnitude a token can carry, `67 + 2047` (44_tokenizer.md R189). -/
def maxMagnitude : Nat := 2114

/-- The token id of a magnitude (44_tokenizer.md R189). -/
def magId (m : Nat) : Nat :=
  if m ≤ 4 then m else if m ≤ 6 then 5 else if m ≤ 10 then 6 else if m ≤ 18 then 7 else if m ≤ 34 then 8
  else if m ≤ 66 then 9 else 10

/-- `MagToken(m)`: the id and the extra-bit value of a magnitude (44_tokenizer.md R189). -/
def magToken (m : Nat) : Nat × Nat := (magId m, m - catBase (magId m))

/-- The context after a token: 0 after ZERO, 1 after ONE, 2 otherwise (44_tokenizer.md R190, R191). -/
def nextContext (id : Nat) : BitVec 2 := if id = 0 then 0 else if id = 1 then 1 else 2

/-- The record of the coefficient `v` at position `c` (44_tokenizer.md R190). -/
def coefToken (t ctx : BitVec 2) (skip : BitVec 1) (c : Nat) (v : Int) : Token where
  id := BitVec.ofNat 4 (magToken v.natAbs).1
  band := BitVec.ofNat 3 (bandOf c)
  ctx := ctx
  skip := skip
  sign := if v < 0 then 1 else 0
  extra := BitVec.ofNat 11 (magToken v.natAbs).2
  type := t
  reserved := 0

/-- The EOB record at position `c` (44_tokenizer.md R190). -/
def eobToken (t ctx : BitVec 2) (skip : BitVec 1) (c : Nat) : Token where
  id := 11
  band := BitVec.ofNat 3 (bandOf c)
  ctx := ctx
  skip := skip
  sign := 0
  extra := 0
  type := t
  reserved := 0

/-- The records of the coefficients at consecutive `positions`, then the EOB record at position `stop` when that is below
16; none when a magnitude has no token (44_tokenizer.md R190). -/
def tokensFrom (x : Block) (t : BitVec 2) (stop : Nat) : List Nat → BitVec 2 → BitVec 1 → Option (List Token)
  | [], ctx, skip => some (if stop < 16 then [eobToken t ctx skip stop] else [])
  | c :: rest, ctx, skip =>
    let v := lane x (zigzag c)
    if maxMagnitude < v.natAbs then none
    else
      let id := (magToken v.natAbs).1
      (tokensFrom x t stop rest (nextContext id) (if id = 0 then 1 else 0)).map (coefToken t ctx skip c v :: ·)

/-- The first position tokenized: 1 for Y-without-DC (44_tokenizer.md R190). -/
def firstPosition (t : BitVec 2) : Nat := if t = 0 then 1 else 0

/-- The records of a block whose tag is `n` (44_tokenizer.md R190). -/
def tokenize (x : Block) (t c0 : BitVec 2) (n : Nat) : Option (List Token) :=
  let first := firstPosition t
  tokensFrom x t (max first n) (List.range' first (n - first)) c0 0

/-- The Block invariant: the tag is at most 16, names a coefficient that is not zero, and everything at or after it is zero
(44_tokenizer.md R190). -/
def eobAgrees (x : Block) (n : Nat) : Bool :=
  decide (n ≤ 16) && !(decide (1 ≤ n) && lane x (zigzag (n - 1)) == 0) &&
    (List.range' n (16 - n)).all fun k => lane x (zigzag k) == 0

/-- Store records at consecutive entries of `TOKM` (44_tokenizer.md R190). -/
def storeTokens : Nat → List Token → State → State
  | _, [], s => s
  | k, token :: rest, s => storeTokens (k + 1) rest (s.setTokm k (packToken token))

/-- TKN: append the token records of a block (44_tokenizer.md R190). -/
def execTkn (bs : BitVec 5) (t c0 : BitVec 2) (s : State) : Host.Outcome State Fault Refusal :=
  finish (.tkn bs t c0)
    (if c0 = 3 then .raised .operand s
     else if eobAgrees (s.block bs) (s.eobTag bs).toNat = false then .raised .eobTag s
     else
      match tokenize (s.block bs) t c0 (s.eobTag bs).toNat with
      | none => .raised .mag s
      | some tokens =>
        if s.cfg.ntok < s.tkwp.toNat ∨ s.cfg.ntok < s.tkwp.toNat + tokens.length then .raised .tokFull s
        else
          .done { storeTokens s.tkwp.toNat tokens s with
            tkwp := BitVec.ofNat 32 (s.tkwp.toNat + tokens.length)
            tkcnt := BitVec.ofNat 5 tokens.length })

/-- The validation of a record PUTTOK reads (44_tokenizer.md R197). -/
def tokenValid (k : Token) : Bool :=
  k.reserved == 0 && decide (k.id.toNat ≤ 11) && k.ctx != 3 && !(k.id == 11 && k.skip == 1) &&
    !((k.id == 0 || k.id == 11) && k.sign == 1) && decide (k.extra.toNat < 2 ^ tokenBits k.id.toNat)

/-- `CPROB[type][band][ctx][n]` of a record (44_tokenizer.md R197). -/
def tokenProb (m : Memory) (k : Token) (n : Nat) : Nat := m.cprob k.type.toNat k.band.toNat k.ctx.toNat n

/-- The path of a record's id in `COEFTREE`, from node 2 when the EOB branch is skipped (44_tokenizer.md R195, R197). -/
def tokenPath (k : Token) : Except FaultCode Path :=
  findPath coefTree 22 0 k.id.toNat (if k.skip = 1 then 2 else 0)

/-- The extra bits of a record, most significant first, with their probabilities (44_tokenizer.md R196, R197). -/
def extraBools (k : Token) : List (Bool × Nat) :=
  (List.range (tokenBits k.id.toNat)).map fun j =>
    (k.extra.getLsbD (tokenBits k.id.toNat - 1 - j), (extraProbs k.id.toNat).getD j 0)

/-- The sign of a record, coded for ids 1 to 10 at probability 128 (44_tokenizer.md R197). -/
def signBools (k : Token) : List (Bool × Nat) :=
  if 1 ≤ k.id.toNat ∧ k.id.toNat ≤ 10 then [(k.sign == 1, 128)] else []

/-- One token of PUTTOK: validate the record, validate the probabilities, emit, advance `TKRP` (44_tokenizer.md R197). -/
def putToken (s : State) : Run :=
  let k := unpackToken (s.mem.tokm s.tkrp.toNat)
  if tokenValid k = false then .raised .token s
  else
    match tokenPath k with
    | .error code => .raised code s
    | .ok path =>
      if path.any fun node => tokenProb s.mem k (node.1 / 2) == 0 then .raised .prob0 s
      else
        match encodeBools (pathBools (tokenProb s.mem k) path ++ extraBools k ++ signBools k) s with
        | .raised code s' => .raised code s'
        | .done s' => .done { s' with tkrp := BitVec.ofNat 32 (s'.tkrp.toNat + 1) }

/-- The next `count` tokens; a fault leaves the tokens before it written (44_tokenizer.md R197). -/
def putTokens : Nat → State → Run
  | 0, s => .done s
  | n + 1, s =>
    match putToken s with
    | .raised code s' => .raised code s'
    | .done s' => putTokens n s'

/-- PUTTOK: write the next `count` token records through the coder (44_tokenizer.md R197). -/
def execPuttok (count : BitVec 16) (s : State) : Host.Outcome State Fault Refusal :=
  finish (.puttok count)
    (if ¬(s.tkrp.toNat + count.toNat ≤ s.tkwp.toNat ∧ s.tkwp.toNat ≤ s.cfg.ntok) then .raised .tokPtr s
     else if 0 < count.toNat ∧ s.active = false then .raised .notActive s
     else putTokens count.toNat s)

end Sys2Proof.Machine
end

