-- ==== Sys2Proof/Machine/Transform.lean ====
section
/-! DEFINITION. The transform commands FDCT, FWHT, GDC (42_transform.md). -/

namespace Sys2Proof.Machine

/-- A block whose lane `j` is `trunc16` of `y j`. -/
def blockOf (y : Nat → Int) : Block := Vector.ofFn fun j => laneOf (y j.val)

/-- Lane `j = 4r + k` after the row pass of the forward DCT, output `k` of the butterfly of row `r` (42_transform.md
R162, pass 1). -/
def fdctRow (k : FdctConsts) (x : Nat → Int) (j : Nat) : Int :=
  let r := 4 * (j / 4)
  let a1 := (x r + x (r + 3)) * k.pre
  let b1 := (x (r + 1) + x (r + 2)) * k.pre
  let c1 := (x (r + 1) - x (r + 2)) * k.pre
  let d1 := (x r - x (r + 3)) * k.pre
  trunc16 (match j % 4 with
    | 0 => a1 + b1
    | 1 => asr (c1 * fdctK1 + d1 * fdctK2 + k.ra) k.s1
    | 2 => a1 - b1
    | _ => asr (d1 * fdctK1 - c1 * fdctK2 + k.rb) k.s1)

/-- Lane `j = 4k + c` after the column pass of the forward DCT, output `k` of the butterfly of column `c`, before the
final `trunc16` (42_transform.md R162, pass 2). -/
def fdctColumn (k : FdctConsts) (t : Nat → Int) (j : Nat) : Int :=
  let c := j % 4
  let a1 := t c + t (12 + c)
  let b1 := t (4 + c) + t (8 + c)
  let c1 := t (4 + c) - t (8 + c)
  let d1 := t c - t (12 + c)
  match j / 4 with
  | 0 => asr (a1 + b1 + k.rc) k.s2
  | 1 => asr (c1 * fdctK1 + d1 * fdctK2 + k.rd) k.s3 + bit01 (d1 != 0)
  | 2 => asr (a1 - b1 + k.rc) k.s2
  | _ => asr (d1 * fdctK1 - c1 * fdctK2 + k.re) k.s3

/-- The forward 4x4 DCT of a block (42_transform.md R162). -/
def fdctBlock (k : FdctConsts) (x : Block) : Block := blockOf (fdctColumn k (fdctRow k (lane x)))

/-- Lane `j = 4r + k` after the row pass of the forward WHT (42_transform.md R165, pass 1). -/
def fwhtRow (x : Nat → Int) (j : Nat) : Int :=
  let r := 4 * (j / 4)
  let a1 := (x r + x (r + 2)) * 4
  let d1 := (x (r + 1) + x (r + 3)) * 4
  let c1 := (x (r + 1) - x (r + 3)) * 4
  let b1 := (x r - x (r + 2)) * 4
  trunc16 (match j % 4 with
    | 0 => a1 + d1 + bit01 (a1 != 0)
    | 1 => b1 + c1
    | 2 => b1 - c1
    | _ => a1 - d1)

/-- The last step of a column of the WHT: add one to a negative value, then round (42_transform.md R165, pass 2). -/
def fwhtRound (v : Int) : Int := asr (v + bit01 (v < 0) + 3) 3

/-- Lane `j = 4k + c` after the column pass of the forward WHT (42_transform.md R165, pass 2). -/
def fwhtColumn (t : Nat → Int) (j : Nat) : Int :=
  let c := j % 4
  let a1 := t c + t (8 + c)
  let d1 := t (4 + c) + t (12 + c)
  let c1 := t (4 + c) - t (12 + c)
  let b1 := t c - t (8 + c)
  fwhtRound (match j / 4 with
    | 0 => a1 + d1
    | 1 => b1 + c1
    | 2 => b1 - c1
    | _ => a1 - d1)

/-- The forward 4x4 Walsh-Hadamard transform of a block (42_transform.md R165). -/
def fwhtBlock (x : Block) : Block := blockOf (fwhtColumn (fwhtRow (lane x)))

/-- The block of lane 0 of 16 consecutive block registers from `bs` (42_transform.md R166). -/
def gatherDc (s : State) (bs : BitVec 5) : Block :=
  Vector.ofFn fun k => (s.block (bs + BitVec.ofNat 5 k.val))[0]

/-- FDCT: `BR[bd] <-` the forward DCT of `BR[bs]` (42_transform.md R162). -/
def execFdct (bd bs : BitVec 5) (s : State) : Host.Outcome State Fault Refusal :=
  finish (.fdct bd bs) (.done (s.setBlock bd (fdctBlock s.cfg.fdctc (s.block bs))))

/-- FWHT: `BR[bd] <-` the forward WHT of `BR[bs]` (42_transform.md R165). -/
def execFwht (bd bs : BitVec 5) (s : State) : Host.Outcome State Fault Refusal :=
  finish (.fwht bd bs) (.done (s.setBlock bd (fwhtBlock (s.block bs))))

/-- GDC: gather lane 0 of 16 registers (42_transform.md R166). -/
def execGdc (bd bs : BitVec 5) (s : State) : Host.Outcome State Fault Refusal :=
  finish (.gdc bd bs) (if 31 < bs.toNat + 15 then .raised .regRange s else .done (s.setBlock bd (gatherDc s bs)))

end Sys2Proof.Machine
end

