-- ==== Sys2Proof/Machine/TreeCoder.lean ====
section
/-! DEFINITION. The Tree Coder commands TWRITE, TCOST, TCOSTS (41_tree_coder.md). -/

namespace Sys2Proof.Machine

/-- The path to leaf `v` of the tree at `tb`, found and with every probability checked, or the fault the search or the
check meets first (41_tree_coder.md R145, R150). -/
def checkedPath (m : Memory) (tb pb v : Nat) : Except FaultCode Path :=
  match findPath m.treem 256 tb v 0 with
  | .error code => .error code
  | .ok path =>
    match checkProbs m pb path with
    | some code => .error code
    | none => .ok path

/-- The leaves of the tree at `tb` with every probability of every path checked, or the first fault
(41_tree_coder.md R151). -/
def checkedLeaves (m : Memory) (tb pb : Nat) : Except FaultCode (List Leaf) :=
  match treeLeaves m tb with
  | none => .error .tree
  | some leaves =>
    match leaves.findSome? fun leaf => checkProbs m pb leaf.2 with
    | some code => .error code
    | none => .ok leaves

/-- Write the cost of each leaf value into `COSTM`, for its first occurrence only; `done` holds the values written so far
(41_tree_coder.md R151). -/
def writeCosts : List (Nat × Nat) → List Nat → State → State
  | [], _, s => s
  | (value, cost) :: rest, done, s =>
    if done.contains value then writeCosts rest done s
    else writeCosts rest (value :: done) (s.setCostm value cost)

/-- The cost of each leaf (41_tree_coder.md R148, R151). -/
def leafCosts (c : Config) (m : Memory) (pb : Nat) (leaves : List Leaf) : List (Nat × Nat) :=
  leaves.map fun (value, path) => (value, pathCost c m pb path)

/-- TWRITE: write the symbol `v` of the tree at `tb` (41_tree_coder.md R145). -/
def execTwrite (tb pb v : BitVec 8) (s : State) : Host.Outcome State Fault Refusal :=
  finish (.twrite tb pb v)
    (match checkedPath s.mem tb.toNat pb.toNat v.toNat with
     | .error code => .raised code s
     | .ok path => encodeBools (pathBools (fun k => s.mem.probm (pb.toNat + k)) path) s)

/-- TCOST: the cost of the symbol `v` into `COST` (41_tree_coder.md R150). -/
def execTcost (tb pb v : BitVec 8) (s : State) : Host.Outcome State Fault Refusal :=
  finish (.tcost tb pb v)
    (match checkedPath s.mem tb.toNat pb.toNat v.toNat with
     | .error code => .raised code s
     | .ok path => .done { s with cost := BitVec.ofNat 32 (pathCost s.cfg s.mem pb.toNat path) })

/-- TCOSTS: the cost of every leaf into `COSTM` (41_tree_coder.md R151). -/
def execTcosts (tb pb : BitVec 8) (s : State) : Host.Outcome State Fault Refusal :=
  finish (.tcosts tb pb)
    (match checkedLeaves s.mem tb.toNat pb.toNat with
     | .error code => .raised code s
     | .ok leaves => .done (writeCosts (leafCosts s.cfg s.mem pb.toNat leaves) [] s))

end Sys2Proof.Machine
end

