-- ==== Sys2Proof/Machine/Dispatch.lean ====
section
/-! DEFINITION. The dispatch of the commands, one arm per constructor (30_encoding.md R95). -/

namespace Sys2Proof.Machine

def exec (i : Instr) (s : State) : Host.Outcome State Fault Refusal :=
  match i with
  | .nop => Sys2Proof.Machine.execNop s
  | .ldi bd lane imm16 => Sys2Proof.Machine.execLdi bd lane imm16 s
  | .bfill bd imm16 => Sys2Proof.Machine.execBfill bd imm16 s
  | .seob bd n => Sys2Proof.Machine.execSeob bd n s
  | .gdc bd bs => Sys2Proof.Machine.execGdc bd bs s
  | .fdct bd bs => Sys2Proof.Machine.execFdct bd bs s
  | .fwht bd bs => Sys2Proof.Machine.execFwht bd bs s
  | .quant bd bs t => Sys2Proof.Machine.execQuant bd bs t s
  | .dequant bd bs t => Sys2Proof.Machine.execDequant bd bs t s
  | .tkn bs t c0 => Sys2Proof.Machine.execTkn bs t c0 s
  | .puttok count => Sys2Proof.Machine.execPuttok count s
  | .bstart => Sys2Proof.Machine.execBstart s
  | .bbool bit prob => Sys2Proof.Machine.execBbool bit prob s
  | .blit n value => Sys2Proof.Machine.execBlit n value s
  | .bstop => Sys2Proof.Machine.execBstop s
  | .twrite tb pb v => Sys2Proof.Machine.execTwrite tb pb v s
  | .tcost tb pb v => Sys2Proof.Machine.execTcost tb pb v s
  | .tcosts tb pb => Sys2Proof.Machine.execTcosts tb pb s

end Sys2Proof.Machine
end

