-- ==== Sys2Proof/Machine/HostPort.lean ====
section
/-! DEFINITION. The host port: the address map, reads, and writes other than a command (20_memory.md R61 to R70). -/

namespace Sys2Proof.Machine

/-- The word at an aligned address holds at least one byte of a memory (20_memory.md R64, R68). -/
def storageWord (c : Config) (a : Nat) : Bool := storageByte c a

/-- What an address names: none when it is misaligned or in no window (20_memory.md R63, R64, R68). -/
def portTarget (c : Config) (addr : Word) : Option Target :=
  let a := addr.toNat
  if a % 4 ≠ 0 then none
  else if a < 0x4C then some (.csr a)
  else if 0x400 ≤ a ∧ a < 0x800 then
    some (.lanes (BitVec.ofNat 5 ((a - 0x400) / 32)) (BitVec.ofNat 3 ((a - 0x400) % 32 / 4)))
  else if 0x800 ≤ a ∧ a < 0x880 then some (.eob (BitVec.ofNat 5 ((a - 0x800) / 4)))
  else if storageWord c a then some .storage
  else if 0x100000 ≤ a ∧ a < 0x110000 then some (.qlut ((a - 0x100000) / 4))
  else none

/-- The control and status registers in the order of their offsets, as the host reads them: unimplemented bits and the
write-only `CMD` and `FCLR` read 0 (10_state.md R24 to R30). -/
def State.csrWords (s : State) : List Word :=
  [ 0, s.fstat.setWidth 32, s.fcause.setWidth 32, s.finfo, 0, s.qidx.setWidth 32, s.zbinx.setWidth 32, s.obase,
    s.olimit, s.bcActive.setWidth 32, s.bcRange.setWidth 32, s.bcLow, s.bcCount.setWidth 32, s.bcPos, s.blen,
    s.tkwp, s.tkrp, s.cost, s.tkcnt.setWidth 32 ]

/-- A host write of `d` to a register: the implemented bits are stored, a write to a read-only register is ignored, `FCLR`
clears fault bits, and `QIDX` is checked (10_state.md R24 to R30, 20_memory.md R66). `CMD` is not written here. -/
def State.writeCsr (s : State) (offset : Nat) (d : Word) : State :=
  match offset / 4 with
  | 4 => s.clearFaults d
  | 5 => if d.extractLsb' 7 25 = 0 then { s with qidx := d.extractLsb' 0 7 } else s.raise .qidx 0x14
  | 6 => { s with zbinx := d.extractLsb' 0 16 }
  | 7 => { s with obase := d }
  | 8 => { s with olimit := d }
  | 9 => { s with bcActive := d.extractLsb' 0 1 }
  | 10 => { s with bcRange := d.extractLsb' 0 8 }
  | 11 => { s with bcLow := d }
  | 12 => { s with bcCount := d.extractLsb' 0 5 }
  | 13 => { s with bcPos := d }
  | 15 => { s with tkwp := d }
  | 16 => { s with tkrp := d }
  | _ => s

/-- One byte of a memory as the port reads it: 0 past the last implemented byte (20_memory.md R67). -/
def State.portByte (s : State) (a : Nat) : Byte := if storageByte s.cfg a then s.mem.read a else 0

/-- Store one byte of a word at the port: a byte past the last implemented one is ignored (20_memory.md R67). -/
def State.setPortByte (s : State) (a : Nat) (v : Byte) : State :=
  if storageByte s.cfg a then { s with mem := s.mem.write a v } else s

/-- A word of the memories at the port (20_memory.md R67). -/
def State.portWord (s : State) (a : Nat) : Word :=
  s.portByte (a + 3) ++ s.portByte (a + 2) ++ s.portByte (a + 1) ++ s.portByte a

/-- Store a word of the memories at the port (20_memory.md R67). -/
def State.setPortWord (s : State) (a : Nat) (d : Word) : State :=
  (((s.setPortByte a (d.extractLsb' 0 8)).setPortByte (a + 1) (d.extractLsb' 8 8)).setPortByte (a + 2)
    (d.extractLsb' 16 8)).setPortByte (a + 3) (d.extractLsb' 24 8)

/-- The lane index `2*pair + odd` of a lane pair (20_memory.md R67). -/
def pairLane (pair : BitVec 3) (odd : BitVec 1) : BitVec 4 := pair ++ odd

/-- The two lanes of a pair as one word, the even lane low (20_memory.md R67). -/
def State.lanePair (s : State) (n : BitVec 5) (pair : BitVec 3) : Word :=
  (s.block n)[(pairLane pair 1).toNat]'(pairLane pair 1).isLt ++ (s.block n)[(pairLane pair 0).toNat]'(pairLane pair 0).isLt

/-- A word of the look-up table's window: `quant, round` at the lower address of an entry, `dq, zbin` at the next
(20_memory.md R67, R68). -/
def qlutWord (c : Config) (word : Nat) : Word :=
  let e := qlutEntry c (word / 2 / 16 / 128) (word / 2 / 16 % 128) (word / 2 % 16)
  if word % 2 = 0 then e.quant ++ e.round else e.dq ++ e.zbin

/-- What a mapped address reads as; a read has no effect (20_memory.md R66, R67). -/
def State.readTarget (s : State) (addr : Word) : Target → Word
  | .csr offset => s.csrWords.getD (offset / 4) 0
  | .lanes n pair => s.lanePair n pair
  | .eob n => (s.eobTag n).setWidth 32
  | .storage => s.portWord addr.toNat
  | .qlut word => qlutWord s.cfg word

/-- A write of `d` to a mapped address other than `CMD` (20_memory.md R66, R67). -/
def State.writeTarget (s : State) (addr d : Word) : Target → State
  | .csr offset => s.writeCsr offset d
  | .lanes n pair =>
    (s.setLane n (pairLane pair 0) (d.extractLsb' 0 16)).setLane n (pairLane pair 1) (d.extractLsb' 16 16)
  | .eob n => s.setEobTag n (d.extractLsb' 0 5)
  | .storage => s.setPortWord addr.toNat d
  | .qlut _ => s

/-- `HRD(addr)`: the state after it and the word it returns; a bad address raises `E_HOSTADDR` and returns 0
(20_memory.md R63, R64, R66, 60_exceptions.md R214). -/
def State.hostRead (s : State) (addr : Word) : State × Word :=
  match portTarget s.cfg addr with
  | none => (s.raise .hostAddr addr, 0)
  | some target => (s, s.readTarget addr target)

/-- `HWR(addr, d)` for every address but `CMD`'s; a bad address raises `E_HOSTADDR` (20_memory.md R63 to R66). -/
def State.hostWrite (s : State) (addr d : Word) : State :=
  match portTarget s.cfg addr with
  | none => s.raise .hostAddr addr
  | some target => s.writeTarget addr d target

end Sys2Proof.Machine
end

