-- ==== Sys2Proof/Machine/Serve.lean ====
section
/-! DEFINITION. Serving one host transaction: reads, writes, commands, reset (20_memory.md R61, R65, 30_encoding.md R91). -/

namespace Sys2Proof.Machine

/-- A write to `CMD` when the engine is not halted: a word that is no command is `E_ILLCMD`, a command runs its meaning
(30_encoding.md R91). -/
def runCommand (s : State) (w : Word) : Host.Outcome State Fault Refusal :=
  match decode w with
  | .error _ => .next (s.raise .illCmd w)
  | .ok i => exec i s

/-- The effect of one transaction on a state from which it has been taken off `bus`, with `rdata` cleared
(20_memory.md R61, R65). -/
def serve (s : State) : Transaction → Host.Outcome State Fault Refusal
  | .hrd addr => .next { (s.hostRead addr).1 with rdata := some (s.hostRead addr).2 }
  | .hwr addr data =>
    if addr = 0 then if s.halted then .next s else runCommand s data
    else .next (s.hostWrite addr data)
  | .rst => .next s.assertReset

end Sys2Proof.Machine
end

