-- ==== Sys2Proof/Machine/Step.lean ====
section
/-! DEFINITION. One step: one host transaction, served to completion (00_scope.md R11, 20_memory.md R61). -/

namespace Sys2Proof.Machine

/-- One step of the machine: serve the host's next transaction; without one the engine waits, changing nothing
(00_scope.md R11, 70_reset_and_hazards.md R250, log 4). -/
def step (s : State) : Host.Outcome State Fault Refusal :=
  match s.bus with
  | [] => .next s
  | t :: rest => serve { s with bus := rest, rdata := none } t

/-- The host's next transaction is the write of an opcode-table word to `CMD`, which is where a step takes its next
instruction from (30_encoding.md R90, log 4). -/
def State.withFetchWord (s : State) (nbits w : Nat) : State :=
  { s with bus := .hwr 0 (BitVec.ofNat 32 (w % 2 ^ nbits)) :: s.bus }

end Sys2Proof.Machine
end

