-- ==== Sys2Proof/Safety.lean ====
section
/-! DEFINITION. What counts as a sound state and a sound coding step, in the terms the claims use. -/

namespace Sys2Proof.Machine

/-- Every fault code of 60_exceptions.md R211. -/
def allFaultCodes : List FaultCode :=
  [.illCmd, .qidx, .regRange, .operand, .window, .notActive, .prob0, .hostAddr, .tokPtr, .obufFull, .tokFull,
    .coderRange, .eobTag, .tree, .carry, .mag, .token]

/-- The memories hold only bytes of their own windows, in the canonical form (20_memory.md R64, R82). -/
def State.memoryOk (s : State) : Bool := s.mem.wf && s.mem.cells.all fun cell => storageByte s.cfg cell.1

/-- The fault registers agree: no fault has no cause, a fault has one of the codes of 60_exceptions.md R211. -/
def State.faultsOk (s : State) : Bool :=
  if s.fstat = 0 then s.fcause == 0 && s.finfo == 0 else allFaultCodes.any fun code => code.number == s.fcause

/-- The word written to `CMD` of an engine that is not halted takes `E_ILLCMD` and has no other effect (30_encoding.md R91,
60_exceptions.md R214). -/
def takesIllCmd (w : Word) : Prop :=
  ∀ (s : State) (rest : List Transaction), s.fstat = 0 →
    step { s with bus := .hwr 0 w :: rest } =
      .next { s with bus := rest, rdata := none, fstat := 1, fcause := 0x10, finfo := w }

/-- The invariant of the machine: parameters within their bounds, memories in order, fault registers in agreement,
`TKCNT` at most 16 (00_scope.md R5, 10_state.md R29). -/
def State.inv (s : State) : Bool := s.cfg.wf && s.memoryOk && s.faultsOk && decide (s.tkcnt.toNat ≤ 16)

/-- The `n` bytes of `OBUF` from `base` on as one number, the first byte the most significant. -/
def obufNumber (m : Memory) (base : Nat) : Nat → Nat
  | 0 => 0
  | n + 1 => obufNumber m base n * 256 + (m.obuf (base + n)).toNat

/-- The stream coded so far as one exact number: the bytes written, then the bits of `low` still inside the coder, of
which there are `32 - count` below the carry position (40_bool_coder.md R123, R124). -/
def State.codedValue (s : State) : Nat :=
  obufNumber s.mem s.obase.toNat (s.bcPos.toNat - s.obase.toNat) * 2 ^ (32 - s.bcCount.toNat) + s.bcLow.toNat

/-- The coder invariant with the coded value below 1, which is why a carry always finds a byte that is not 0xFF
(40_bool_coder.md R124 (c)): the coded interval ends at or below the next power, and at most one carry is pending. -/
def State.carryOk (s : State) : Bool :=
  s.bacOk &&
    decide (s.codedValue + s.bcRange.toNat ≤
      256 ^ (s.bcPos.toNat - s.obase.toNat) * 2 ^ (32 - s.bcCount.toNat)) &&
    decide (s.bcLow.toNat + s.bcRange.toNat ≤ 2 ^ (33 - s.bcCount.toNat))

/-- An exact arithmetic coder: the low end of the interval as an unbounded number, its range, the doublings made so far, the
doublings due before the next byte is complete, and the bytes written as one number. It has no carries. -/
structure Exact where
  value : Nat
  range : Nat
  shifts : Nat
  count : Nat
  written : Nat
  deriving DecidableEq, Repr

/-- The doublings that bring a range of 1..255 into 128..255 (40_bool_coder.md R123). -/
def normShift (range : Nat) : Nat := 7 - Nat.log2 range

/-- One bool in the exact coder: take the sub-range of the bit, then double until the range is at least 128. When the
doublings complete a byte, the bytes written are from then on the exact value of that moment above its 24 lowest bits; between
two such moments they do not change (40_bool_coder.md R123). -/
def exactStep (e : Exact) (b : Bool × Nat) : Exact :=
  let split := splitOf e.range b.2
  let range := if b.1 then e.range - split else split
  let value := if b.1 then e.value + split else e.value
  let doublings := normShift range
  { value := value * 2 ^ doublings, range := range * 2 ^ doublings
    shifts := e.shifts + doublings
    count := if doublings < e.count then e.count - doublings else 8 - (doublings - e.count)
    written := if doublings < e.count then e.written else value * 2 ^ e.count / 2 ^ 24 }

/-- Bools in turn in the exact coder, from the interval and the bytes a state holds. -/
def exactRun (bools : List (Bool × Nat)) (s : State) : Exact :=
  bools.foldl exactStep
    { value := s.codedValue, range := s.bcRange.toNat, shifts := 0, count := s.bcCount.toNat
      written := obufNumber s.mem s.obase.toNat (s.bcPos.toNat - s.obase.toNat) }

/-- Bytes complete after `shifts` shifts when the first is due after `count` (10_state.md R27, 40_bool_coder.md R128). -/
def bytesOut (count shifts : Nat) : Nat := if shifts < count then 0 else 1 + (shifts - count) / 8

/-- `count` after `shifts` shifts (10_state.md R27). -/
def countAfter (count shifts : Nat) : Nat := if shifts < count then count - shifts else 8 - (shifts - count) % 8

/-- The window has room for every byte that coding the bools completes. -/
def hasRoom (bools : List (Bool × Nat)) (s : State) : Bool :=
  decide (s.bcPos.toNat + bytesOut s.bcCount.toNat (exactRun bools s).shifts ≤ s.olimit.toNat)

/-- What coding the bools from `s` leaves in the coder of `t`: the exact interval, the bytes of the stream and so the split of
the value between them and `low`, the byte position and the bit count that follow from its doublings, and the invariant; bytes
outside `OBUF[OBASE..pos-1]` are as before. -/
def codedAs (bools : List (Bool × Nat)) (s t : State) : Prop :=
  t.codedValue = (exactRun bools s).value ∧ t.bcRange.toNat = (exactRun bools s).range ∧
    t.bcPos.toNat = s.bcPos.toNat + bytesOut s.bcCount.toNat (exactRun bools s).shifts ∧
    t.bcCount.toNat = countAfter s.bcCount.toNat (exactRun bools s).shifts ∧ t.carryOk = true ∧
    obufNumber t.mem s.obase.toNat (t.bcPos.toNat - s.obase.toNat) = (exactRun bools s).written ∧
    (exactRun bools s).written * 2 ^ (32 - t.bcCount.toNat) + t.bcLow.toNat = (exactRun bools s).value ∧
    ∀ a, (a < obufAddr s.obase.toNat ∨ obufAddr t.bcPos.toNat ≤ a) → t.mem.read a = s.mem.read a

/-- A carry is due and finds no byte of `OBUF[base..pos-1]` below 0xFF (40_bool_coder.md R123). -/
def carryStuck (base : Nat) (c : Coder) : Prop :=
  2 ^ 31 ≤ c.low ∧ ∀ y, base ≤ y → y < c.pos → c.mem.obuf y = 0xFF

/-- `m` holds the bytes of `c` after the carry loop: without a carry due, as before; else the last byte that is not 0xFF is one
more, and the bytes 0xFF after it are 0 (40_bool_coder.md R123). -/
def carryTaken (base : Nat) (c : Coder) (m : Memory) : Prop :=
  if c.low < 2 ^ 31 then ∀ a, m.read a = c.mem.read a
  else ∃ x, base ≤ x ∧ x < c.pos ∧ c.mem.obuf x ≠ 0xFF ∧ (∀ y, x < y → y < c.pos → c.mem.obuf y = 0xFF) ∧
    ∀ a, m.read a =
      if a = obufAddr x then c.mem.obuf x + 1
      else if obufAddr x < a ∧ a < obufAddr c.pos then 0 else c.mem.read a

/-- One turn of the renormalisation loop that takes no fault: the carry, then the doubling, then the byte that is due when
`count` reaches 0 (40_bool_coder.md R123). -/
def turnDone (base limit : Nat) (c c' : Coder) : Prop :=
  ∃ m, carryTaken base c m ∧ c'.range = 2 * c.range ∧
    if c.count = 1 then
      c.pos ≠ limit ∧ c'.low = 2 * c.low % 2 ^ 24 ∧ c'.count = 8 ∧ c'.pos = c.pos + 1 ∧
        ∀ a, c'.mem.read a = if a = obufAddr c.pos then BitVec.ofNat 8 (2 * c.low / 2 ^ 24) else m.read a
    else
      c'.low = 2 * c.low % 2 ^ 32 ∧ c'.count = c.count - 1 ∧ c'.pos = c.pos ∧ ∀ a, c'.mem.read a = m.read a

/-- One turn of the renormalisation loop that takes a fault: a carry with no byte to take it, before a byte with no room
(40_bool_coder.md R123, 60_exceptions.md R217). -/
def turnFaults (base limit : Nat) (c : Coder) (code : FaultCode) : Prop :=
  (code = .carry ∧ carryStuck base c) ∨ (code = .obufFull ∧ ¬carryStuck base c ∧ c.count = 1 ∧ c.pos = limit)

/-- The renormalisation loop turn by turn: where it ends from `c`, in a window from `base` to `limit` (40_bool_coder.md
R123). -/
inductive Turns (base limit : Nat) : Coder → Except FaultCode Coder → Prop where
  | enough {c : Coder} (h : 128 ≤ c.range) : Turns base limit c (.ok c)
  | fault {c : Coder} {code : FaultCode} (h : c.range < 128) (hf : turnFaults base limit c code) :
    Turns base limit c (.error code)
  | again {c c' : Coder} {r : Except FaultCode Coder} (h : c.range < 128) (hd : turnDone base limit c c')
    (hr : Turns base limit c' r) : Turns base limit c r

/-- The command `i` was stopped by a full window while it coded `bools` after `before`: `before` and the bools ahead of the one
that had no room are coded exactly and stay, that one has no effect, the coder is inactive, `TKRP` is `tkrp`, the fault is
recorded, and all else is as before (60_exceptions.md R214, R215). -/
def stoppedFull (i : Instr) (before bools : List (Bool × Nat)) (tkrp : Word) (s t : State) : Prop :=
  ∃ coded b rest, bools = coded ++ b :: rest ∧ hasRoom (before ++ coded) s = true ∧
    hasRoom (before ++ coded ++ [b]) s = false ∧ codedAs (before ++ coded) s t ∧
    t = { s with
      bcRange := t.bcRange, bcLow := t.bcLow, bcCount := t.bcCount, bcPos := t.bcPos, mem := t.mem,
      tkrp := tkrp, bcActive := 0, fstat := 2, fcause := 0x20, finfo := encode i }

/-- The path leads from node `i` of the tree at `tb` to a leaf of value `v`: at each node the entry of the bit is either
that leaf, ending the path, or a positive even link to the next node (41_tree_coder.md R140). -/
def isTreePath (entry : Nat → Int) (tb v : Nat) : Nat → Path → Prop
  | _, [] => False
  | i, [(j, bit)] => j = i ∧ entry (tb + i + bit.toNat) = -(v : Int)
  | i, (j, bit) :: next :: rest =>
    j = i ∧ 0 < entry (tb + i + bit.toNat) ∧ entry (tb + i + bit.toNat) % 2 = 0 ∧
      isTreePath entry tb v (entry (tb + i + bit.toNat)).toNat (next :: rest)

/-- The node of a tree that the bits lead to from node `i`, each taking one child of a node; none when one of the children
on the way is a leaf (41_tree_coder.md R140). -/
def follow (entry : Nat → Int) (tb : Nat) : Nat → List Bool → Option Nat
  | i, [] => some i
  | i, bit :: rest =>
    if 0 < entry (tb + i + bit.toNat) then follow entry tb (entry (tb + i + bit.toNat)).toNat rest else none

/-- The bits lead to a leaf of value `v` (41_tree_coder.md R140). -/
def leafAt (entry : Nat → Int) (tb start v : Nat) (bits : List Bool) : Prop :=
  ∃ nodeBits last i, bits = nodeBits ++ [last] ∧ follow entry tb start nodeBits = some i ∧
    entry (tb + i + last.toNat) = -(v : Int)

/-- The node the bits lead to is a malformation: outside the table, named by an odd link, or already met by bits that
come first. Preorder, bit 0 before bit 1, is the lexicographic order of the bits (41_tree_coder.md R141, R142). -/
def malformedAt (entry : Nat → Int) (size tb start : Nat) (bits : List Bool) : Prop :=
  ∃ i, follow entry tb start bits = some i ∧
    (size - 1 < tb + i + 1 ∨ (bits ≠ [] ∧ i % 2 = 1) ∨ ∃ earlier, earlier < bits ∧ follow entry tb start earlier = some i)

/-- The token record of position `c` of a block as a number, field by field (44_tokenizer.md R188, R190): `first` is the
first position, and the context and the skip bit come from the coefficient before. -/
def recordAt (x : Block) (t c0 : BitVec 2) (first n c : Nat) : Nat :=
  let v := lane x (zigzag c)
  let before := (lane x (zigzag (c - 1))).natAbs
  let ctx := if c = first then c0.toNat else if before = 0 then 0 else if before = 1 then 1 else 2
  let skip := if c = first then 0 else if before = 0 then 1 else 0
  let body := if c < n then
      (magToken v.natAbs).1 + 512 * skip + 1024 * (if v < 0 then 1 else 0) + 2048 * (magToken v.natAbs).2
    else 11
  body + 16 * bandOf c + 128 * ctx + 2 ^ 22 * t.toNat

/-- The bools of one token: its path, its extra bits, its sign (44_tokenizer.md R197). -/
def tokenBools (m : Memory) (k : Token) : List (Bool × Nat) :=
  match tokenPath k with
  | .ok path => pathBools (tokenProb m k) path ++ extraBools k ++ signBools k
  | .error _ => []

/-- The record is one PUTTOK accepts and every probability on its path is not 0 (44_tokenizer.md R197). -/
def tokenReady (m : Memory) (k : Token) : Bool :=
  tokenValid k && match tokenPath k with
    | .ok path => path.all fun node => tokenProb m k (node.1 / 2) != 0
    | .error _ => false

end Sys2Proof.Machine
end

