-- ==== Sys2Proof/Certificates/Slice0/Obligations.lean ====
section
/-! DEFINITION. The statements about the engine, for the provers. A statement about a step writes the host's next transaction
into `bus`, so that it holds for every state; a record update `t = { s with … }` is the frame: every other field of the state
is as before. -/

open Sys2Proof Sys2Proof.Machine

/-! ## Encoding and decoding -/

/-- Every command, with every value of every operand field, decodes from its own word (30_encoding.md, formats and opcode
map). -/
def Obligations.EveryCommandDecodesFromItsWord : Prop := ∀ i : Instr, decode (encode i) = .ok i

/-- A word that decodes is the word of the command it decodes to: no accepted bit is dropped. It is why `FINFO`, which
takes the command word, can be written from the command (log 8). -/
def Obligations.AcceptedWordIsTheCommandsWord : Prop :=
  ∀ (w : Word) (i : Instr), decode w = .ok i → encode i = w

/-- The worked encodings of R102, both ways. -/
def Obligations.WorkedEncodings : Prop :=
  encode (.ldi 3 5 0xFFFE) = 0x0865FFFE ∧ encode (.quant 2 1 3) = 0x28410003 ∧ encode (.bbool 1 200) = 0x640100C8 ∧
    encode (.blit 8 0xA5) = 0x690000A5 ∧ encode (.twrite 0 0 2) = 0x80000002 ∧ encode .bstart = 0x60000000 ∧
    encode .bstop = 0x6C000000 ∧ encode .nop = 0x04000000 ∧
    decode 0x0865FFFE = .ok (.ldi 3 5 0xFFFE) ∧ decode 0x28410003 = .ok (.quant 2 1 3) ∧
    decode 0x640100C8 = .ok (.bbool 1 200) ∧ decode 0x690000A5 = .ok (.blit 8 0xA5) ∧
    decode 0x80000002 = .ok (.twrite 0 0 2) ∧ decode 0x60000000 = .ok .bstart ∧ decode 0x6C000000 = .ok .bstop ∧
    decode 0x04000000 = .ok .nop

/-- The whole opcode map, written out: of the 18 assigned opcodes each has the bits its format reserves and the places of its
fields. A word with such an opcode and its reserved bits 0 decodes to that command with those fields; a word with a reserved bit
set, or with one of the 46 unassigned opcodes, raises `E_ILLCMD` and has no other effect; the all-zero and the all-ones word are
illegal (30_encoding.md, formats, opcode map and reserved space). -/
def Obligations.IllegalWordRaisesIllCmd : Prop :=
  (∀ w : Word,
    let op := w.extractLsb' 26 6
    let at21 := w.extractLsb' 21 5
    let at16 := w.extractLsb' 16 5
    let low16 := w.extractLsb' 0 16
    let rows : List (BitVec 6 × Word × Instr) :=
      [ (0x01, 0x03FFFFFF, .nop),
        (0x02, 0x00100000, .ldi at21 (w.extractLsb' 16 4) low16),
        (0x03, 0x001F0000, .bfill at21 low16),
        (0x04, 0x001FFFE0, .seob at21 (w.extractLsb' 0 5)),
        (0x05, 0x0000FFFF, .gdc at21 at16),
        (0x08, 0x0000FFFF, .fdct at21 at16),
        (0x09, 0x0000FFFF, .fwht at21 at16),
        (0x0A, 0x0000FFFC, .quant at21 at16 (w.extractLsb' 0 2)),
        (0x0B, 0x0000FFFC, .dequant at21 at16 (w.extractLsb' 0 2)),
        (0x10, 0x03E0FFF0, .tkn at16 (w.extractLsb' 0 2) (w.extractLsb' 2 2)),
        (0x11, 0x03FF0000, .puttok low16),
        (0x18, 0x03FFFFFF, .bstart),
        (0x19, 0x03FEFF00, .bbool (w.extractLsb' 16 1) (w.extractLsb' 0 8)),
        (0x1A, 0x001F0000, .blit at21 low16),
        (0x1B, 0x03FFFFFF, .bstop),
        (0x20, 0x03000000, .twrite (w.extractLsb' 16 8) (w.extractLsb' 8 8) (w.extractLsb' 0 8)),
        (0x21, 0x03000000, .tcost (w.extractLsb' 16 8) (w.extractLsb' 8 8) (w.extractLsb' 0 8)),
        (0x22, 0x030000FF, .tcosts (w.extractLsb' 16 8) (w.extractLsb' 8 8)) ]
    (∀ row ∈ rows, row.1 = op → w &&& row.2.1 = 0 → decode w = .ok row.2.2) ∧
      (∀ row ∈ rows, row.1 = op → w &&& row.2.1 ≠ 0 → decode w = .error .reservedBit ∧ takesIllCmd w) ∧
      ((∀ row ∈ rows, row.1 ≠ op) → decode w = .error .unassignedOpcode ∧ takesIllCmd w)) ∧
  (∀ w : Word,
    ((∀ row ∈ opTable, row.op ≠ opField w) ∨ ∃ row ∈ opTable, row.op = opField w ∧ w &&& row.reserved ≠ 0) →
    takesIllCmd w) ∧
  ((List.range 64).filter fun op => opTable.all fun row => row.op.toNat != op).length = 46 ∧
  decode 0 = .error .unassignedOpcode ∧ decode 0xFFFFFFFF = .error .unassignedOpcode

/-! ## Steps and faults -/

/-- A word written to `CMD` of an engine that is not halted runs the command it decodes to, from the state in which the
transaction has been taken off the host's list. -/
def Obligations.StepRunsTheDecodedCommand : Prop :=
  ∀ (s : State) (w : Word) (i : Instr) (rest : List Transaction), s.fstat = 0 → decode w = .ok i →
    step { s with bus := .hwr 0 w :: rest } = exec i { s with bus := rest, rdata := none }

/-- R216: halted is `FSTAT != 0`; a halted engine drops every write to `CMD` with no state change, and serves every other
transaction as an engine that is not halted does. -/
def Obligations.HaltedEngineDropsCommands : Prop :=
  ∀ (s : State) (rest : List Transaction), (s.halted = true ↔ s.fstat ≠ 0) ∧
    (s.fstat ≠ 0 →
      (∀ w, step { s with bus := .hwr 0 w :: rest } = .next { s with bus := rest, rdata := none }) ∧
      (∀ addr target, portTarget s.cfg addr = some target →
        step { s with bus := .hrd addr :: rest } =
          .next { s with bus := rest, rdata := some (s.readTarget addr target) }) ∧
      (∀ addr d target, addr ≠ 0 → portTarget s.cfg addr = some target →
        step { s with bus := .hwr addr d :: rest } =
          .next (State.writeTarget { s with bus := rest, rdata := none } addr d target)) ∧
      ∀ addr d, portTarget s.cfg addr = none →
        step { s with bus := .hrd addr :: rest } =
          .next { s.raise .hostAddr addr with bus := rest, rdata := some 0 } ∧
        step { s with bus := .hwr addr d :: rest } =
          .next { s.raise .hostAddr addr with bus := rest, rdata := none })

/-- R214: the first fault records its code and its word or address, a later one only sets its class bit, which is bit
`code[5:4] - 1`; nothing else changes and the engine is halted. A faulting host access records its address and a faulting
read returns 0; a command that leaves a fault records its own word, the code of one fault and that fault's class alone. The
number and the class bit of each of the 17 codes are the ones written here. -/
def Obligations.FaultEntryRecordsTheFirstCause : Prop :=
  (FaultCode.illCmd.number = 0x10 ∧ FaultCode.qidx.number = 0x11 ∧ FaultCode.regRange.number = 0x12 ∧
    FaultCode.operand.number = 0x13 ∧ FaultCode.window.number = 0x14 ∧ FaultCode.notActive.number = 0x15 ∧
    FaultCode.prob0.number = 0x16 ∧ FaultCode.hostAddr.number = 0x17 ∧ FaultCode.tokPtr.number = 0x18 ∧
    FaultCode.obufFull.number = 0x20 ∧ FaultCode.tokFull.number = 0x21 ∧ FaultCode.coderRange.number = 0x30 ∧
    FaultCode.eobTag.number = 0x31 ∧ FaultCode.tree.number = 0x32 ∧ FaultCode.carry.number = 0x33 ∧
    FaultCode.mag.number = 0x34 ∧ FaultCode.token.number = 0x35) ∧
  (∀ code : FaultCode, code.classBit =
    if code = .obufFull ∨ code = .tokFull then 2
    else if code = .coderRange ∨ code = .eobTag ∨ code = .tree ∨ code = .carry ∨ code = .mag ∨ code = .token then 4
    else 1) ∧
  (∀ (s : State) (code : FaultCode) (info : Word),
    (s.fstat = 0 →
      s.raise code info = { s with fstat := code.classBit, fcause := code.number, finfo := info }) ∧
    (s.fstat ≠ 0 → s.raise code info = { s with fstat := s.fstat ||| code.classBit }) ∧
    (∀ k < 3, code.classBit.getLsbD k = decide ((code.number.extractLsb' 4 2).toNat = k + 1)) ∧
    (s.raise code info).halted = true ∧ (s.raise code info).faultOutput = true) ∧
  (∀ (s : State) (addr d : Word) (rest : List Transaction), portTarget s.cfg addr = none →
    step { s with bus := .hrd addr :: rest } =
      .next { s.raise .hostAddr addr with bus := rest, rdata := some 0 } ∧
    step { s with bus := .hwr addr d :: rest } =
      .next { s.raise .hostAddr addr with bus := rest, rdata := none }) ∧
  ∀ (s t : State) (w : Word) (rest : List Transaction), s.fstat = 0 →
    step { s with bus := .hwr 0 w :: rest } = .next t → t.fstat ≠ 0 →
    t.finfo = w ∧ ∃ code : FaultCode, t.fcause = code.number ∧ t.fstat = code.classBit

/-- R218: a write to `FCLR` clears CFG and BUF where the written bit is 1, never INV, and clears the cause registers exactly
when `FSTAT` becomes 0; on a state whose fault registers agree it has no effect when `FSTAT` is 0. -/
def Obligations.FaultClearWriteKeepsInvBit : Prop :=
  ∀ (s : State) (d : Word) (rest : List Transaction), ∃ t, step { s with bus := .hwr 0x10 d :: rest } = .next t ∧
      t.fstat.getLsbD 0 = (s.fstat.getLsbD 0 && !d.getLsbD 0) ∧
      t.fstat.getLsbD 1 = (s.fstat.getLsbD 1 && !d.getLsbD 1) ∧ t.fstat.getLsbD 2 = s.fstat.getLsbD 2 ∧
      (t.fstat = 0 → t.fcause = 0 ∧ t.finfo = 0 ∧ t.halted = false) ∧ (t.fstat ≠ 0 → t.fcause = s.fcause ∧ t.finfo = s.finfo) ∧
      (s.faultsOk = true → s.fstat = 0 → t = { s with bus := rest, rdata := none }) ∧
      t = { s with bus := rest, rdata := none, fstat := t.fstat, fcause := t.fcause, finfo := t.finfo }

/-- Fault bits are sticky over the whole machine: CFG and BUF are cleared only by a write to `FCLR` or `rst`, INV only by
`rst`. -/
def Obligations.FaultBitsClearOnlyByFclrOrReset : Prop :=
  ∀ (s t : State) (x : Transaction) (rest : List Transaction) (k : Nat), x ≠ .rst →
    (k = 2 ∨ ∀ d, x ≠ .hwr 0x10 d) → k < 3 → s.fstat.getLsbD k = true →
    step { s with bus := x :: rest } = .next t → t.fstat.getLsbD k = true

/-- A command whose operand is out of range takes `E_OPERAND` or `E_REGRANGE` with its word in `FINFO` and no other
effect. -/
def Obligations.OperandRangeFaults : Prop :=
  ∀ (s : State), s.fstat = 0 →
    (∀ bd n : BitVec 5, 16 < n.toNat →
      exec (.seob bd n) s = .next { s with fstat := 1, fcause := 0x13, finfo := encode (.seob bd n) }) ∧
    (∀ (n : BitVec 5) (v : BitVec 16), 16 < n.toNat →
      exec (.blit n v) s = .next { s with fstat := 1, fcause := 0x13, finfo := encode (.blit n v) }) ∧
    (∀ (bs : BitVec 5) (t : BitVec 2),
      exec (.tkn bs t 3) s = .next { s with fstat := 1, fcause := 0x13, finfo := encode (.tkn bs t 3) }) ∧
    ∀ bd bs : BitVec 5, 16 < bs.toNat →
      exec (.gdc bd bs) s = .next { s with fstat := 1, fcause := 0x12, finfo := encode (.gdc bd bs) }

/-- The invariant of the machine is kept by every step, from every state that has it: the memories stay in canonical form
inside their windows, the fault registers agree, `TKCNT` is at most 16. -/
def Obligations.EveryStepKeepsTheInvariant : Prop :=
  ∀ s t : State, s.inv = true → step s = .next t → t.inv = true

/-- The state right after any reset of hardware whose parameters are within their bounds has the invariant, and so has
State.reset, whose parameters are the defaults, the sizes written here (logs 1, 3 and 6 name the values of State.reset the
spec does not give). -/
def Obligations.ResetStateHasTheInvariant : Prop :=
  (∀ (c : Config) (epoch : Nat), c.wf = true → (State.resetOf c epoch).inv = true) ∧ State.reset.inv = true ∧
    State.reset.cfg.ntok = 4096 ∧ State.reset.cfg.nobuf = 65536 ∧ State.reset.cfg.qlut = .standard ∧
    State.reset.cfg.costtab = .standard

/-- No transaction writes a parameter of the hardware (00_scope.md, implementation parameters). -/
def Obligations.NoStepChangesAParameter : Prop := ∀ s t : State, step s = .next t → t.cfg = s.cfg

/-- The engine always goes on: no step ends in a fault or a refusal, and with no transaction it waits unchanged. That it
waits so when the host's list is empty is the model's choice (log 4). -/
def Obligations.EveryStepGoesOn : Prop :=
  (∀ s : State, ∃ t, step s = .next t) ∧ ∀ s : State, step { s with bus := [] } = .next { s with bus := [] }

/-! ## Reset -/

/-- R45: what reset leaves in every register the spec gives a value for, at State.reset and after `rst`, which also leaves
the parameters and the host's list as they were; no byte of a memory has a value then. -/
def Obligations.ResetLeavesTheStatedValues : Prop :=
  ∀ (s : State) (rest : List Transaction), ∃ t, step { s with bus := .rst :: rest } = .next t ∧
    t.cfg = s.cfg ∧ t.bus = rest ∧ t.olimit = BitVec.ofNat 32 s.cfg.nobuf ∧
    State.reset.olimit = BitVec.ofNat 32 State.reset.cfg.nobuf ∧
    ∀ u : State, u = t ∨ u = State.reset →
      u.fstat = 0 ∧ u.fcause = 0 ∧ u.finfo = 0 ∧ u.qidx = 0 ∧ u.zbinx = 0 ∧ u.obase = 0 ∧ u.bcActive = 0 ∧
      u.bcRange = 255 ∧ u.bcLow = 0 ∧ u.bcCount = 24 ∧ u.bcPos = 0 ∧ u.blen = 0 ∧ u.tkwp = 0 ∧ u.tkrp = 0 ∧
      u.tkcnt = 0 ∧ u.cost = 0 ∧ ∀ a, u.mem.written a = none

/-! ## The host port -/

/-- R63: a misaligned access raises `E_HOSTADDR` with the address; a read returns 0, a write has no other effect. -/
def Obligations.MisalignedAccessFaults : Prop :=
  ∀ (s : State) (addr d : Word) (rest : List Transaction), addr.toNat % 4 ≠ 0 →
    step { s with bus := .hrd addr :: rest } =
      .next { s.raise .hostAddr addr with bus := rest, rdata := some 0 } ∧
    step { s with bus := .hwr addr d :: rest } =
      .next { s.raise .hostAddr addr with bus := rest, rdata := none }

/-- R64: an aligned address in no window of the map, or past the implemented part of `TOKM` or `OBUF`, raises
`E_HOSTADDR`; every other aligned address reads without a fault. -/
def Obligations.UnmappedAccessFaults : Prop :=
  ∀ (s : State) (addr d : Word) (rest : List Transaction), addr.toNat % 4 = 0 →
    let a := addr.toNat
    let mapped := a < 0x4C ∨ (0x400 ≤ a ∧ a < 0x800) ∨ (0x800 ≤ a ∧ a < 0x880) ∨ (0x1000 ≤ a ∧ a < 0x1420) ∨
      (0x1800 ≤ a ∧ a < 0x1900) ∨ (0x1900 ≤ a ∧ a < 0x1A00) ∨ (0x1C00 ≤ a ∧ a < 0x2000) ∨
      (0x10000 ≤ a ∧ a < 0x10000 + 4 * s.cfg.ntok) ∨
      (0x20000 ≤ a ∧ a < 0x20000 + 4 * ((s.cfg.nobuf + 3) / 4)) ∨ (0x100000 ≤ a ∧ a < 0x110000)
    (¬mapped →
      step { s with bus := .hrd addr :: rest } =
        .next { s.raise .hostAddr addr with bus := rest, rdata := some 0 } ∧
      step { s with bus := .hwr addr d :: rest } =
        .next { s.raise .hostAddr addr with bus := rest, rdata := none }) ∧
    (mapped → ∃ v, step { s with bus := .hrd addr :: rest } = .next { s with bus := rest, rdata := some v })

/-- The host's view of the registers. A write to a read-write register stores its implemented bits and changes nothing else;
`QIDX` is checked against 0..127 and takes `E_QIDX`. A read of a register returns its bits with 0 above them, a read of the
`EOB` window the tag of its register, and changes nothing (10_state.md, control and status registers; 20_memory.md, byte
order and address map). -/
def Obligations.RegisterWritesStoreTheirBits : Prop :=
  ∀ (s : State) (d : Word) (rest : List Transaction),
    let s' := { s with bus := rest, rdata := none }
    let write (addr : Word) := step { s with bus := .hwr addr d :: rest }
    let returns (addr : Word) (v : Nat) : Prop :=
      step { s with bus := .hrd addr :: rest } = .next { s with bus := rest, rdata := some (BitVec.ofNat 32 v) }
    ((d.toNat < 128 → write 0x14 = .next { s' with qidx := BitVec.ofNat 7 d.toNat }) ∧
      (128 ≤ d.toNat → write 0x14 = .next (s'.raise .qidx 0x14)) ∧
      write 0x18 = .next { s' with zbinx := BitVec.ofNat 16 d.toNat } ∧
      write 0x1C = .next { s' with obase := d } ∧ write 0x20 = .next { s' with olimit := d } ∧
      write 0x24 = .next { s' with bcActive := BitVec.ofNat 1 d.toNat } ∧
      write 0x28 = .next { s' with bcRange := BitVec.ofNat 8 d.toNat } ∧ write 0x2C = .next { s' with bcLow := d } ∧
      write 0x30 = .next { s' with bcCount := BitVec.ofNat 5 d.toNat } ∧ write 0x34 = .next { s' with bcPos := d } ∧
      write 0x3C = .next { s' with tkwp := d } ∧ write 0x40 = .next { s' with tkrp := d }) ∧
    (returns 0x00 0 ∧ returns 0x04 s.fstat.toNat ∧ returns 0x08 s.fcause.toNat ∧ returns 0x0C s.finfo.toNat ∧
      returns 0x10 0 ∧ returns 0x14 s.qidx.toNat ∧ returns 0x18 s.zbinx.toNat ∧ returns 0x1C s.obase.toNat ∧
      returns 0x20 s.olimit.toNat ∧ returns 0x24 s.bcActive.toNat ∧ returns 0x28 s.bcRange.toNat ∧
      returns 0x2C s.bcLow.toNat ∧ returns 0x30 s.bcCount.toNat ∧ returns 0x34 s.bcPos.toNat ∧
      returns 0x38 s.blen.toNat ∧ returns 0x3C s.tkwp.toNat ∧ returns 0x40 s.tkrp.toNat ∧ returns 0x44 s.cost.toNat ∧
      returns 0x48 s.tkcnt.toNat) ∧
    ∀ n : BitVec 5, returns (BitVec.ofNat 32 (0x800 + 4 * n.toNat)) (s.eobTag n).toNat

/-- Writes to the read-only registers and to the look-up table's window are ignored; the write-only registers read 0
(20_memory.md, the host port). -/
def Obligations.ReadOnlyPlacesIgnoreWrites : Prop :=
  ∀ (s : State) (addr d : Word) (rest : List Transaction), addr.toNat % 4 = 0 →
    ((addr.toNat ∈ [0x04, 0x08, 0x0C, 0x38, 0x44, 0x48] ∨ (0x100000 ≤ addr.toNat ∧ addr.toNat < 0x110000 ∧
        storageByte s.cfg addr.toNat = false)) →
      step { s with bus := .hwr addr d :: rest } = .next { s with bus := rest, rdata := none }) ∧
    (addr.toNat ∈ [0x00, 0x10] →
      step { s with bus := .hrd addr :: rest } = .next { s with bus := rest, rdata := some 0 })

/-- Saving and restoring a coder context: writing back the words that the seven registers of a state read as gives any
other state that coder tuple and window, and changes nothing else (40_bool_coder.md, context switching). -/
def Obligations.CoderContextRestores : Prop :=
  ∀ s u : State,
    ([0x24, 0x28, 0x2C, 0x30, 0x34, 0x1C, 0x20] : List Word).foldl (fun v addr => v.hostWrite addr (s.hostRead addr).2) u =
      { u with
        bcActive := s.bcActive, bcRange := s.bcRange, bcLow := s.bcLow, bcCount := s.bcCount, bcPos := s.bcPos,
        obase := s.obase, olimit := s.olimit }

/-- The six memories and their windows. The elements the commands use stand at the places of the address map: bytes, signed
in `TREEM`, and words with the least significant byte at the lowest address in `COSTM` and `TOKM`; the bytes of the windows are
those of the elements there are. A word written to a window is stored byte by byte in its implemented bytes, the least
significant at the lowest address; every other byte and every register is as before, and a read returns the implemented bytes of
the word with 0 elsewhere (20_memory.md, byte order and address map). -/
def Obligations.MemoryWindowStoresTheWord : Prop :=
  (∀ (m : Memory) (k : Nat),
    let word (a : Nat) : Nat :=
      (m.read a).toNat + 2 ^ 8 * (m.read (a + 1)).toNat + 2 ^ 16 * (m.read (a + 2)).toNat + 2 ^ 24 * (m.read (a + 3)).toNat
    m.treem k = (m.read (0x1800 + k)).toInt ∧ m.probm k = (m.read (0x1900 + k)).toNat ∧
      (m.costm k).toNat = word (0x1C00 + 4 * k) ∧ (m.tokm k).toNat = word (0x10000 + 4 * k) ∧
      m.obuf k = m.read (0x20000 + k) ∧
      (∀ t b c n, m.cprob t b c n = (m.read (0x1000 + (((t * 8 + b) * 3 + c) * 11 + n))).toNat) ∧
      costmAddr k = 0x1C00 + 4 * k ∧ tokmAddr k = 0x10000 + 4 * k ∧ obufAddr k = 0x20000 + k) ∧
  (∀ (c : Config) (a : Nat), storageByte c a = true ↔
    (0x1000 ≤ a ∧ a < 0x1000 + 4 * 8 * 3 * 11) ∨ (0x1800 ≤ a ∧ a < 0x1800 + 256) ∨ (0x1900 ≤ a ∧ a < 0x1900 + 256) ∨
      (0x1C00 ≤ a ∧ a < 0x1C00 + 4 * 256) ∨ (0x10000 ≤ a ∧ a < 0x10000 + 4 * c.ntok) ∨
      (0x20000 ≤ a ∧ a < 0x20000 + c.nobuf)) ∧
  ∀ (s : State) (addr d : Word) (rest : List Transaction), addr.toNat % 4 = 0 → storageByte s.cfg addr.toNat = true →
    ∃ t, step { s with bus := .hwr addr d :: rest } = .next t ∧
      t = { s with bus := rest, rdata := none, mem := t.mem } ∧
      (∀ k < 4, storageByte s.cfg (addr.toNat + k) = true →
        t.mem.read (addr.toNat + k) = d.extractLsb' (8 * k) 8) ∧
      (∀ a, (a < addr.toNat ∨ addr.toNat + 4 ≤ a ∨ storageByte s.cfg a = false) → t.mem.read a = s.mem.read a) ∧
      ∃ v, step { t with bus := .hrd addr :: rest } = .next { t with bus := rest, rdata := some v } ∧
        ∀ k < 4, v.extractLsb' (8 * k) 8 =
          if storageByte s.cfg (addr.toNat + k) then d.extractLsb' (8 * k) 8 else 0

/-- The `BR` window: the word of lane pair `k` of register `n` holds lane `2k` in its low half and lane `2k + 1` in its high
half, for reads and for writes; nothing else changes. A lane is a signed number (20_memory.md, byte order and address map). -/
def Obligations.BlockWindowPacksLanePairs : Prop :=
  (∀ (b : Block) (i : Nat) (hi : i < 16), lane b i = b[i].toInt) ∧
  ∀ (s : State) (n : BitVec 5) (k : Nat) (d : Word) (rest : List Transaction) (hk : k < 8),
    let addr := BitVec.ofNat 32 (0x400 + 32 * n.toNat + 4 * k)
    step { s with bus := .hrd addr :: rest } =
      .next { s with bus := rest, rdata := some ((s.block n)[2 * k + 1] ++ (s.block n)[2 * k]) } ∧
    ∃ t, step { s with bus := .hwr addr d :: rest } = .next t ∧
      t = { s with bus := rest, rdata := none, br := t.br } ∧ (∀ m, m ≠ n → t.block m = s.block m) ∧
      (t.block n)[2 * k] = d.extractLsb' 0 16 ∧ (t.block n)[2 * k + 1] = d.extractLsb' 16 16 ∧
      ∀ i (hi : i < 16), i ≠ 2 * k → i ≠ 2 * k + 1 → (t.block n)[i] = (s.block n)[i]

/-- R70: a substituted look-up table is the model's argument, and the window of the table reads the entry's fields in the packing of the map, two words an entry, and a
write to it changes nothing. The window lies past every memory when the parameters are within their bounds. -/
def Obligations.LookUpTableWindowReadsEntries : Prop :=
  ∀ (s : State) (t q i : Nat) (d : Word) (rest : List Transaction), s.cfg.wf = true → t < 4 → q < 128 → i < 16 →
    let e := qlutEntry s.cfg t q i
    let at0 := BitVec.ofNat 32 (0x100000 + 8 * ((t * 128 + q) * 16 + i))
    let at4 := BitVec.ofNat 32 (0x100000 + 8 * ((t * 128 + q) * 16 + i) + 4)
    (∀ entries, s.cfg.qlut = .custom entries → entries[(t * 128 + q) * 16 + i]? = some e) ∧
    step { s with bus := .hrd at0 :: rest } = .next { s with bus := rest, rdata := some (e.quant ++ e.round) } ∧
    step { s with bus := .hrd at4 :: rest } = .next { s with bus := rest, rdata := some (e.dq ++ e.zbin) } ∧
    step { s with bus := .hwr at0 d :: rest } = .next { s with bus := rest, rdata := none } ∧
    step { s with bus := .hwr at4 d :: rest } = .next { s with bus := rest, rdata := none }

/-- R206: `LDI` has the effect of reading the word of its lane pair, replacing one half and writing it back; `SEOB` with
`n <= 16` that of a write to the `EOB` window, which itself stores the low 5 bits with no check. -/
def Obligations.SupportCommandsEqualPortWrites : Prop :=
  ∀ (s : State) (rest : List Transaction), s.fstat = 0 →
    (∀ (bd : BitVec 5) (l : BitVec 4) (v : BitVec 16) (w : Word),
      let addr := BitVec.ofNat 32 (0x400 + 32 * bd.toNat + 4 * (l.toNat / 2))
      let word : Word := if l.toNat % 2 = 0 then w.extractLsb' 16 16 ++ v else v ++ w.extractLsb' 0 16
      step { s with bus := .hrd addr :: rest } = .next { s with bus := rest, rdata := some w } →
      step { s with bus := .hwr 0 (encode (.ldi bd l v)) :: rest } =
        step { s with bus := .hwr addr word :: rest }) ∧
    (∀ bd n : BitVec 5, n.toNat ≤ 16 →
      step { s with bus := .hwr 0 (encode (.seob bd n)) :: rest } =
        step { s with bus := .hwr (BitVec.ofNat 32 (0x800 + 4 * bd.toNat)) (BitVec.ofNat 32 n.toNat) :: rest }) ∧
    ∀ (bd : BitVec 5) (d : Word), ∃ t,
      step { s with bus := .hwr (BitVec.ofNat 32 (0x800 + 4 * bd.toNat)) d :: rest } = .next t ∧
        t.eobTag bd = BitVec.ofNat 5 d.toNat ∧ (∀ m, m ≠ bd → t.eobTag m = s.eobTag m) ∧
        t = { s with bus := rest, rdata := none, eob := t.eob }

/-! ## Support commands -/

/-- R201: `NOP` leaves every element as it was; its word has no other bit set, and any bit of [25:0] makes it illegal. -/
def Obligations.NopChangesNothing : Prop :=
  (∀ s : State, exec .nop s = .next s) ∧ decode 0x04000000 = .ok .nop ∧
  (∀ w : Word, opField w = 0x01 → w ≠ 0x04000000 → takesIllCmd w) ∧
  ∀ (s : State) (rest : List Transaction), s.fstat ≠ 0 →
    step { s with bus := .hwr 0 0x04000000 :: rest } = .next { s with bus := rest, rdata := none }

/-- R202: `LDI` writes one lane with its immediate, whose bits are the lane's own (sign extension), and leaves the other
lanes, the other registers, the tags and all else; bit 20 is reserved. -/
def Obligations.LdiWritesOneLane : Prop :=
  (∀ (bd : BitVec 5) (l : BitVec 4) (v : BitVec 16) (s : State), ∃ t, exec (.ldi bd l v) s = .next t ∧
    lane (t.block bd) l.toNat = v.toInt ∧
    (∀ i < 16, i ≠ l.toNat → lane (t.block bd) i = lane (s.block bd) i) ∧
    (∀ m, m ≠ bd → t.block m = s.block m) ∧ t = { s with br := t.br }) ∧
  (∀ w : Word, opField w = 0x02 → w.getLsbD 20 = true → takesIllCmd w) ∧
  ∀ w : Word, opField w = 0x02 → w.getLsbD 20 = false →
    decode w = .ok (.ldi (w.extractLsb' 21 5) (w.extractLsb' 16 4) (w.extractLsb' 0 16))

/-- R203: `BFILL` writes all 16 lanes and leaves the other registers, the tags and all else; bits [20:16] are reserved. -/
def Obligations.BfillWritesAllLanes : Prop :=
  (∀ (bd : BitVec 5) (v : BitVec 16) (s : State), ∃ t, exec (.bfill bd v) s = .next t ∧
    (∀ i < 16, lane (t.block bd) i = v.toInt) ∧ (∀ m, m ≠ bd → t.block m = s.block m) ∧ t = { s with br := t.br }) ∧
  (∀ w : Word, opField w = 0x03 → w.extractLsb' 16 5 ≠ 0 → takesIllCmd w) ∧
  ∀ w : Word, opField w = 0x03 → w.extractLsb' 16 5 = 0 →
    decode w = .ok (.bfill (w.extractLsb' 21 5) (w.extractLsb' 0 16))

/-- R204: `SEOB` sets one tag for `n` of 0..16 whatever the lanes hold and leaves all else, and takes `E_OPERAND` above;
bits [20:5] are reserved. -/
def Obligations.SeobSetsTheTag : Prop :=
  (∀ (bd n : BitVec 5) (s : State), n.toNat ≤ 16 → ∃ t, exec (.seob bd n) s = .next t ∧ t.eobTag bd = n ∧
    (∀ m, m ≠ bd → t.eobTag m = s.eobTag m) ∧ t = { s with eob := t.eob }) ∧
  (∀ (bd n : BitVec 5) (s : State), 16 < n.toNat →
    exec (.seob bd n) s = .next (s.raise .operand (encode (.seob bd n)))) ∧
  (∀ w : Word, opField w = 0x04 → w.extractLsb' 5 16 ≠ 0 → takesIllCmd w) ∧
  ∀ w : Word, opField w = 0x04 → w.extractLsb' 5 16 = 0 →
    decode w = .ok (.seob (w.extractLsb' 21 5) (w.extractLsb' 0 5))

/-! ## Transforms -/

/-- `FDCT` writes the two passes of the butterfly of 42_transform.md, for any constants, and leaves the other registers, the
tags and all else. `t` is the block between the passes; `trunc16` narrows to 16 bits, wrapping. -/
def Obligations.FdctComputesTheTwoPasses : Prop :=
  (∀ v : Int, -32768 ≤ trunc16 v ∧ trunc16 v ≤ 32767 ∧ (trunc16 v - v) % 65536 = 0) ∧
  ∀ (bd bs : BitVec 5) (s : State), ∃ u, exec (.fdct bd bs) s = .next u ∧ u = { s with br := u.br } ∧
    (∀ m, m ≠ bd → u.block m = s.block m) ∧ ∃ t : Nat → Int,
      let x := lane (s.block bs)
      let y := lane (u.block bd)
      let k := s.cfg.fdctc
      (∀ r < 4,
        t (4 * r) = trunc16 ((x (4 * r) + x (4 * r + 3)) * k.pre + (x (4 * r + 1) + x (4 * r + 2)) * k.pre) ∧
        t (4 * r + 2) = trunc16 ((x (4 * r) + x (4 * r + 3)) * k.pre - (x (4 * r + 1) + x (4 * r + 2)) * k.pre) ∧
        t (4 * r + 1) = trunc16 (((x (4 * r + 1) - x (4 * r + 2)) * k.pre * 2217 +
          (x (4 * r) - x (4 * r + 3)) * k.pre * 5352 + k.ra) / 2 ^ k.s1) ∧
        t (4 * r + 3) = trunc16 (((x (4 * r) - x (4 * r + 3)) * k.pre * 2217 -
          (x (4 * r + 1) - x (4 * r + 2)) * k.pre * 5352 + k.rb) / 2 ^ k.s1)) ∧
      ∀ c < 4,
        y c = trunc16 ((t c + t (12 + c) + (t (4 + c) + t (8 + c)) + k.rc) / 2 ^ k.s2) ∧
        y (8 + c) = trunc16 ((t c + t (12 + c) - (t (4 + c) + t (8 + c)) + k.rc) / 2 ^ k.s2) ∧
        y (4 + c) = trunc16 (((t (4 + c) - t (8 + c)) * 2217 + (t c - t (12 + c)) * 5352 + k.rd) / 2 ^ k.s3 +
          if t c = t (12 + c) then 0 else 1) ∧
        y (12 + c) = trunc16 (((t c - t (12 + c)) * 2217 - (t (4 + c) - t (8 + c)) * 5352 + k.re) / 2 ^ k.s3)

/-- With the default constants a block of one value `v` in -255..255 transforms to `8v` in lane 0, 1 in lane 1 and 0
elsewhere (42_transform.md, properties of FDCT). -/
def Obligations.FdctOfAConstantBlock : Prop :=
  ∀ (bd bs : BitVec 5) (s : State) (v : Int), s.cfg.fdctc = fdctStandard → -255 ≤ v → v ≤ 255 →
    (∀ i < 16, lane (s.block bs) i = v) → ∃ u, exec (.fdct bd bs) s = .next u ∧
      ∀ i < 16, lane (u.block bd) i = if i = 0 then 8 * v else if i = 1 then 1 else 0

/-- With the default constants and lanes in -255..255 nothing wraps: pass 1 is the exact butterfly with magnitudes at most
8160, and pass 2 is the exact butterfly on it, before its last narrowing of magnitude at most 2040. The nine default constants
are the ones written here (42_transform.md, the constants and corner case (a)). -/
def Obligations.FdctOfResidualsNeverWraps : Prop :=
  (fdctStandard = { pre := 8, ra := 14500, rb := 7500, s1 := 12, rc := 7, s2 := 4, rd := 12000, re := 51000, s3 := 16 } ∧
    State.reset.cfg.fdctc = fdctStandard) ∧
  ∀ x : Nat → Int, (∀ i < 16, -255 ≤ x i ∧ x i ≤ 255) →
    (∀ r < 4,
      fdctRow fdctStandard x (4 * r) = (x (4 * r) + x (4 * r + 3) + x (4 * r + 1) + x (4 * r + 2)) * 8 ∧
      fdctRow fdctStandard x (4 * r + 2) = (x (4 * r) + x (4 * r + 3) - x (4 * r + 1) - x (4 * r + 2)) * 8 ∧
      fdctRow fdctStandard x (4 * r + 1) =
        ((x (4 * r + 1) - x (4 * r + 2)) * 8 * 2217 + (x (4 * r) - x (4 * r + 3)) * 8 * 5352 + 14500) / 4096 ∧
      fdctRow fdctStandard x (4 * r + 3) =
        ((x (4 * r) - x (4 * r + 3)) * 8 * 2217 - (x (4 * r + 1) - x (4 * r + 2)) * 8 * 5352 + 7500) / 4096) ∧
    (∀ c < 4,
      let t := fdctRow fdctStandard x
      let y := fdctColumn fdctStandard t
      y c = (t c + t (12 + c) + t (4 + c) + t (8 + c) + 7) / 16 ∧
      y (8 + c) = (t c + t (12 + c) - t (4 + c) - t (8 + c) + 7) / 16 ∧
      y (4 + c) = ((t (4 + c) - t (8 + c)) * 2217 + (t c - t (12 + c)) * 5352 + 12000) / 65536 +
        (if t c = t (12 + c) then 0 else 1) ∧
      y (12 + c) = ((t c - t (12 + c)) * 2217 - (t (4 + c) - t (8 + c)) * 5352 + 51000) / 65536) ∧
    ∀ j < 16, (fdctRow fdctStandard x j).natAbs ≤ 8160 ∧
      (fdctColumn fdctStandard (fdctRow fdctStandard x) j).natAbs ≤ 2040

/-- `FWHT` writes the two passes of 42_transform.md and leaves the other registers, the tags and all else. -/
def Obligations.FwhtComputesTheTwoPasses : Prop :=
  ∀ (bd bs : BitVec 5) (s : State), ∃ u, exec (.fwht bd bs) s = .next u ∧ u = { s with br := u.br } ∧
    (∀ m, m ≠ bd → u.block m = s.block m) ∧ ∃ t : Nat → Int,
      let x := lane (s.block bs)
      let y := lane (u.block bd)
      let out (v : Int) := trunc16 ((v + (if v < 0 then 1 else 0) + 3) / 8)
      (∀ r < 4,
        t (4 * r) = trunc16 ((x (4 * r) + x (4 * r + 2)) * 4 + (x (4 * r + 1) + x (4 * r + 3)) * 4 +
          if (x (4 * r) + x (4 * r + 2)) * 4 = 0 then 0 else 1) ∧
        t (4 * r + 1) = trunc16 ((x (4 * r) - x (4 * r + 2)) * 4 + (x (4 * r + 1) - x (4 * r + 3)) * 4) ∧
        t (4 * r + 2) = trunc16 ((x (4 * r) - x (4 * r + 2)) * 4 - (x (4 * r + 1) - x (4 * r + 3)) * 4) ∧
        t (4 * r + 3) = trunc16 ((x (4 * r) + x (4 * r + 2)) * 4 - (x (4 * r + 1) + x (4 * r + 3)) * 4)) ∧
      ∀ c < 4,
        y c = out (t c + t (8 + c) + (t (4 + c) + t (12 + c))) ∧
        y (4 + c) = out (t c - t (8 + c) + (t (4 + c) - t (12 + c))) ∧
        y (8 + c) = out (t c - t (8 + c) - (t (4 + c) - t (12 + c))) ∧
        y (12 + c) = out (t c + t (8 + c) - (t (4 + c) + t (12 + c)))

/-- `GDC` writes lane 0 of 16 consecutive registers, all read before the write, and leaves the other registers, the tags and
all else; it takes `E_REGRANGE` when the last of them is past b31 (42_transform.md). -/
def Obligations.GdcGathersLaneZero : Prop :=
  ∀ (bd bs : BitVec 5) (s : State),
    (bs.toNat + 15 ≤ 31 → ∃ u, exec (.gdc bd bs) s = .next u ∧ u = { s with br := u.br } ∧
      (∀ m, m ≠ bd → u.block m = s.block m) ∧
      ∀ k < 16, ∀ m : BitVec 5, m.toNat = bs.toNat + k → lane (u.block bd) k = lane (s.block m) 0) ∧
    (31 < bs.toNat + 15 → exec (.gdc bd bs) s = .next (s.raise .regRange (encode (.gdc bd bs))))

/-! ## Quantizer -/

/-- `QUANT` quantizes every lane with the entry of its block type, of `QIDX` and of the lane, and leaves the other registers,
the other tags and all else (43_quantizer.md). -/
def Obligations.QuantQuantizesEveryLane : Prop :=
  ∀ (bd bs : BitVec 5) (t : BitVec 2) (s : State), ∃ u, exec (.quant bd bs t) s = .next u ∧
    u = { s with br := u.br, eob := u.eob } ∧ (∀ m, m ≠ bd → u.block m = s.block m ∧ u.eobTag m = s.eobTag m) ∧
    ∀ i < 16,
      let e := qlutEntry s.cfg t.toNat s.qidx.toNat i
      let x := lane (s.block bs) i
      let m : Nat := if x.natAbs < e.zbin.toNat + s.zbinx.toNat then 0
        else ((x.natAbs + e.round.toNat) * e.quant.toNat) >>> 16
      lane (u.block bd) i = trunc16 (if x < 0 then -(m : Int) else m)

/-- R173: the tag `QUANT` computes is at most 16, everything at or after it is zero, and when it is not 0 it names a
coefficient that is not zero, whatever the block type. -/
def Obligations.QuantTagNamesTheLastCoefficient : Prop :=
  ∀ (bd bs : BitVec 5) (t : BitVec 2) (s : State), ∃ u, exec (.quant bd bs t) s = .next u ∧
    (u.eobTag bd).toNat ≤ 16 ∧
    (∀ k, (u.eobTag bd).toNat ≤ k → k < 16 → lane (u.block bd) (zigzag k) = 0) ∧
    ((u.eobTag bd).toNat ≠ 0 → lane (u.block bd) (zigzag ((u.eobTag bd).toNat - 1)) ≠ 0)

/-- `DEQUANT` multiplies every lane by the step of its entry and narrows; the other registers, every tag and all else stay
(43_quantizer.md). -/
def Obligations.DequantMultipliesEveryLane : Prop :=
  ∀ (bd bs : BitVec 5) (t : BitVec 2) (s : State), ∃ u, exec (.dequant bd bs t) s = .next u ∧
    u = { s with br := u.br } ∧ (∀ m, m ≠ bd → u.block m = s.block m) ∧
    ∀ i < 16, lane (u.block bd) i =
      trunc16 (lane (s.block bs) i * ((qlutEntry s.cfg t.toNat s.qidx.toNat i).dq.toNat : Int))

/-- Properties of the quantizer (43_quantizer.md): it is odd on lanes that are not 0 (and on 0 whenever 0 quantizes to 0);
a zero lane gives zero when the threshold is positive or `round * quant < 65536`; the magnitude does not decrease above the
threshold; the tag of a block is 0 exactly when every lane is 0; a zero lane dequantizes to zero. -/
def Obligations.QuantizerIsOddAndMonotone : Prop :=
  (∀ (e : QEntry) (boost a : Nat), quantMag e boost a =
    if a < e.zbin.toNat + boost then 0 else ((a + e.round.toNat) * e.quant.toNat) >>> 16) ∧
  (∀ (e : QEntry) (boost : Nat) (x : Int), x ≠ 0 → quantLane e boost (-x) = -quantLane e boost x) ∧
  (∀ (e : QEntry) (boost : Nat), 0 < e.zbin.toNat + boost ∨ e.round.toNat * e.quant.toNat < 65536 →
    quantLane e boost 0 = 0) ∧
  (∀ (e : QEntry) (boost a b : Nat), e.zbin.toNat + boost ≤ a → a ≤ b → quantMag e boost a ≤ quantMag e boost b) ∧
  (∀ y : Block, eobOf y = 0 ↔ ∀ i (hi : i < 16), y[i] = 0) ∧ ∀ e : QEntry, dequantLane e 0 = 0

/-- R179: the sample entries of the default table, `round, quant, zbin, dq` of lane 0 and of the lanes 1 to 15. -/
def Obligations.DefaultTableSampleEntries : Prop :=
  let entry (t q i : Nat) := let e := qlutEntry configStandard t q i
    (e.round.toNat, e.quant.toNat, e.zbin.toNat, e.dq.toNat)
  let row (t q : Nat) (dc ac : Nat × Nat × Nat × Nat) : Bool :=
    entry t q 0 == dc && (List.range 15).all fun i => entry t q (i + 1) == ac
  (∀ t ∈ [0, 2, 3],
    row t 0 (1, 16384, 3, 4) (1, 16384, 3, 4) = true ∧ row t 1 (1, 13107, 3, 5) (1, 13107, 3, 5) = true ∧
    row t 47 (16, 1524, 28, 43) (19, 1285, 33, 51) = true ∧ row t 48 (16, 1489, 28, 44) (19, 1260, 33, 52) = true ∧
    row t 60 (20, 1191, 34, 55) (26, 936, 44, 70) = true ∧
    row t 100 (36, 668, 61, 98) (62, 392, 104, 167) = true) ∧
  (∀ t ∈ [0, 3], row t 127 (58, 417, 98, 157) (106, 230, 178, 284) = true) ∧
  row 2 127 (49, 496, 83, 132) (106, 230, 178, 284) = true ∧
  row 1 0 (3, 8192, 5, 8) (3, 8192, 5, 8) = true ∧ row 1 1 (3, 6553, 7, 10) (3, 8192, 5, 8) = true ∧
  row 1 47 (32, 762, 56, 86) (29, 829, 52, 79) = true ∧ row 1 48 (33, 744, 55, 88) (30, 819, 50, 80) = true ∧
  row 1 60 (41, 595, 69, 110) (40, 606, 68, 108) = true ∧
  row 1 100 (73, 334, 123, 196) (96, 254, 161, 258) = true ∧
  row 1 127 (117, 208, 196, 314) (165, 148, 275, 440) = true

/-- Every entry of the default table follows from its step size, which the two tables written here give. With it dequantizing
a quantized magnitude overshoots by at most `round`, so a coefficient of magnitude at most 32602 never wraps
(43_quantizer.md, the table; 70_reset_and_hazards.md, input ranges). -/
def Obligations.QuantizeDequantizeOvershootIsBounded : Prop :=
  (let dcq : List Nat :=
      [4, 5, 6, 7, 8, 9, 10, 10, 11, 12, 13, 14, 15, 16, 17, 17] ++
      [18, 19, 20, 20, 21, 21, 22, 22, 23, 23, 24, 25, 25, 26, 27, 28] ++
      [29, 30, 31, 32, 33, 34, 35, 36, 37, 37, 38, 39, 40, 41, 42, 43] ++
      [44, 45, 46, 46, 47, 48, 49, 50, 51, 52, 53, 54, 55, 56, 57, 58] ++
      [59, 60, 61, 62, 63, 64, 65, 66, 67, 68, 69, 70, 71, 72, 73, 74] ++
      [75, 76, 76, 77, 78, 79, 80, 81, 82, 83, 84, 85, 86, 87, 88, 89] ++
      [91, 93, 95, 96, 98, 100, 101, 102, 104, 106, 108, 110, 112, 114, 116, 118] ++
      [122, 124, 126, 128, 130, 132, 134, 136, 138, 140, 143, 145, 148, 151, 154, 157]
    let acq : List Nat :=
      [4, 5, 6, 7, 8, 9, 10, 11, 12, 13, 14, 15, 16, 17, 18, 19] ++
      [20, 21, 22, 23, 24, 25, 26, 27, 28, 29, 30, 31, 32, 33, 34, 35] ++
      [36, 37, 38, 39, 40, 41, 42, 43, 44, 45, 46, 47, 48, 49, 50, 51] ++
      [52, 53, 54, 55, 56, 57, 58, 60, 62, 64, 66, 68, 70, 72, 74, 76] ++
      [78, 80, 82, 84, 86, 88, 90, 92, 94, 96, 98, 100, 102, 104, 106, 108] ++
      [110, 112, 114, 116, 119, 122, 125, 128, 131, 134, 137, 140, 143, 146, 149, 152] ++
      [155, 158, 161, 164, 167, 170, 173, 177, 181, 185, 189, 193, 197, 201, 205, 209] ++
      [213, 217, 221, 225, 229, 234, 239, 245, 249, 254, 259, 264, 269, 274, 279, 284]
    ∀ (c : Config) (t q i : Nat), c.qlut = .standard → t < 4 → q < 128 → i < 16 →
      let dc := dcq.getD q 0
      let ac := acq.getD q 0
      let size :=
        if i = 0 then if t = 1 then 2 * dc else if t = 2 then min 132 dc else dc
        else if t = 1 then max 8 (ac * 155 / 100) else ac
      let e := qlutEntry c t q i
      e.round.toNat = 48 * size / 128 ∧ e.quant.toNat = 65536 / size ∧
        e.zbin.toNat = ((if q < 48 then 84 else 80) * size + 64) / 128 ∧ e.dq.toNat = size) ∧
  ∀ t q i boost a : Nat, t < 4 → q < 128 → i < 16 →
    let e := qentryStandard t q i
    quantMag e boost a * e.dq.toNat ≤ a + e.round.toNat ∧ (a ≤ 32602 → quantMag e boost a * e.dq.toNat ≤ 32767)

/-! ## Boolean coder -/

/-- `BSTART` sets the coder tuple in a window inside `OBUF`, active or not before, and leaves all else; otherwise it takes
`E_WINDOW` (40_bool_coder.md). -/
def Obligations.BstartOpensTheWindow : Prop :=
  ∀ s : State,
    (s.obase.toNat ≤ s.olimit.toNat ∧ s.olimit.toNat ≤ s.cfg.nobuf →
      exec .bstart s =
        .next { s with bcRange := 255, bcLow := 0, bcCount := 24, bcPos := s.obase, bcActive := 1 }) ∧
    (¬(s.obase.toNat ≤ s.olimit.toNat ∧ s.olimit.toNat ≤ s.cfg.nobuf) →
      exec .bstart s = .next (s.raise .window (encode .bstart)))

/-- The order of the checks of `BBOOL`, and what a fault leaves: `E_NOTACTIVE`, `E_PROB0`, `E_RANGE`, then `E_CARRY` or
`E_OBUFFULL`; nothing but the fault registers changes, and ACTIVE on `E_OBUFFULL`. With `BacOk`, whatever the tuple and the bytes,
the split and the turns of the renormalisation loop decide: the bytes a carry changes, `E_CARRY` exactly when all of the stream are
0xFF, the doubling, and a byte written or `E_OBUFFULL` exactly when `count` reaches 0 (40_bool_coder.md, the coding step;
60_exceptions.md, precision and priority). -/
def Obligations.BboolFaultsInOrderAndPrecisely : Prop :=
  (∀ (bit : BitVec 1) (prob : BitVec 8) (s : State),
    let w := encode (.bbool bit prob)
    (s.bcActive = 0 → exec (.bbool bit prob) s = .next (s.raise .notActive w)) ∧
    (s.bcActive = 1 → prob = 0 → exec (.bbool bit prob) s = .next (s.raise .prob0 w)) ∧
    (s.bcActive = 1 → prob ≠ 0 → s.bacOk = false → exec (.bbool bit prob) s = .next (s.raise .coderRange w)) ∧
    (s.bcActive = 1 → prob ≠ 0 → s.bacOk = true →
      (∃ c, (s.coder.narrow (bit == 1) prob.toNat).renorm s.obase.toNat s.olimit.toNat 7 = .ok c ∧
        exec (.bbool bit prob) s = .next (s.withCoder c)) ∨
      exec (.bbool bit prob) s = .next (s.raise .carry w) ∨
      exec (.bbool bit prob) s = .next (State.raise { s with bcActive := 0 } .obufFull w)) ∧
    (∀ t, encodeBool (bit == 1) prob.toNat s = .done t → exec (.bbool bit prob) s = .next t) ∧
    ∀ code t, encodeBool (bit == 1) prob.toNat s = .raised code t → exec (.bbool bit prob) s = .next (t.raise code w)) ∧
  ∀ (bit : Bool) (p : Nat) (s : State), s.bcActive = 1 → 1 ≤ p → p ≤ 255 → s.bacOk = true →
    let split := 1 + ((s.bcRange.toNat - 1) * p) >>> 8
    let start : Coder :=
      { range := if bit then s.bcRange.toNat - split else split
        low := if bit then (s.bcLow.toNat + split) % 2 ^ 32 else s.bcLow.toNat
        count := s.bcCount.toNat, pos := s.bcPos.toNat, mem := s.mem }
    let ends := Turns s.obase.toNat s.olimit.toNat start
    ((∃ c, ends (.ok c)) ∨ ends (.error .carry) ∨ ends (.error .obufFull)) ∧
    (∀ c, ends (.ok c) → ∃ t, encodeBool bit p s = .done t ∧ t.bcRange.toNat = c.range ∧ t.bcLow.toNat = c.low ∧
      t.bcCount.toNat = c.count ∧ t.bcPos.toNat = c.pos ∧ (∀ a, t.mem.read a = c.mem.read a) ∧
      t = { s with
        bcRange := t.bcRange, bcLow := t.bcLow, bcCount := t.bcCount, bcPos := t.bcPos, mem := t.mem }) ∧
    (ends (.error .carry) → encodeBool bit p s = .raised .carry s) ∧
    (ends (.error .obufFull) → encodeBool bit p s = .raised .obufFull { s with bcActive := 0 })

/-- R121: `BacOk`, spelled out, holds after a `BSTART` that takes no fault and is kept by every successful `EncodeBool`,
which also leaves the coder active. -/
def Obligations.CoderInvariantIsPreserved : Prop :=
  let ok (s : State) := 128 ≤ s.bcRange.toNat ∧ s.bcRange.toNat ≤ 255 ∧ 1 ≤ s.bcCount.toNat ∧ s.bcCount.toNat ≤ 24 ∧
    s.obase.toNat ≤ s.bcPos.toNat ∧ s.bcPos.toNat ≤ s.olimit.toNat ∧ s.olimit.toNat ≤ s.cfg.nobuf
  (∀ s : State, (s.bacOk = true ↔ ok s) ∧ (s.active = true ↔ s.bcActive = 1)) ∧
  (∀ s : State, s.obase.toNat ≤ s.olimit.toNat → s.olimit.toNat ≤ s.cfg.nobuf →
    ∃ t, exec .bstart s = .next t ∧ ok t ∧ t.bcActive = 1) ∧
  ∀ (bit : Bool) (p : Nat) (s t : State), p ≤ 255 → encodeBool bit p s = .done t → ok t ∧ t.bcActive = 1

/-- With `BacOk` and a probability of 1 to 255 the split leaves both sub-ranges non-empty, at most 7 doublings bring the new
range back into 128..255, and a step writes at most one byte (40_bool_coder.md, properties of the step). -/
def Obligations.SplitLeavesBothSubRanges : Prop :=
  ∀ (bit : Bool) (p : Nat) (s : State), s.bacOk = true → 1 ≤ p → p ≤ 255 →
    1 ≤ splitOf s.bcRange.toNat p ∧ splitOf s.bcRange.toNat p ≤ s.bcRange.toNat - 1 ∧
    (128 ≤ (s.coder.narrow bit p).range * 2 ^ normShift (s.coder.narrow bit p).range ∧
      (s.coder.narrow bit p).range * 2 ^ normShift (s.coder.narrow bit p).range ≤ 255 ∧
      normShift (s.coder.narrow bit p).range ≤ 7) ∧
    ∀ t, encodeBool bit p s = .done t →
      t.bcRange.toNat = (s.coder.narrow bit p).range * 2 ^ normShift (s.coder.narrow bit p).range ∧
      (t.bcPos = s.bcPos ∨ t.bcPos = s.bcPos + 1)

/-- `BBOOL` is one step of the exact arithmetic coder: with the coder active, the coded value below 1 and room for the byte
it may complete, it leaves exactly the interval that unbounded arithmetic gives, bytes and carries included, and changes
nothing outside the coder tuple and the bytes of the stream. -/
def Obligations.BboolIsExactArithmetic : Prop :=
  ∀ (bit : BitVec 1) (prob : BitVec 8) (s : State), s.bcActive = 1 → prob ≠ 0 → s.carryOk = true →
    hasRoom [(bit == 1, prob.toNat)] s = true →
    ∃ t, exec (.bbool bit prob) s = .next t ∧ codedAs [(bit == 1, prob.toNat)] s t ∧
      t = { s with
        bcRange := t.bcRange, bcLow := t.bcLow, bcCount := t.bcCount, bcPos := t.bcPos, mem := t.mem }

/-- `E_CARRY` and `E_RANGE` cannot occur on the way from a `BSTART`: it leaves `carryOk`; a step from an active coder with
`carryOk` and a probability of 1 to 255 can only fail by a full window, and keeps both when it succeeds; so coding any bools
from there ends normally, or with a full window, or with a probability 0 (40_bool_coder.md, properties of the step, (c)). -/
def Obligations.CarryNeverFailsAfterStart : Prop :=
  (∀ s : State, s.obase.toNat ≤ s.olimit.toNat → s.olimit.toNat ≤ s.cfg.nobuf →
    exec .bstart s = .next s.startCoder ∧ s.startCoder.carryOk = true) ∧
  (∀ (bit : Bool) (p : Nat) (s : State), s.carryOk = true → s.bcActive = 1 → 1 ≤ p → p ≤ 255 →
    (∀ code t, encodeBool bit p s = .raised code t → code = .obufFull) ∧
    ∀ t, encodeBool bit p s = .done t → t.carryOk = true ∧ t.bcActive = 1) ∧
  ∀ (s t : State) (bools : List (Bool × Nat)) (code : FaultCode), s.obase.toNat ≤ s.olimit.toNat →
    s.olimit.toNat ≤ s.cfg.nobuf → (∀ b ∈ bools, b.2 ≤ 255) →
    encodeBools bools s.startCoder = .raised code t → code = .obufFull ∨ code = .prob0

/-- `BLIT` codes its low `n` bits, most significant first, each at probability 128, exactly; with `n = 0` it changes nothing
even when the coder is not active (40_bool_coder.md). -/
def Obligations.BlitCodesItsBitsExactly : Prop :=
  (∀ (v : BitVec 16) (s : State), exec (.blit 0 v) s = .next s) ∧
  ∀ (n : BitVec 5) (v : BitVec 16) (s : State) (bits : List (Bool × Nat)), n.toNat ≤ 16 → s.bcActive = 1 →
    s.carryOk = true → bits.length = n.toNat →
    (∀ k (hk : k < bits.length), bits[k] = (v.getLsbD (n.toNat - 1 - k), 128)) → hasRoom bits s = true →
    ∃ t, exec (.blit n v) s = .next t ∧ codedAs bits s t ∧
      t = { s with
        bcRange := t.bcRange, bcLow := t.bcLow, bcCount := t.bcCount, bcPos := t.bcPos, mem := t.mem }

/-- `BSTOP` codes 32 zero bools at probability 128 exactly, writing `1 + ((S - c) div 8)` bytes with `S` = 31 from a range of
255 and 32 otherwise, records the length and leaves the coder inactive (40_bool_coder.md). -/
def Obligations.BstopFlushesTheStream : Prop :=
  ∀ s : State, s.bcActive = 1 → s.carryOk = true →
    let shifts := if s.bcRange = 255 then 31 else 32
    let bytes := 1 + (shifts - s.bcCount.toNat) / 8
    s.bcPos.toNat + bytes ≤ s.olimit.toNat →
    ∃ t, exec .bstop s = .next t ∧ codedAs (List.replicate 32 (false, 128)) s t ∧
      t.bcPos.toNat = s.bcPos.toNat + bytes ∧ t.blen.toNat = t.bcPos.toNat - s.obase.toNat ∧ t.bcActive = 0 ∧
      t = { s with
        bcRange := t.bcRange, bcLow := t.bcLow, bcCount := t.bcCount, bcPos := t.bcPos, mem := t.mem,
        blen := t.blen, bcActive := t.bcActive }

/-- A window too small for the bytes a command completes ends `BBOOL`, `BLIT`, `BSTOP`, `TWRITE` and `PUTTOK` in `E_OBUFFULL`:
the bools before the failing one stay coded, exactly, and it has no effect; ACTIVE is cleared, the length is not written,
every byte outside `OBUF[OBASE..pos-1]` and every other register stays. `PUTTOK` leaves `TKRP` at the record that had no room,
the records before it written (40_bool_coder.md, 60_exceptions.md, precision). -/
def Obligations.FullWindowStopsTheCoder : Prop :=
  ∀ (s : State), s.bcActive = 1 → s.carryOk = true → s.fstat = 0 →
    let full (i : Instr) (bools : List (Bool × Nat)) : Prop := ∃ t, exec i s = .next t ∧ stoppedFull i [] bools s.tkrp s t
    (∀ (bit : BitVec 1) (prob : BitVec 8), prob ≠ 0 → hasRoom [(bit == 1, prob.toNat)] s = false →
      full (.bbool bit prob) [(bit == 1, prob.toNat)]) ∧
    (∀ (n : BitVec 5) (v : BitVec 16) (bits : List (Bool × Nat)), n.toNat ≤ 16 → bits.length = n.toNat →
      (∀ k (hk : k < bits.length), bits[k] = (v.getLsbD (n.toNat - 1 - k), 128)) → hasRoom bits s = false →
      full (.blit n v) bits) ∧
    (hasRoom (List.replicate 32 (false, 128)) s = false → full .bstop (List.replicate 32 (false, 128))) ∧
    (∀ (tb pb v : BitVec 8) (path : Path), findPath s.mem.treem 256 tb.toNat v.toNat 0 = .ok path →
      (∀ node ∈ path, pb.toNat + node.1 / 2 ≤ 255 ∧ s.mem.probm (pb.toNat + node.1 / 2) ≠ 0) →
      let bools := path.map fun node => (node.2, s.mem.probm (pb.toNat + node.1 / 2))
      hasRoom bools s = false → full (.twrite tb pb v) bools) ∧
    ∀ (count : BitVec 16) (j : Nat), s.cfg.wf = true → s.tkrp.toNat + count.toNat ≤ s.tkwp.toNat →
      s.tkwp.toNat ≤ s.cfg.ntok → j < count.toNat →
      let record (k : Nat) := unpackToken (s.mem.tokm (s.tkrp.toNat + k))
      let written := (List.range j).flatMap fun k => tokenBools s.mem (record k)
      (∀ k ≤ j, tokenReady s.mem (record k) = true) → hasRoom written s = true →
      hasRoom (written ++ tokenBools s.mem (record j)) s = false →
      ∃ t, exec (.puttok count) s = .next t ∧
        stoppedFull (.puttok count) written (tokenBools s.mem (record j)) (BitVec.ofNat 32 (s.tkrp.toNat + j)) s t

/-- In a run of bools a fault leaves the steps before the failing one done and that one without effect, but for ACTIVE on
`E_OBUFFULL`; with probabilities of 1 to 255, `E_NOTACTIVE` and `E_RANGE` can strike only the first step, so they leave the
state as it was. `BLIT`, `BSTOP`, `TWRITE` and `PUTTOK` take them there, after their own checks; and from every state, whatever a
host wrote into the coder, each of them is the run of its bools, `PUTTOK` token by token, with `E_TOKEN` or `E_PROB0` at the
record that is not ready (60_exceptions.md, precision and priority). -/
def Obligations.EarlyCoderFaultsArePrecise : Prop :=
  (∀ s : State, encodeBools [] s = .done s ∧ ∀ (bit : Bool) (p : Nat) (rest : List (Bool × Nat)) (t : State),
    encodeBool bit p s = .done t → encodeBools ((bit, p) :: rest) s = encodeBools rest t) ∧
  (∀ (coded rest : List (Bool × Nat)) (bit : Bool) (p : Nat) (s t u : State) (code : FaultCode),
    encodeBools coded s = .done t → encodeBool bit p t = .raised code u →
    encodeBools (coded ++ (bit, p) :: rest) s = .raised code u ∧
      u = if code = .obufFull then { t with bcActive := 0 } else t) ∧
  (∀ (bools : List (Bool × Nat)) (s t : State) (code : FaultCode), (∀ b ∈ bools, 1 ≤ b.2 ∧ b.2 ≤ 255) →
    encodeBools bools s = .raised code t → (code = .notActive ∨ code = .coderRange) → t = s) ∧
  (∀ s : State,
    let early (i : Instr) : Prop :=
      (s.bcActive = 0 → exec i s = .next (s.raise .notActive (encode i))) ∧
      (s.bcActive = 1 → s.bacOk = false → exec i s = .next (s.raise .coderRange (encode i)))
    (∀ (n : BitVec 5) (v : BitVec 16), 1 ≤ n.toNat → n.toNat ≤ 16 → early (.blit n v)) ∧ early .bstop ∧
    (∀ (tb pb v : BitVec 8) (path : Path), checkedPath s.mem tb.toNat pb.toNat v.toNat = .ok path →
      early (.twrite tb pb v)) ∧
    ∀ count : BitVec 16, count ≠ 0 → s.tkrp.toNat + count.toNat ≤ s.tkwp.toNat → s.tkwp.toNat ≤ s.cfg.ntok →
      tokenReady s.mem (unpackToken (s.mem.tokm s.tkrp.toNat)) = true → early (.puttok count)) ∧
  ∀ s : State, s.bcActive = 1 →
    let runs (i : Instr) (bools : List (Bool × Nat)) : Prop :=
      (∀ t, encodeBools bools s = .done t → exec i s = .next t) ∧
      ∀ code t, encodeBools bools s = .raised code t → exec i s = .next (t.raise code (encode i))
    (∀ (n : BitVec 5) (v : BitVec 16) (bits : List (Bool × Nat)), n.toNat ≤ 16 → bits.length = n.toNat →
      (∀ k (hk : k < bits.length), bits[k] = (v.getLsbD (n.toNat - 1 - k), 128)) → runs (.blit n v) bits) ∧
    ((∀ t, encodeBools (List.replicate 32 (false, 128)) s = .done t →
        exec .bstop s = .next { t with blen := t.bcPos - t.obase, bcActive := 0 }) ∧
      ∀ code t, encodeBools (List.replicate 32 (false, 128)) s = .raised code t →
        exec .bstop s = .next (t.raise code (encode .bstop))) ∧
    (∀ (tb pb v : BitVec 8) (path : Path), checkedPath s.mem tb.toNat pb.toNat v.toNat = .ok path →
      runs (.twrite tb pb v) (path.map fun node => (node.2, s.mem.probm (pb.toNat + node.1 / 2)))) ∧
    ∀ count : BitVec 16, s.cfg.wf = true → s.tkrp.toNat + count.toNat ≤ s.tkwp.toNat → s.tkwp.toNat ≤ s.cfg.ntok →
      let record (k : Nat) := unpackToken (s.mem.tokm (s.tkrp.toNat + k))
      let written (j : Nat) := (List.range j).flatMap fun k => tokenBools s.mem (record k)
      ((∀ k < count.toNat, tokenReady s.mem (record k) = true) → ∀ t, encodeBools (written count.toNat) s = .done t →
        exec (.puttok count) s = .next { t with tkrp := BitVec.ofNat 32 (s.tkrp.toNat + count.toNat) }) ∧
      (∀ j < count.toNat, (∀ k ≤ j, tokenReady s.mem (record k) = true) → ∀ t u code,
        encodeBools (written j) s = .done t → encodeBools (tokenBools s.mem (record j)) t = .raised code u →
        exec (.puttok count) s =
          .next (State.raise { u with tkrp := BitVec.ofNat 32 (s.tkrp.toNat + j) } code (encode (.puttok count)))) ∧
      ∀ j < count.toNat, (∀ k < j, tokenReady s.mem (record k) = true) → tokenReady s.mem (record j) = false →
        ∀ t, encodeBools (written j) s = .done t →
          let code := if tokenValid (record j) then FaultCode.prob0 else FaultCode.token
          exec (.puttok count) s =
            .next (State.raise { t with tkrp := BitVec.ofNat 32 (s.tkrp.toNat + j) } code (encode (.puttok count)))

/-! ## Tree coder -/

/-- The path search. A path it finds follows the tree from the start node to a leaf of the value sought, never leaves the
table, and enters no node twice. In a table of at most 256 entries it finds exactly the first leaf of the value in preorder,
and only when no malformation (a node outside the table, an odd link, a node met before) comes ahead of it; otherwise the fault
is `E_TREE`. The collection of all leaves fails exactly when there is a malformation anywhere, and else lists every leaf once, in
preorder (41_tree_coder.md, tree format, path search and `TCOSTS`). -/
def Obligations.FoundPathsFollowTheTree : Prop :=
  (∀ (entry : Nat → Int) (size tb v start : Nat) (path : Path), findPath entry size tb v start = .ok path →
    isTreePath entry tb v start path ∧ 1 ≤ path.length ∧ path.length ≤ 128 ∧ (path.map Prod.fst).Nodup ∧
      ∀ node ∈ path, tb + node.1 + 1 ≤ size - 1) ∧
  (∀ (entry : Nat → Int) (size tb v start : Nat), size ≤ 256 → start % 2 = 0 →
    (∀ path, findPath entry size tb v start = .ok path ↔
      isTreePath entry tb v start path ∧
        ∀ bits, bits < path.map Prod.snd → ¬leafAt entry tb start v bits ∧ ¬malformedAt entry size tb start bits) ∧
    ∀ code, findPath entry size tb v start = .error code → code = .tree) ∧
  ∀ (m : Memory) (tb : Nat),
    (treeLeaves m tb = none ↔ ∃ bits, malformedAt m.treem 256 tb 0 bits) ∧
    ∀ leaves, treeLeaves m tb = some leaves →
      leaves.Pairwise (fun a b => a.2.map Prod.snd < b.2.map Prod.snd) ∧
      ∀ v path, (v, path) ∈ leaves ↔ isTreePath m.treem tb v 0 path

/-- `TWRITE` codes one bool per node of the path to its symbol, at that node's probability, exactly, and changes nothing
outside the coder tuple and the bytes of the stream (41_tree_coder.md). -/
def Obligations.TwriteCodesThePath : Prop :=
  ∀ (tb pb v : BitVec 8) (s : State) (path : Path), s.cfg.wf = true →
    findPath s.mem.treem 256 tb.toNat v.toNat 0 = .ok path →
    (∀ node ∈ path, pb.toNat + node.1 / 2 ≤ 255 ∧ s.mem.probm (pb.toNat + node.1 / 2) ≠ 0) →
    s.bcActive = 1 → s.carryOk = true →
    let bools := path.map fun node => (node.2, s.mem.probm (pb.toNat + node.1 / 2))
    hasRoom bools s = true →
    ∃ t, exec (.twrite tb pb v) s = .next t ∧ codedAs bools s t ∧
      t = { s with
        bcRange := t.bcRange, bcLow := t.bcLow, bcCount := t.bcCount, bcPos := t.bcPos, mem := t.mem }

/-- `TCOST` sums the cost of each bit of the path, a 1 at probability `p` costing `COSTTAB[256 - p]`, into `COST` and changes
nothing else, coder active or not. A substituted `COSTTAB` gives its own entries; the default is the table written here, whose
entry `p` of 1 to 255 is `256 * log2(256 / p)` rounded to the nearest: within one half, as an inequality of powers
(41_tree_coder.md, cost). -/
def Obligations.TcostSumsThePath : Prop :=
  (∀ (tb pb v : BitVec 8) (s : State) (path : Path),
    findPath s.mem.treem 256 tb.toNat v.toNat 0 = .ok path →
    (∀ node ∈ path, pb.toNat + node.1 / 2 ≤ 255 ∧ s.mem.probm (pb.toNat + node.1 / 2) ≠ 0) →
    ∃ t, exec (.tcost tb pb v) s = .next t ∧ t = { s with cost := t.cost } ∧
      t.cost.toNat = (path.map fun node =>
        let p := s.mem.probm (pb.toNat + node.1 / 2)
        costEntry s.cfg (if node.2 then 256 - p else p)).sum) ∧
  (∀ (c : Config) (entries : List (BitVec 16)) (p : Nat) (hp : p < entries.length), c.costtab = .custom entries →
    costEntry c p = entries[p].toNat) ∧
  ∀ c : Config, c.costtab = .standard →
    (List.range 256).map (costEntry c) =
      [0, 2048, 1792, 1642, 1536, 1454, 1386, 1329, 1280, 1236, 1198, 1162, 1130, 1101, 1073, 1048] ++
      [1024, 1002, 980, 961, 942, 924, 906, 890, 874, 859, 845, 831, 817, 804, 792, 780] ++
      [768, 757, 746, 735, 724, 714, 705, 695, 686, 676, 668, 659, 650, 642, 634, 626] ++
      [618, 611, 603, 596, 589, 582, 575, 568, 561, 555, 548, 542, 536, 530, 524, 518] ++
      [512, 506, 501, 495, 490, 484, 479, 474, 468, 463, 458, 453, 449, 444, 439, 434] ++
      [430, 425, 420, 416, 412, 407, 403, 399, 394, 390, 386, 382, 378, 374, 370, 366] ++
      [362, 358, 355, 351, 347, 343, 340, 336, 333, 329, 326, 322, 319, 315, 312, 309] ++
      [305, 302, 299, 296, 292, 289, 286, 283, 280, 277, 274, 271, 268, 265, 262, 259] ++
      [256, 253, 250, 247, 245, 242, 239, 236, 234, 231, 228, 226, 223, 220, 218, 215] ++
      [212, 210, 207, 205, 202, 200, 197, 195, 193, 190, 188, 185, 183, 181, 178, 176] ++
      [174, 171, 169, 167, 164, 162, 160, 158, 156, 153, 151, 149, 147, 145, 143, 140] ++
      [138, 136, 134, 132, 130, 128, 126, 124, 122, 120, 118, 116, 114, 112, 110, 108] ++
      [106, 104, 102, 101, 99, 97, 95, 93, 91, 89, 87, 86, 84, 82, 80, 78] ++
      [77, 75, 73, 71, 70, 68, 66, 64, 63, 61, 59, 58, 56, 54, 53, 51] ++
      [49, 48, 46, 44, 43, 41, 40, 38, 36, 35, 33, 32, 30, 28, 27, 25] ++
      [24, 22, 21, 19, 18, 16, 15, 13, 12, 10, 9, 7, 6, 4, 3, 1] ∧
    ∀ p, 1 ≤ p → p ≤ 255 →
      2 ^ (2 * costEntry c p) * p ^ 512 ≤ 2 * 2 ^ 4096 ∧ 2 ^ 4096 < 2 * (2 ^ (2 * costEntry c p) * p ^ 512)

/-- `TCOSTS` writes into `COSTM[v]`, for every leaf value `v` of the tree, the cost that `TCOST` gives `v`, and changes no
other byte and no register (41_tree_coder.md). -/
def Obligations.TcostsAgreesWithTcost : Prop :=
  ∀ (tb pb : BitVec 8) (s : State) (leaves : List Leaf), checkedLeaves s.mem tb.toNat pb.toNat = .ok leaves →
    ∃ t, exec (.tcosts tb pb) s = .next t ∧ t = { s with mem := t.mem } ∧
      (∀ v : BitVec 8, v.toNat ∈ leaves.map Prod.fst →
        exec (.tcost tb pb v) s = .next { s with cost := t.mem.costm v.toNat }) ∧
      (∀ v ∈ leaves.map Prod.fst, v ≤ 128) ∧
      ∀ a, (∀ v ∈ leaves.map Prod.fst, a < costmAddr v ∨ costmAddr v + 4 ≤ a) → t.mem.read a = s.mem.read a

/-- A malformed tree, a value that is no leaf, an index outside `PROBM` or a probability 0 leaves everything but the fault
registers: `E_TREE` or `E_PROB0`, for all three tree commands. A failed search is `E_TREE`; then the elements of the path, for
`TCOSTS` those of each leaf's path in turn, are checked in order, `E_TREE` for the index before `E_PROB0` for the probability, and
the first that fails decides (41_tree_coder.md, 60_exceptions.md, priority and precision). -/
def Obligations.TreeFaultsArePrecise : Prop :=
  ∀ (tb pb v : BitVec 8) (s : State),
    let good (node : Nat × Bool) : Prop := pb.toNat + node.1 / 2 ≤ 255 ∧ s.mem.probm (pb.toNat + node.1 / 2) ≠ 0
    (∀ code, checkedPath s.mem tb.toNat pb.toNat v.toNat = .error code → (code = .tree ∨ code = .prob0) ∧
      exec (.twrite tb pb v) s = .next (s.raise code (encode (.twrite tb pb v))) ∧
      exec (.tcost tb pb v) s = .next (s.raise code (encode (.tcost tb pb v)))) ∧
    (∀ code, checkedLeaves s.mem tb.toNat pb.toNat = .error code → (code = .tree ∨ code = .prob0) ∧
      exec (.tcosts tb pb) s = .next (s.raise code (encode (.tcosts tb pb)))) ∧
    (128 < v.toNat → checkedPath s.mem tb.toNat pb.toNat v.toNat = .error .tree) ∧
    (∀ code, findPath s.mem.treem 256 tb.toNat v.toNat 0 = .error code →
      checkedPath s.mem tb.toNat pb.toNat v.toNat = .error .tree) ∧
    (∀ path, findPath s.mem.treem 256 tb.toNat v.toNat 0 = .ok path →
      ((∀ node ∈ path, good node) → checkedPath s.mem tb.toNat pb.toNat v.toNat = .ok path) ∧
      ∀ before node after, path = before ++ node :: after → (∀ n ∈ before, good n) → ¬good node →
        checkedPath s.mem tb.toNat pb.toNat v.toNat =
          .error (if 255 < pb.toNat + node.1 / 2 then .tree else .prob0)) ∧
    (treeLeaves s.mem tb.toNat = none → checkedLeaves s.mem tb.toNat pb.toNat = .error .tree) ∧
    ∀ leaves, treeLeaves s.mem tb.toNat = some leaves →
      ((∀ leaf ∈ leaves, ∀ node ∈ leaf.2, good node) → checkedLeaves s.mem tb.toNat pb.toNat = .ok leaves) ∧
      ∀ earlier value before node after later, leaves = earlier ++ (value, before ++ node :: after) :: later →
        (∀ leaf ∈ earlier, ∀ n ∈ leaf.2, good n) → (∀ n ∈ before, good n) → ¬good node →
        checkedLeaves s.mem tb.toNat pb.toNat = .error (if 255 < pb.toNat + node.1 / 2 then .tree else .prob0)

/-! ## Tokenizer -/

/-- The token record packs and unpacks without loss, at the bit places of 44_tokenizer.md. -/
def Obligations.TokenRecordRoundTrip : Prop :=
  (∀ k : Token, unpackToken (packToken k) = k) ∧ (∀ w : Word, packToken (unpackToken w) = w) ∧
  ∀ k : Token, (packToken k).toNat = k.id.toNat + 2 ^ 4 * k.band.toNat + 2 ^ 7 * k.ctx.toNat + 2 ^ 9 * k.skip.toNat +
    2 ^ 10 * k.sign.toNat + 2 ^ 11 * k.extra.toNat + 2 ^ 22 * k.type.toNat + 2 ^ 24 * k.reserved.toNat

/-- `TKN` appends one record per position from the first to the tag, then the EOB record unless the tag is 16: each record
with the id, extra value and sign of its coefficient, the band of its position, the context and the skip bit that the
coefficient before gives, and the block type; `TKWP` and `TKCNT` follow, and nothing else changes. The order of the positions,
their bands and the ids and extra values of the magnitudes are the ones written here (44_tokenizer.md). -/
def Obligations.TknAppendsTheRecords : Prop :=
  ((List.range 16).map zigzag = [0, 1, 4, 8, 5, 2, 3, 6, 9, 12, 13, 10, 7, 11, 14, 15] ∧
    (List.range 16).map bandOf = [0, 1, 2, 3, 6, 4, 5, 6, 6, 6, 6, 6, 6, 6, 6, 7] ∧
    ∀ m : Nat, (m ≤ 4 → magToken m = (m, 0)) ∧ (5 ≤ m → m ≤ 6 → magToken m = (5, m - 5)) ∧
      (7 ≤ m → m ≤ 10 → magToken m = (6, m - 7)) ∧ (11 ≤ m → m ≤ 18 → magToken m = (7, m - 11)) ∧
      (19 ≤ m → m ≤ 34 → magToken m = (8, m - 19)) ∧ (35 ≤ m → m ≤ 66 → magToken m = (9, m - 35)) ∧
      (67 ≤ m → m ≤ 2114 → magToken m = (10, m - 67))) ∧
  ∀ (bs : BitVec 5) (t c0 : BitVec 2) (s : State),
    let x := s.block bs
    let n := (s.eobTag bs).toNat
    let first := if t = 0 then 1 else 0
    let count := max first n - first + if max first n < 16 then 1 else 0
    s.cfg.wf = true → c0 ≠ 3 → n ≤ 16 → (1 ≤ n → lane x (zigzag (n - 1)) ≠ 0) →
    (∀ k, n ≤ k → k < 16 → lane x (zigzag k) = 0) →
    (∀ k, first ≤ k → k < n → (lane x (zigzag k)).natAbs ≤ 2114) → s.tkwp.toNat + count ≤ s.cfg.ntok →
    ∃ u, exec (.tkn bs t c0) s = .next u ∧ u = { s with tkwp := u.tkwp, tkcnt := u.tkcnt, mem := u.mem } ∧
      u.tkwp.toNat = s.tkwp.toNat + count ∧ u.tkcnt.toNat = count ∧ 1 ≤ count ∧ count ≤ 16 ∧
      (∀ j < count, (u.mem.tokm (s.tkwp.toNat + j)).toNat = recordAt x t c0 first n (first + j)) ∧
      ∀ a, (a < tokmAddr s.tkwp.toNat ∨ tokmAddr (s.tkwp.toNat + count) ≤ a) → u.mem.read a = s.mem.read a

/-- Whatever `TKN` records, `PUTTOK` accepts: every record of a block whose tag agrees with its lanes meets the six conditions of
the validation, and so does the word that is stored (44_tokenizer.md, properties). -/
def Obligations.TknRecordsPassValidation : Prop :=
  (∀ (x : Block) (n : Nat), eobAgrees x n = true ↔
    n ≤ 16 ∧ (1 ≤ n → lane x (zigzag (n - 1)) ≠ 0) ∧ ∀ k, n ≤ k → k < 16 → lane x (zigzag k) = 0) ∧
  ∀ (x : Block) (t c0 : BitVec 2) (n : Nat) (tokens : List Token), c0 ≠ 3 → eobAgrees x n = true →
    tokenize x t c0 n = some tokens →
    1 ≤ tokens.length ∧ tokens.length ≤ 16 ∧ ∀ k ∈ tokens,
      (k.reserved = 0 ∧ k.id.toNat ≤ 11 ∧ k.ctx ≠ 3 ∧ ¬(k.id = 11 ∧ k.skip = 1) ∧
        ¬((k.id = 0 ∨ k.id = 11) ∧ k.sign = 1) ∧
        k.extra.toNat < 2 ^ ([0, 0, 0, 0, 0, 1, 2, 3, 4, 5, 11, 0] : List Nat).getD k.id.toNat 0) ∧
      unpackToken (packToken k) = k ∧ tokenValid k = true ∧ tokenValid (unpackToken (packToken k)) = true

/-- The faults of `TKN`, in their order: `E_OPERAND` for `c0 = 3`; `E_EOB` for a tag above 16, a tag that names a zero coefficient
or a coefficient at or after the tag that is not zero; `E_MAG` for a magnitude above 2114 among those recorded; `E_TOKFULL`
without room for the records. Each leaves everything but the fault registers: all checks precede all writes
(44_tokenizer.md; 60_exceptions.md, priority). -/
def Obligations.TknFaultsArePrecise : Prop :=
  (∀ (bs : BitVec 5) (t c0 : BitVec 2) (s : State),
    let x := s.block bs
    let n := (s.eobTag bs).toNat
    let first := if t = 0 then 1 else 0
    let count := max first n - first + if max first n < 16 then 1 else 0
    let tagWrong : Prop :=
      16 < n ∨ (1 ≤ n ∧ lane x (zigzag (n - 1)) = 0) ∨ ∃ k, n ≤ k ∧ k < 16 ∧ lane x (zigzag k) ≠ 0
    let tooLarge : Prop := ∃ k, first ≤ k ∧ k < n ∧ 2114 < (lane x (zigzag k)).natAbs
    let faults (code : FaultCode) : Prop := exec (.tkn bs t c0) s = .next (s.raise code (encode (.tkn bs t c0)))
    (c0 = 3 → faults .operand) ∧ (c0 ≠ 3 → tagWrong → faults .eobTag) ∧
      (c0 ≠ 3 → ¬tagWrong → tooLarge → faults .mag) ∧
      (c0 ≠ 3 → ¬tagWrong → ¬tooLarge → s.cfg.ntok < s.tkwp.toNat + count → faults .tokFull)) ∧
  ∀ (bs : BitVec 5) (t c0 : BitVec 2) (s u : State), s.fstat = 0 → exec (.tkn bs t c0) s = .next u → u.fstat ≠ 0 →
    u = { s with fstat := u.fstat, fcause := u.fcause, finfo := encode (.tkn bs t c0) } ∧
      u.fcause ∈ [0x13, 0x31, 0x34, 0x21]

/-- `PUTTOK` codes its records in order, each as its path, its extra bits and its sign, exactly, and advances `TKRP` past
them; nothing outside the coder tuple, `TKRP` and the bytes of the stream changes. With `count = 0` it only checks the
pointers. The bools of a record are the ones written here: the path of its id in the token tree, without its first node when
the skip bit is set, each bit at the entry of `CPROB` of its node; the extra bits, most significant first, each at its
fixed probability; the sign at 128 for the ids 1 to 10 (44_tokenizer.md). -/
def Obligations.PuttokCodesItsRecords : Prop :=
  (let paths : List (List (Nat × Bool)) :=
      [ [(0, true), (2, false)],
        [(0, true), (2, true), (4, false)],
        [(0, true), (2, true), (4, true), (6, false), (8, false)],
        [(0, true), (2, true), (4, true), (6, false), (8, true), (10, false)],
        [(0, true), (2, true), (4, true), (6, false), (8, true), (10, true)],
        [(0, true), (2, true), (4, true), (6, true), (12, false), (14, false)],
        [(0, true), (2, true), (4, true), (6, true), (12, false), (14, true)],
        [(0, true), (2, true), (4, true), (6, true), (12, true), (16, false), (18, false)],
        [(0, true), (2, true), (4, true), (6, true), (12, true), (16, false), (18, true)],
        [(0, true), (2, true), (4, true), (6, true), (12, true), (16, true), (20, false)],
        [(0, true), (2, true), (4, true), (6, true), (12, true), (16, true), (20, true)],
        [(0, false)] ]
    let extraProbabilities : List (List Nat) :=
      [ [], [], [], [], [], [159], [165, 145], [173, 148, 140], [176, 155, 140, 135], [180, 157, 141, 134, 130],
        [254, 254, 243, 230, 196, 177, 153, 140, 133, 130, 129], [] ]
    ∀ (m : Memory) (k : Token), tokenValid k = true →
      let prob (node : Nat) := m.read (0x1000 + (((k.type.toNat * 8 + k.band.toNat) * 3 + k.ctx.toNat) * 11 + node / 2))
      let extras := extraProbabilities.getD k.id.toNat []
      tokenBools m k =
        ((paths.getD k.id.toNat []).drop k.skip.toNat).map (fun node => (node.2, (prob node.1).toNat)) ++
        (List.range extras.length).map (fun j => (k.extra.getLsbD (extras.length - 1 - j), extras.getD j 0)) ++
        if 1 ≤ k.id.toNat ∧ k.id.toNat ≤ 10 then [(k.sign == 1, 128)] else []) ∧
  ∀ (count : BitVec 16) (s : State), s.cfg.wf = true → s.tkrp.toNat + count.toNat ≤ s.tkwp.toNat →
    s.tkwp.toNat ≤ s.cfg.ntok →
    (count = 0 → exec (.puttok count) s = .next s) ∧
    (s.bcActive = 1 → s.carryOk = true →
      let record (j : Nat) := unpackToken (s.mem.tokm (s.tkrp.toNat + j))
      let bools := (List.range count.toNat).flatMap fun j => tokenBools s.mem (record j)
      (∀ j < count.toNat, tokenReady s.mem (record j) = true) → hasRoom bools s = true →
      ∃ u, exec (.puttok count) s = .next u ∧ codedAs bools s u ∧ u.tkrp.toNat = s.tkrp.toNat + count.toNat ∧
        u = { s with
          bcRange := u.bcRange, bcLow := u.bcLow, bcCount := u.bcCount, bcPos := u.bcPos, mem := u.mem,
          tkrp := u.tkrp })

/-- What `PUTTOK` refuses before a token. A record is valid when it meets the six conditions written here, and ready when
besides none of its probabilities is 0. Before any token: pointers that do not frame the count, then an inactive coder. At a
token: `E_TOKEN` for a record that is not valid, then `E_PROB0`; the tokens before it are fully written, `TKRP` points at
it, and it has no effect itself (44_tokenizer.md, 60_exceptions.md, precision). -/
def Obligations.PuttokFaultsBeforeATokenArePrecise : Prop :=
  (∀ k : Token, tokenValid k = true ↔
    k.reserved = 0 ∧ k.id.toNat ≤ 11 ∧ k.ctx ≠ 3 ∧ ¬(k.id = 11 ∧ k.skip = 1) ∧
    ¬((k.id = 0 ∨ k.id = 11) ∧ k.sign = 1) ∧
    k.extra.toNat < 2 ^ ([0, 0, 0, 0, 0, 1, 2, 3, 4, 5, 11, 0] : List Nat).getD k.id.toNat 0) ∧
  (∀ (m : Memory) (k : Token), tokenReady m k = true ↔ tokenValid k = true ∧ ∀ b ∈ tokenBools m k, b.2 ≠ 0) ∧
  ∀ (count : BitVec 16) (s : State),
    let w := encode (.puttok count)
    let record (j : Nat) := unpackToken (s.mem.tokm (s.tkrp.toNat + j))
    (¬(s.tkrp.toNat + count.toNat ≤ s.tkwp.toNat ∧ s.tkwp.toNat ≤ s.cfg.ntok) →
      exec (.puttok count) s = .next (s.raise .tokPtr w)) ∧
    (s.tkrp.toNat + count.toNat ≤ s.tkwp.toNat → s.tkwp.toNat ≤ s.cfg.ntok → count ≠ 0 →
      (s.bcActive = 0 → exec (.puttok count) s = .next (s.raise .notActive w)) ∧
      (s.bcActive = 1 → tokenValid (record 0) = false → exec (.puttok count) s = .next (s.raise .token w)) ∧
      (s.bcActive = 1 → tokenValid (record 0) = true → tokenReady s.mem (record 0) = false →
        exec (.puttok count) s = .next (s.raise .prob0 w)) ∧
      ∀ j < count.toNat, s.cfg.wf = true → s.bcActive = 1 → s.carryOk = true →
        let written := (List.range j).flatMap fun k => tokenBools s.mem (record k)
        (∀ k < j, tokenReady s.mem (record k) = true) → hasRoom written s = true →
        tokenReady s.mem (record j) = false →
        ∃ t, exec (.puttok count) s = .next (t.raise (if tokenValid (record j) then .prob0 else .token) w) ∧
          codedAs written s t ∧ t.tkrp.toNat = s.tkrp.toNat + j ∧
          t = { s with
            bcRange := t.bcRange, bcLow := t.bcLow, bcCount := t.bcCount, bcPos := t.bcPos, mem := t.mem,
            tkrp := t.tkrp })
end

