-- ==== Sys2Proof/Laws/Exact.lean ====
section
/-! SUPPORT. The small lemmas of the exact coder and of the bytes of a stream as one number. -/

namespace Sys2Proof.Laws

open Sys2Proof.Machine

@[simp] theorem obufNumber_zero (m : Memory) (base : Nat) : obufNumber m base 0 = 0 := rfl

theorem obufNumber_succ (m : Memory) (base n : Nat) :
    obufNumber m base (n + 1) = obufNumber m base n * 256 + (m.obuf (base + n)).toNat := rfl

/-- The number of a stream depends on its own bytes alone. -/
theorem obufNumber_congr (m m' : Memory) (base n : Nat) (h : ∀ k < n, m.obuf (base + k) = m'.obuf (base + k)) :
    obufNumber m base n = obufNumber m' base n := by
  induction n with
  | zero => rfl
  | succ n ih =>
    rw [obufNumber_succ, obufNumber_succ, h n (Nat.lt_succ_self n), ih fun k hk => h k (Nat.lt_succ_of_lt hk)]

/-- A stream of `n` bytes is a number below `256 ^ n`. -/
theorem obufNumber_lt (m : Memory) (base n : Nat) : obufNumber m base n < 256 ^ n := by
  induction n with
  | zero => exact Nat.one_pos
  | succ n ih =>
    have hbyte := (m.obuf (base + n)).isLt
    rw [obufNumber_succ, Nat.pow_succ]
    omega

/-- The exact coder runs bools in turn. -/
theorem exactRun_append (xs ys : List (Bool × Nat)) (s : State) :
    exactRun (xs ++ ys) s = ys.foldl exactStep (exactRun xs s) := by
  simp only [exactRun, List.foldl_append]

/-- The loop stops at once when the range is large enough. -/
theorem turns_enough (base limit : Nat) (c : Coder) (r : Except FaultCode Coder) (h : 128 ≤ c.range)
    (ht : Turns base limit c r) : r = .ok c := by
  cases ht with
  | enough => rfl
  | fault hlt => omega
  | again hlt => omega

end Sys2Proof.Laws
end

