-- ==== Sys2Proof/Laws/Memory.lean ====
section
/-! SUPPORT. The laws of the memories: reading after writing, and that every write keeps the canonical form. -/

namespace Sys2Proof.Machine

theorem cellsFind_put_same (cells : List Host.Cell) (x : Nat) (v : Byte) : cellsFind (cellsPut cells x v) x = some v := by
  induction cells with
  | nil => simp [cellsPut, cellsFind]
  | cons cell rest ih =>
    obtain ⟨a, u⟩ := cell
    unfold cellsPut
    split
    · simp [cellsFind]
    · split
      · simp [cellsFind]
      · simp [cellsFind, ih]; omega

theorem cellsFind_put_other (cells : List Host.Cell) (x y : Nat) (v : Byte) (h : y ≠ x) :
    cellsFind (cellsPut cells x v) y = cellsFind cells y := by
  induction cells with
  | nil => simp [cellsPut, cellsFind, h.symm]
  | cons cell rest ih =>
    obtain ⟨a, u⟩ := cell
    unfold cellsPut
    split
    · simp [cellsFind, h.symm]
    · split
      · rename_i hxa; subst hxa; simp [cellsFind, h.symm]
      · simp [cellsFind, ih]

/-- The least address a list in canonical form can hold. -/
def cellsFrom (low : Nat) : List Host.Cell → Prop
  | [] => True
  | (a, _) :: _ => low ≤ a

theorem cellsRising_cons (a : Nat) (u : Byte) (rest : List Host.Cell) :
    cellsRising ((a, u) :: rest) = true ↔ cellsFrom (a + 1) rest ∧ cellsRising rest = true := by
  cases rest with
  | nil => simp [cellsRising, cellsFrom]
  | cons cell rest => obtain ⟨b, w⟩ := cell; simp [cellsRising, cellsFrom]

theorem cellsFrom_put (low : Nat) (cells : List Host.Cell) (x : Nat) (v : Byte) (hx : low ≤ x)
    (h : cellsFrom low cells) : cellsFrom low (cellsPut cells x v) := by
  cases cells with
  | nil => simpa [cellsPut, cellsFrom]
  | cons cell rest =>
    obtain ⟨a, u⟩ := cell
    unfold cellsPut
    split
    · simpa [cellsFrom]
    · split <;> simp_all [cellsFrom]

theorem cellsRising_put (cells : List Host.Cell) (x : Nat) (v : Byte) (h : cellsRising cells = true) :
    cellsRising (cellsPut cells x v) = true := by
  induction cells with
  | nil => simp [cellsPut, cellsRising]
  | cons cell rest ih =>
    obtain ⟨a, u⟩ := cell
    have hr := (cellsRising_cons a u rest).1 h
    unfold cellsPut
    split
    · exact (cellsRising_cons x v _).2 ⟨by simp [cellsFrom]; omega, h⟩
    · split
      · rename_i hxa; subst hxa; exact (cellsRising_cons x v rest).2 hr
      · exact (cellsRising_cons a u _).2 ⟨cellsFrom_put _ rest x v (by omega) hr.1, ih hr.2⟩

theorem mem_cellsPut (cells : List Host.Cell) (x : Nat) (v : Byte) (cell : Host.Cell) (h : cell ∈ cellsPut cells x v) :
    cell = (x, v) ∨ cell ∈ cells := by
  induction cells with
  | nil => simpa [cellsPut] using h
  | cons first rest ih =>
    obtain ⟨a, u⟩ := first
    unfold cellsPut at h
    split at h
    · simpa using h
    · split at h
      · simp only [List.mem_cons] at h ⊢
        exact h.imp id .inr
      · simp only [List.mem_cons] at h ⊢
        rcases h with h | h
        · exact .inr (.inl h)
        · exact (ih h).imp id .inr

/-- A write of one byte is read back. -/
@[simp] theorem Memory.read_write_same (m : Memory) (a : Nat) (v : Byte) : (m.write a v).read a = v := by
  simp [Memory.read, Memory.written, Memory.write, cellsFind_put_same]

/-- A write of one byte leaves every other byte, a free value of an unwritten byte included. -/
theorem Memory.read_write_other (m : Memory) (a b : Nat) (v : Byte) (h : b ≠ a) : (m.write a v).read b = m.read b := by
  simp [Memory.read, Memory.written, Memory.write, cellsFind_put_other _ _ _ _ h]

/-- Reading one byte after writing one byte. -/
theorem Memory.read_write (m : Memory) (a b : Nat) (v : Byte) :
    (m.write a v).read b = if b = a then v else m.read b := by
  split
  · rename_i h; subst h; exact m.read_write_same b v
  · rename_i h; exact m.read_write_other a b v h

@[simp] theorem Memory.write_epoch (m : Memory) (a : Nat) (v : Byte) : (m.write a v).epoch = m.epoch := rfl

@[simp] theorem Memory.writeWord_epoch (m : Memory) (a : Nat) (w : Word) : (m.writeWord a w).epoch = m.epoch := rfl

/-- A write of one byte keeps the canonical form. -/
theorem Memory.wf_write (m : Memory) (a : Nat) (v : Byte) (h : m.wf = true) : (m.write a v).wf = true :=
  cellsRising_put _ _ _ h

/-- A write of one word keeps the canonical form. -/
theorem Memory.wf_writeWord (m : Memory) (a : Nat) (w : Word) (h : m.wf = true) : (m.writeWord a w).wf = true := by
  unfold Memory.writeWord
  exact Memory.wf_write _ _ _ (Memory.wf_write _ _ _ (Memory.wf_write _ _ _ (Memory.wf_write _ _ _ h)))

/-- A write of one word is seen at its four bytes only. -/
theorem Memory.read_writeWord (m : Memory) (a b : Nat) (w : Word) :
    (m.writeWord a w).read b =
      if b = a + 3 then w.extractLsb' 24 8 else if b = a + 2 then w.extractLsb' 16 8
      else if b = a + 1 then w.extractLsb' 8 8 else if b = a then w.extractLsb' 0 8 else m.read b := by
  simp only [Memory.writeWord, Memory.read_write]

/-- A write of one word leaves every byte outside it. -/
theorem Memory.read_writeWord_other (m : Memory) (a b : Nat) (w : Word) (h : b < a ∨ a + 4 ≤ b) :
    (m.writeWord a w).read b = m.read b := by
  rw [Memory.read_writeWord]
  repeat' split
  all_goals first | rfl | omega

/-- A word written is read back. -/
theorem Memory.readWord_writeWord (m : Memory) (a : Nat) (w : Word) : (m.writeWord a w).readWord a = w := by
  simp only [Memory.readWord, Memory.read_writeWord]
  simp only [Nat.add_left_cancel_iff, Nat.reduceEqDiff, if_true, if_false, Nat.left_eq_add, Nat.add_eq_left]
  ext i hi
  simp only [BitVec.getElem_append, BitVec.getElem_extractLsb']
  repeat' split
  all_goals (rw [BitVec.getLsbD_eq_getElem (by omega)]; congr 1; omega)

/-- A word is the word before a write that leaves its four bytes. -/
theorem Memory.readWord_congr (m m' : Memory) (a : Nat) (h : ∀ b, a ≤ b → b < a + 4 → m'.read b = m.read b) :
    m'.readWord a = m.readWord a := by
  unfold Memory.readWord
  rw [h a, h (a + 1), h (a + 2), h (a + 3)] <;> omega

end Sys2Proof.Machine
end

