-- ==== Sys2Proof/Laws/State.lean ====
section
/-! SUPPORT. The fields of a state after each named update: one lemma per field an update leaves, and the value of each field
it writes. -/

namespace Sys2Proof.Machine

variable (s : State)

@[simp] theorem State.setBlock_eob (n : BitVec 5) (b : Block) : (s.setBlock n b).eob = s.eob := rfl
@[simp] theorem State.setBlock_fstat (n : BitVec 5) (b : Block) : (s.setBlock n b).fstat = s.fstat := rfl
@[simp] theorem State.setBlock_fcause (n : BitVec 5) (b : Block) : (s.setBlock n b).fcause = s.fcause := rfl
@[simp] theorem State.setBlock_finfo (n : BitVec 5) (b : Block) : (s.setBlock n b).finfo = s.finfo := rfl
@[simp] theorem State.setBlock_qidx (n : BitVec 5) (b : Block) : (s.setBlock n b).qidx = s.qidx := rfl
@[simp] theorem State.setBlock_zbinx (n : BitVec 5) (b : Block) : (s.setBlock n b).zbinx = s.zbinx := rfl
@[simp] theorem State.setBlock_obase (n : BitVec 5) (b : Block) : (s.setBlock n b).obase = s.obase := rfl
@[simp] theorem State.setBlock_olimit (n : BitVec 5) (b : Block) : (s.setBlock n b).olimit = s.olimit := rfl
@[simp] theorem State.setBlock_bcActive (n : BitVec 5) (b : Block) : (s.setBlock n b).bcActive = s.bcActive := rfl
@[simp] theorem State.setBlock_bcRange (n : BitVec 5) (b : Block) : (s.setBlock n b).bcRange = s.bcRange := rfl
@[simp] theorem State.setBlock_bcLow (n : BitVec 5) (b : Block) : (s.setBlock n b).bcLow = s.bcLow := rfl
@[simp] theorem State.setBlock_bcCount (n : BitVec 5) (b : Block) : (s.setBlock n b).bcCount = s.bcCount := rfl
@[simp] theorem State.setBlock_bcPos (n : BitVec 5) (b : Block) : (s.setBlock n b).bcPos = s.bcPos := rfl
@[simp] theorem State.setBlock_blen (n : BitVec 5) (b : Block) : (s.setBlock n b).blen = s.blen := rfl
@[simp] theorem State.setBlock_tkwp (n : BitVec 5) (b : Block) : (s.setBlock n b).tkwp = s.tkwp := rfl
@[simp] theorem State.setBlock_tkrp (n : BitVec 5) (b : Block) : (s.setBlock n b).tkrp = s.tkrp := rfl
@[simp] theorem State.setBlock_cost (n : BitVec 5) (b : Block) : (s.setBlock n b).cost = s.cost := rfl
@[simp] theorem State.setBlock_tkcnt (n : BitVec 5) (b : Block) : (s.setBlock n b).tkcnt = s.tkcnt := rfl
@[simp] theorem State.setBlock_mem (n : BitVec 5) (b : Block) : (s.setBlock n b).mem = s.mem := rfl
@[simp] theorem State.setBlock_cfg (n : BitVec 5) (b : Block) : (s.setBlock n b).cfg = s.cfg := rfl
@[simp] theorem State.setBlock_bus (n : BitVec 5) (b : Block) : (s.setBlock n b).bus = s.bus := rfl
@[simp] theorem State.setBlock_rdata (n : BitVec 5) (b : Block) : (s.setBlock n b).rdata = s.rdata := rfl

@[simp] theorem State.setLane_eob (n : BitVec 5) (i : BitVec 4) (v : Lane) : (s.setLane n i v).eob = s.eob := rfl
@[simp] theorem State.setLane_fstat (n : BitVec 5) (i : BitVec 4) (v : Lane) : (s.setLane n i v).fstat = s.fstat := rfl
@[simp] theorem State.setLane_fcause (n : BitVec 5) (i : BitVec 4) (v : Lane) : (s.setLane n i v).fcause = s.fcause := rfl
@[simp] theorem State.setLane_finfo (n : BitVec 5) (i : BitVec 4) (v : Lane) : (s.setLane n i v).finfo = s.finfo := rfl
@[simp] theorem State.setLane_qidx (n : BitVec 5) (i : BitVec 4) (v : Lane) : (s.setLane n i v).qidx = s.qidx := rfl
@[simp] theorem State.setLane_zbinx (n : BitVec 5) (i : BitVec 4) (v : Lane) : (s.setLane n i v).zbinx = s.zbinx := rfl
@[simp] theorem State.setLane_obase (n : BitVec 5) (i : BitVec 4) (v : Lane) : (s.setLane n i v).obase = s.obase := rfl
@[simp] theorem State.setLane_olimit (n : BitVec 5) (i : BitVec 4) (v : Lane) : (s.setLane n i v).olimit = s.olimit := rfl
@[simp] theorem State.setLane_bcActive (n : BitVec 5) (i : BitVec 4) (v : Lane) : (s.setLane n i v).bcActive = s.bcActive := rfl
@[simp] theorem State.setLane_bcRange (n : BitVec 5) (i : BitVec 4) (v : Lane) : (s.setLane n i v).bcRange = s.bcRange := rfl
@[simp] theorem State.setLane_bcLow (n : BitVec 5) (i : BitVec 4) (v : Lane) : (s.setLane n i v).bcLow = s.bcLow := rfl
@[simp] theorem State.setLane_bcCount (n : BitVec 5) (i : BitVec 4) (v : Lane) : (s.setLane n i v).bcCount = s.bcCount := rfl
@[simp] theorem State.setLane_bcPos (n : BitVec 5) (i : BitVec 4) (v : Lane) : (s.setLane n i v).bcPos = s.bcPos := rfl
@[simp] theorem State.setLane_blen (n : BitVec 5) (i : BitVec 4) (v : Lane) : (s.setLane n i v).blen = s.blen := rfl
@[simp] theorem State.setLane_tkwp (n : BitVec 5) (i : BitVec 4) (v : Lane) : (s.setLane n i v).tkwp = s.tkwp := rfl
@[simp] theorem State.setLane_tkrp (n : BitVec 5) (i : BitVec 4) (v : Lane) : (s.setLane n i v).tkrp = s.tkrp := rfl
@[simp] theorem State.setLane_cost (n : BitVec 5) (i : BitVec 4) (v : Lane) : (s.setLane n i v).cost = s.cost := rfl
@[simp] theorem State.setLane_tkcnt (n : BitVec 5) (i : BitVec 4) (v : Lane) : (s.setLane n i v).tkcnt = s.tkcnt := rfl
@[simp] theorem State.setLane_mem (n : BitVec 5) (i : BitVec 4) (v : Lane) : (s.setLane n i v).mem = s.mem := rfl
@[simp] theorem State.setLane_cfg (n : BitVec 5) (i : BitVec 4) (v : Lane) : (s.setLane n i v).cfg = s.cfg := rfl
@[simp] theorem State.setLane_bus (n : BitVec 5) (i : BitVec 4) (v : Lane) : (s.setLane n i v).bus = s.bus := rfl
@[simp] theorem State.setLane_rdata (n : BitVec 5) (i : BitVec 4) (v : Lane) : (s.setLane n i v).rdata = s.rdata := rfl

@[simp] theorem State.setEobTag_br (n v : BitVec 5) : (s.setEobTag n v).br = s.br := rfl
@[simp] theorem State.setEobTag_fstat (n v : BitVec 5) : (s.setEobTag n v).fstat = s.fstat := rfl
@[simp] theorem State.setEobTag_fcause (n v : BitVec 5) : (s.setEobTag n v).fcause = s.fcause := rfl
@[simp] theorem State.setEobTag_finfo (n v : BitVec 5) : (s.setEobTag n v).finfo = s.finfo := rfl
@[simp] theorem State.setEobTag_qidx (n v : BitVec 5) : (s.setEobTag n v).qidx = s.qidx := rfl
@[simp] theorem State.setEobTag_zbinx (n v : BitVec 5) : (s.setEobTag n v).zbinx = s.zbinx := rfl
@[simp] theorem State.setEobTag_obase (n v : BitVec 5) : (s.setEobTag n v).obase = s.obase := rfl
@[simp] theorem State.setEobTag_olimit (n v : BitVec 5) : (s.setEobTag n v).olimit = s.olimit := rfl
@[simp] theorem State.setEobTag_bcActive (n v : BitVec 5) : (s.setEobTag n v).bcActive = s.bcActive := rfl
@[simp] theorem State.setEobTag_bcRange (n v : BitVec 5) : (s.setEobTag n v).bcRange = s.bcRange := rfl
@[simp] theorem State.setEobTag_bcLow (n v : BitVec 5) : (s.setEobTag n v).bcLow = s.bcLow := rfl
@[simp] theorem State.setEobTag_bcCount (n v : BitVec 5) : (s.setEobTag n v).bcCount = s.bcCount := rfl
@[simp] theorem State.setEobTag_bcPos (n v : BitVec 5) : (s.setEobTag n v).bcPos = s.bcPos := rfl
@[simp] theorem State.setEobTag_blen (n v : BitVec 5) : (s.setEobTag n v).blen = s.blen := rfl
@[simp] theorem State.setEobTag_tkwp (n v : BitVec 5) : (s.setEobTag n v).tkwp = s.tkwp := rfl
@[simp] theorem State.setEobTag_tkrp (n v : BitVec 5) : (s.setEobTag n v).tkrp = s.tkrp := rfl
@[simp] theorem State.setEobTag_cost (n v : BitVec 5) : (s.setEobTag n v).cost = s.cost := rfl
@[simp] theorem State.setEobTag_tkcnt (n v : BitVec 5) : (s.setEobTag n v).tkcnt = s.tkcnt := rfl
@[simp] theorem State.setEobTag_mem (n v : BitVec 5) : (s.setEobTag n v).mem = s.mem := rfl
@[simp] theorem State.setEobTag_cfg (n v : BitVec 5) : (s.setEobTag n v).cfg = s.cfg := rfl
@[simp] theorem State.setEobTag_bus (n v : BitVec 5) : (s.setEobTag n v).bus = s.bus := rfl
@[simp] theorem State.setEobTag_rdata (n v : BitVec 5) : (s.setEobTag n v).rdata = s.rdata := rfl

@[simp] theorem State.setCostm_br (v c : Nat) : (s.setCostm v c).br = s.br := rfl
@[simp] theorem State.setCostm_eob (v c : Nat) : (s.setCostm v c).eob = s.eob := rfl
@[simp] theorem State.setCostm_fstat (v c : Nat) : (s.setCostm v c).fstat = s.fstat := rfl
@[simp] theorem State.setCostm_fcause (v c : Nat) : (s.setCostm v c).fcause = s.fcause := rfl
@[simp] theorem State.setCostm_finfo (v c : Nat) : (s.setCostm v c).finfo = s.finfo := rfl
@[simp] theorem State.setCostm_qidx (v c : Nat) : (s.setCostm v c).qidx = s.qidx := rfl
@[simp] theorem State.setCostm_zbinx (v c : Nat) : (s.setCostm v c).zbinx = s.zbinx := rfl
@[simp] theorem State.setCostm_obase (v c : Nat) : (s.setCostm v c).obase = s.obase := rfl
@[simp] theorem State.setCostm_olimit (v c : Nat) : (s.setCostm v c).olimit = s.olimit := rfl
@[simp] theorem State.setCostm_bcActive (v c : Nat) : (s.setCostm v c).bcActive = s.bcActive := rfl
@[simp] theorem State.setCostm_bcRange (v c : Nat) : (s.setCostm v c).bcRange = s.bcRange := rfl
@[simp] theorem State.setCostm_bcLow (v c : Nat) : (s.setCostm v c).bcLow = s.bcLow := rfl
@[simp] theorem State.setCostm_bcCount (v c : Nat) : (s.setCostm v c).bcCount = s.bcCount := rfl
@[simp] theorem State.setCostm_bcPos (v c : Nat) : (s.setCostm v c).bcPos = s.bcPos := rfl
@[simp] theorem State.setCostm_blen (v c : Nat) : (s.setCostm v c).blen = s.blen := rfl
@[simp] theorem State.setCostm_tkwp (v c : Nat) : (s.setCostm v c).tkwp = s.tkwp := rfl
@[simp] theorem State.setCostm_tkrp (v c : Nat) : (s.setCostm v c).tkrp = s.tkrp := rfl
@[simp] theorem State.setCostm_cost (v c : Nat) : (s.setCostm v c).cost = s.cost := rfl
@[simp] theorem State.setCostm_tkcnt (v c : Nat) : (s.setCostm v c).tkcnt = s.tkcnt := rfl
@[simp] theorem State.setCostm_cfg (v c : Nat) : (s.setCostm v c).cfg = s.cfg := rfl
@[simp] theorem State.setCostm_bus (v c : Nat) : (s.setCostm v c).bus = s.bus := rfl
@[simp] theorem State.setCostm_rdata (v c : Nat) : (s.setCostm v c).rdata = s.rdata := rfl

@[simp] theorem State.setTokm_br (k : Nat) (w : Word) : (s.setTokm k w).br = s.br := rfl
@[simp] theorem State.setTokm_eob (k : Nat) (w : Word) : (s.setTokm k w).eob = s.eob := rfl
@[simp] theorem State.setTokm_fstat (k : Nat) (w : Word) : (s.setTokm k w).fstat = s.fstat := rfl
@[simp] theorem State.setTokm_fcause (k : Nat) (w : Word) : (s.setTokm k w).fcause = s.fcause := rfl
@[simp] theorem State.setTokm_finfo (k : Nat) (w : Word) : (s.setTokm k w).finfo = s.finfo := rfl
@[simp] theorem State.setTokm_qidx (k : Nat) (w : Word) : (s.setTokm k w).qidx = s.qidx := rfl
@[simp] theorem State.setTokm_zbinx (k : Nat) (w : Word) : (s.setTokm k w).zbinx = s.zbinx := rfl
@[simp] theorem State.setTokm_obase (k : Nat) (w : Word) : (s.setTokm k w).obase = s.obase := rfl
@[simp] theorem State.setTokm_olimit (k : Nat) (w : Word) : (s.setTokm k w).olimit = s.olimit := rfl
@[simp] theorem State.setTokm_bcActive (k : Nat) (w : Word) : (s.setTokm k w).bcActive = s.bcActive := rfl
@[simp] theorem State.setTokm_bcRange (k : Nat) (w : Word) : (s.setTokm k w).bcRange = s.bcRange := rfl
@[simp] theorem State.setTokm_bcLow (k : Nat) (w : Word) : (s.setTokm k w).bcLow = s.bcLow := rfl
@[simp] theorem State.setTokm_bcCount (k : Nat) (w : Word) : (s.setTokm k w).bcCount = s.bcCount := rfl
@[simp] theorem State.setTokm_bcPos (k : Nat) (w : Word) : (s.setTokm k w).bcPos = s.bcPos := rfl
@[simp] theorem State.setTokm_blen (k : Nat) (w : Word) : (s.setTokm k w).blen = s.blen := rfl
@[simp] theorem State.setTokm_tkwp (k : Nat) (w : Word) : (s.setTokm k w).tkwp = s.tkwp := rfl
@[simp] theorem State.setTokm_tkrp (k : Nat) (w : Word) : (s.setTokm k w).tkrp = s.tkrp := rfl
@[simp] theorem State.setTokm_cost (k : Nat) (w : Word) : (s.setTokm k w).cost = s.cost := rfl
@[simp] theorem State.setTokm_tkcnt (k : Nat) (w : Word) : (s.setTokm k w).tkcnt = s.tkcnt := rfl
@[simp] theorem State.setTokm_cfg (k : Nat) (w : Word) : (s.setTokm k w).cfg = s.cfg := rfl
@[simp] theorem State.setTokm_bus (k : Nat) (w : Word) : (s.setTokm k w).bus = s.bus := rfl
@[simp] theorem State.setTokm_rdata (k : Nat) (w : Word) : (s.setTokm k w).rdata = s.rdata := rfl

@[simp] theorem State.startCoder_br : (s.startCoder).br = s.br := rfl
@[simp] theorem State.startCoder_eob : (s.startCoder).eob = s.eob := rfl
@[simp] theorem State.startCoder_fstat : (s.startCoder).fstat = s.fstat := rfl
@[simp] theorem State.startCoder_fcause : (s.startCoder).fcause = s.fcause := rfl
@[simp] theorem State.startCoder_finfo : (s.startCoder).finfo = s.finfo := rfl
@[simp] theorem State.startCoder_qidx : (s.startCoder).qidx = s.qidx := rfl
@[simp] theorem State.startCoder_zbinx : (s.startCoder).zbinx = s.zbinx := rfl
@[simp] theorem State.startCoder_obase : (s.startCoder).obase = s.obase := rfl
@[simp] theorem State.startCoder_olimit : (s.startCoder).olimit = s.olimit := rfl
@[simp] theorem State.startCoder_blen : (s.startCoder).blen = s.blen := rfl
@[simp] theorem State.startCoder_tkwp : (s.startCoder).tkwp = s.tkwp := rfl
@[simp] theorem State.startCoder_tkrp : (s.startCoder).tkrp = s.tkrp := rfl
@[simp] theorem State.startCoder_cost : (s.startCoder).cost = s.cost := rfl
@[simp] theorem State.startCoder_tkcnt : (s.startCoder).tkcnt = s.tkcnt := rfl
@[simp] theorem State.startCoder_mem : (s.startCoder).mem = s.mem := rfl
@[simp] theorem State.startCoder_cfg : (s.startCoder).cfg = s.cfg := rfl
@[simp] theorem State.startCoder_bus : (s.startCoder).bus = s.bus := rfl
@[simp] theorem State.startCoder_rdata : (s.startCoder).rdata = s.rdata := rfl

@[simp] theorem State.stopCoder_br : (s.stopCoder).br = s.br := rfl
@[simp] theorem State.stopCoder_eob : (s.stopCoder).eob = s.eob := rfl
@[simp] theorem State.stopCoder_fstat : (s.stopCoder).fstat = s.fstat := rfl
@[simp] theorem State.stopCoder_fcause : (s.stopCoder).fcause = s.fcause := rfl
@[simp] theorem State.stopCoder_finfo : (s.stopCoder).finfo = s.finfo := rfl
@[simp] theorem State.stopCoder_qidx : (s.stopCoder).qidx = s.qidx := rfl
@[simp] theorem State.stopCoder_zbinx : (s.stopCoder).zbinx = s.zbinx := rfl
@[simp] theorem State.stopCoder_obase : (s.stopCoder).obase = s.obase := rfl
@[simp] theorem State.stopCoder_olimit : (s.stopCoder).olimit = s.olimit := rfl
@[simp] theorem State.stopCoder_bcRange : (s.stopCoder).bcRange = s.bcRange := rfl
@[simp] theorem State.stopCoder_bcLow : (s.stopCoder).bcLow = s.bcLow := rfl
@[simp] theorem State.stopCoder_bcCount : (s.stopCoder).bcCount = s.bcCount := rfl
@[simp] theorem State.stopCoder_bcPos : (s.stopCoder).bcPos = s.bcPos := rfl
@[simp] theorem State.stopCoder_tkwp : (s.stopCoder).tkwp = s.tkwp := rfl
@[simp] theorem State.stopCoder_tkrp : (s.stopCoder).tkrp = s.tkrp := rfl
@[simp] theorem State.stopCoder_cost : (s.stopCoder).cost = s.cost := rfl
@[simp] theorem State.stopCoder_tkcnt : (s.stopCoder).tkcnt = s.tkcnt := rfl
@[simp] theorem State.stopCoder_mem : (s.stopCoder).mem = s.mem := rfl
@[simp] theorem State.stopCoder_cfg : (s.stopCoder).cfg = s.cfg := rfl
@[simp] theorem State.stopCoder_bus : (s.stopCoder).bus = s.bus := rfl
@[simp] theorem State.stopCoder_rdata : (s.stopCoder).rdata = s.rdata := rfl

@[simp] theorem State.withCoder_br (c : Coder) : (s.withCoder c).br = s.br := rfl
@[simp] theorem State.withCoder_eob (c : Coder) : (s.withCoder c).eob = s.eob := rfl
@[simp] theorem State.withCoder_fstat (c : Coder) : (s.withCoder c).fstat = s.fstat := rfl
@[simp] theorem State.withCoder_fcause (c : Coder) : (s.withCoder c).fcause = s.fcause := rfl
@[simp] theorem State.withCoder_finfo (c : Coder) : (s.withCoder c).finfo = s.finfo := rfl
@[simp] theorem State.withCoder_qidx (c : Coder) : (s.withCoder c).qidx = s.qidx := rfl
@[simp] theorem State.withCoder_zbinx (c : Coder) : (s.withCoder c).zbinx = s.zbinx := rfl
@[simp] theorem State.withCoder_obase (c : Coder) : (s.withCoder c).obase = s.obase := rfl
@[simp] theorem State.withCoder_olimit (c : Coder) : (s.withCoder c).olimit = s.olimit := rfl
@[simp] theorem State.withCoder_bcActive (c : Coder) : (s.withCoder c).bcActive = s.bcActive := rfl
@[simp] theorem State.withCoder_blen (c : Coder) : (s.withCoder c).blen = s.blen := rfl
@[simp] theorem State.withCoder_tkwp (c : Coder) : (s.withCoder c).tkwp = s.tkwp := rfl
@[simp] theorem State.withCoder_tkrp (c : Coder) : (s.withCoder c).tkrp = s.tkrp := rfl
@[simp] theorem State.withCoder_cost (c : Coder) : (s.withCoder c).cost = s.cost := rfl
@[simp] theorem State.withCoder_tkcnt (c : Coder) : (s.withCoder c).tkcnt = s.tkcnt := rfl
@[simp] theorem State.withCoder_cfg (c : Coder) : (s.withCoder c).cfg = s.cfg := rfl
@[simp] theorem State.withCoder_bus (c : Coder) : (s.withCoder c).bus = s.bus := rfl
@[simp] theorem State.withCoder_rdata (c : Coder) : (s.withCoder c).rdata = s.rdata := rfl

@[simp] theorem State.raise_br (code : FaultCode) (w : Word) : (s.raise code w).br = s.br := by unfold State.raise; split <;> rfl
@[simp] theorem State.raise_eob (code : FaultCode) (w : Word) : (s.raise code w).eob = s.eob := by unfold State.raise; split <;> rfl
@[simp] theorem State.raise_qidx (code : FaultCode) (w : Word) : (s.raise code w).qidx = s.qidx := by unfold State.raise; split <;> rfl
@[simp] theorem State.raise_zbinx (code : FaultCode) (w : Word) : (s.raise code w).zbinx = s.zbinx := by unfold State.raise; split <;> rfl
@[simp] theorem State.raise_obase (code : FaultCode) (w : Word) : (s.raise code w).obase = s.obase := by unfold State.raise; split <;> rfl
@[simp] theorem State.raise_olimit (code : FaultCode) (w : Word) : (s.raise code w).olimit = s.olimit := by unfold State.raise; split <;> rfl
@[simp] theorem State.raise_bcActive (code : FaultCode) (w : Word) : (s.raise code w).bcActive = s.bcActive := by unfold State.raise; split <;> rfl
@[simp] theorem State.raise_bcRange (code : FaultCode) (w : Word) : (s.raise code w).bcRange = s.bcRange := by unfold State.raise; split <;> rfl
@[simp] theorem State.raise_bcLow (code : FaultCode) (w : Word) : (s.raise code w).bcLow = s.bcLow := by unfold State.raise; split <;> rfl
@[simp] theorem State.raise_bcCount (code : FaultCode) (w : Word) : (s.raise code w).bcCount = s.bcCount := by unfold State.raise; split <;> rfl
@[simp] theorem State.raise_bcPos (code : FaultCode) (w : Word) : (s.raise code w).bcPos = s.bcPos := by unfold State.raise; split <;> rfl
@[simp] theorem State.raise_blen (code : FaultCode) (w : Word) : (s.raise code w).blen = s.blen := by unfold State.raise; split <;> rfl
@[simp] theorem State.raise_tkwp (code : FaultCode) (w : Word) : (s.raise code w).tkwp = s.tkwp := by unfold State.raise; split <;> rfl
@[simp] theorem State.raise_tkrp (code : FaultCode) (w : Word) : (s.raise code w).tkrp = s.tkrp := by unfold State.raise; split <;> rfl
@[simp] theorem State.raise_cost (code : FaultCode) (w : Word) : (s.raise code w).cost = s.cost := by unfold State.raise; split <;> rfl
@[simp] theorem State.raise_tkcnt (code : FaultCode) (w : Word) : (s.raise code w).tkcnt = s.tkcnt := by unfold State.raise; split <;> rfl
@[simp] theorem State.raise_mem (code : FaultCode) (w : Word) : (s.raise code w).mem = s.mem := by unfold State.raise; split <;> rfl
@[simp] theorem State.raise_cfg (code : FaultCode) (w : Word) : (s.raise code w).cfg = s.cfg := by unfold State.raise; split <;> rfl
@[simp] theorem State.raise_bus (code : FaultCode) (w : Word) : (s.raise code w).bus = s.bus := by unfold State.raise; split <;> rfl
@[simp] theorem State.raise_rdata (code : FaultCode) (w : Word) : (s.raise code w).rdata = s.rdata := by unfold State.raise; split <;> rfl

@[simp] theorem State.clearFaults_br (d : Word) : (s.clearFaults d).br = s.br := by unfold State.clearFaults; split <;> rfl
@[simp] theorem State.clearFaults_eob (d : Word) : (s.clearFaults d).eob = s.eob := by unfold State.clearFaults; split <;> rfl
@[simp] theorem State.clearFaults_qidx (d : Word) : (s.clearFaults d).qidx = s.qidx := by unfold State.clearFaults; split <;> rfl
@[simp] theorem State.clearFaults_zbinx (d : Word) : (s.clearFaults d).zbinx = s.zbinx := by unfold State.clearFaults; split <;> rfl
@[simp] theorem State.clearFaults_obase (d : Word) : (s.clearFaults d).obase = s.obase := by unfold State.clearFaults; split <;> rfl
@[simp] theorem State.clearFaults_olimit (d : Word) : (s.clearFaults d).olimit = s.olimit := by unfold State.clearFaults; split <;> rfl
@[simp] theorem State.clearFaults_bcActive (d : Word) : (s.clearFaults d).bcActive = s.bcActive := by unfold State.clearFaults; split <;> rfl
@[simp] theorem State.clearFaults_bcRange (d : Word) : (s.clearFaults d).bcRange = s.bcRange := by unfold State.clearFaults; split <;> rfl
@[simp] theorem State.clearFaults_bcLow (d : Word) : (s.clearFaults d).bcLow = s.bcLow := by unfold State.clearFaults; split <;> rfl
@[simp] theorem State.clearFaults_bcCount (d : Word) : (s.clearFaults d).bcCount = s.bcCount := by unfold State.clearFaults; split <;> rfl
@[simp] theorem State.clearFaults_bcPos (d : Word) : (s.clearFaults d).bcPos = s.bcPos := by unfold State.clearFaults; split <;> rfl
@[simp] theorem State.clearFaults_blen (d : Word) : (s.clearFaults d).blen = s.blen := by unfold State.clearFaults; split <;> rfl
@[simp] theorem State.clearFaults_tkwp (d : Word) : (s.clearFaults d).tkwp = s.tkwp := by unfold State.clearFaults; split <;> rfl
@[simp] theorem State.clearFaults_tkrp (d : Word) : (s.clearFaults d).tkrp = s.tkrp := by unfold State.clearFaults; split <;> rfl
@[simp] theorem State.clearFaults_cost (d : Word) : (s.clearFaults d).cost = s.cost := by unfold State.clearFaults; split <;> rfl
@[simp] theorem State.clearFaults_tkcnt (d : Word) : (s.clearFaults d).tkcnt = s.tkcnt := by unfold State.clearFaults; split <;> rfl
@[simp] theorem State.clearFaults_mem (d : Word) : (s.clearFaults d).mem = s.mem := by unfold State.clearFaults; split <;> rfl
@[simp] theorem State.clearFaults_cfg (d : Word) : (s.clearFaults d).cfg = s.cfg := by unfold State.clearFaults; split <;> rfl
@[simp] theorem State.clearFaults_bus (d : Word) : (s.clearFaults d).bus = s.bus := by unfold State.clearFaults; split <;> rfl
@[simp] theorem State.clearFaults_rdata (d : Word) : (s.clearFaults d).rdata = s.rdata := by unfold State.clearFaults; split <;> rfl

@[simp] theorem State.setBlock_br (n : BitVec 5) (b : Block) : (s.setBlock n b).br = s.br.set n.toNat b n.isLt := rfl
@[simp] theorem State.setEobTag_eob (n v : BitVec 5) : (s.setEobTag n v).eob = s.eob.set n.toNat v n.isLt := rfl
@[simp] theorem State.setCostm_mem (v c : Nat) :
    (s.setCostm v c).mem = s.mem.writeWord (costmAddr v) (BitVec.ofNat 32 c) := rfl
@[simp] theorem State.setTokm_mem (k : Nat) (w : Word) : (s.setTokm k w).mem = s.mem.writeWord (tokmAddr k) w := rfl
@[simp] theorem State.startCoder_bcRange : s.startCoder.bcRange = 255 := rfl
@[simp] theorem State.startCoder_bcLow : s.startCoder.bcLow = 0 := rfl
@[simp] theorem State.startCoder_bcCount : s.startCoder.bcCount = 24 := rfl
@[simp] theorem State.startCoder_bcPos : s.startCoder.bcPos = s.obase := rfl
@[simp] theorem State.startCoder_bcActive : s.startCoder.bcActive = 1 := rfl
@[simp] theorem State.stopCoder_blen : s.stopCoder.blen = s.bcPos - s.obase := rfl
@[simp] theorem State.stopCoder_bcActive : s.stopCoder.bcActive = 0 := rfl
@[simp] theorem State.withCoder_bcRange (c : Coder) : (s.withCoder c).bcRange = BitVec.ofNat 8 c.range := rfl
@[simp] theorem State.withCoder_bcLow (c : Coder) : (s.withCoder c).bcLow = BitVec.ofNat 32 c.low := rfl
@[simp] theorem State.withCoder_bcCount (c : Coder) : (s.withCoder c).bcCount = BitVec.ofNat 5 c.count := rfl
@[simp] theorem State.withCoder_bcPos (c : Coder) : (s.withCoder c).bcPos = BitVec.ofNat 32 c.pos := rfl
@[simp] theorem State.withCoder_mem (c : Coder) : (s.withCoder c).mem = c.mem := rfl

/-- `FSTAT` after a fault is the old one with the class bit set, whether or not it is the first fault. -/
@[simp] theorem State.raise_fstat (code : FaultCode) (w : Word) : (s.raise code w).fstat = fstatAfter s.fstat code := by
  unfold State.raise; split <;> rfl

/-- The cause registers after a fault: written by the first fault only. -/
theorem State.raise_fcause (code : FaultCode) (w : Word) :
    (s.raise code w).fcause = if s.fstat = 0 then code.number else s.fcause := by
  unfold State.raise; split <;> rfl

/-- See `State.raise_fcause`. -/
theorem State.raise_finfo (code : FaultCode) (w : Word) :
    (s.raise code w).finfo = if s.fstat = 0 then w else s.finfo := by
  unfold State.raise; split <;> rfl

/-- `FSTAT` after a write to `FCLR`. -/
@[simp] theorem State.clearFaults_fstat (d : Word) : (s.clearFaults d).fstat = fstatCleared s.fstat d := by
  unfold State.clearFaults
  split
  · rename_i h; exact h.symm
  · rfl

/-- The block a write of a block register leaves there. -/
@[simp] theorem State.setBlock_block_same (n : BitVec 5) (b : Block) : (s.setBlock n b).block n = b := by
  simp [State.block]

/-- The other block registers keep their lanes. -/
theorem State.setBlock_block_other (n m : BitVec 5) (b : Block) (h : m ≠ n) :
    (s.setBlock n b).block m = s.block m := by
  have h' : n.toNat ≠ m.toNat := fun e => h (BitVec.eq_of_toNat_eq e.symm)
  simp [State.block, h']

/-- The tag a write of an EOB tag leaves there. -/
@[simp] theorem State.setEobTag_eobTag_same (n v : BitVec 5) : (s.setEobTag n v).eobTag n = v := by
  simp [State.eobTag]

/-- The other EOB tags stay. -/
theorem State.setEobTag_eobTag_other (n m v : BitVec 5) (h : m ≠ n) : (s.setEobTag n v).eobTag m = s.eobTag m := by
  have h' : n.toNat ≠ m.toNat := fun e => h (BitVec.eq_of_toNat_eq e.symm)
  simp [State.eobTag, h']

end Sys2Proof.Machine
end

