-- ==== Sys2Proof/Laws/Ops.lean ====
section
/-! SUPPORT. For each shared operation, once, everything it can do. -/

namespace Sys2Proof.Machine

/-! ## Ending a command -/

@[simp] theorem Run.settle_done (w : Word) (s : State) : (Run.done s).settle w = s := rfl

@[simp] theorem Run.settle_raised (w : Word) (code : FaultCode) (s : State) :
    (Run.raised code s).settle w = s.raise code w := rfl

/-- Every meaning answers a next state. -/
theorem finish_next (i : Instr) (r : Run) : finish i r = .next (r.settle (encode i)) := rfl

/-! ## Lanes -/

@[simp] theorem trunc16_eq_laneOf (v : Int) : (laneOf v).toInt = trunc16 v := rfl

/-- Lane `i` of a block as the machine reads it. -/
theorem lane_eq (b : Block) (i : Nat) (h : i < 16) : lane b i = b[i].toInt := by simp [lane, h]

/-- A lane of a block built from integers. -/
theorem lane_blockOf (y : Nat → Int) (i : Nat) (h : i < 16) : lane (blockOf y) i = trunc16 (y i) := by
  simp [lane, blockOf, h]

/-! ## The boolean coder -/

/-- A carry that finds a byte to take it: the last byte of the `n` that is not 0xFF is incremented, the 0xFF bytes after it
become 0x00, and no other byte changes. -/
theorem carryInto_some (base n : Nat) (m m' : Memory) (h : carryInto base n m = some m') :
    ∃ k, k < n ∧ m.obuf (base + k) ≠ 0xFF ∧ (∀ j, k < j → j < n → m.obuf (base + j) = 0xFF) ∧
      m'.obuf (base + k) = m.obuf (base + k) + 1 ∧ (∀ j, k < j → j < n → m'.obuf (base + j) = 0x00) ∧
      ∀ a, (a < obufAddr (base + k) ∨ obufAddr (base + n) ≤ a) → m'.read a = m.read a := by
  induction n generalizing m with
  | zero => simp [carryInto] at h
  | succ n ih =>
    unfold carryInto at h
    split at h
    · rename_i hff
      have other : ∀ j, j < n →
          (m.write (obufAddr (base + n)) 0).obuf (base + j) = m.obuf (base + j) := fun j hj => by
        simp only [Memory.obuf]
        exact Memory.read_write_other _ _ _ _ (by simp [obufAddr]; omega)
      obtain ⟨k, hk, hne, hrun, hinc, hzero, hrest⟩ := ih _ h
      refine ⟨k, by omega, ?_, ?_, ?_, ?_, ?_⟩
      · rwa [other k hk] at hne
      · intro j hkj hj
        by_cases e : j = n
        · subst e; exact hff
        · rw [← other j (by omega)]; exact hrun j hkj (by omega)
      · rw [hinc, other k hk]
      · intro j hkj hj
        by_cases e : j = n
        · subst e
          show m'.read _ = _
          rw [hrest _ (.inr (by simp))]
          exact Memory.read_write_same _ _ _
        · exact hzero j hkj (by omega)
      · intro a ha
        have hne : a ≠ obufAddr (base + n) := by simp only [obufAddr] at ha ⊢; omega
        rw [hrest a (by simp only [obufAddr] at ha ⊢; omega), Memory.read_write_other _ _ _ _ hne]
    · rename_i hne
      injection h with h
      subst h
      refine ⟨n, by omega, hne, fun j h1 h2 => by omega, ?_, fun j h1 h2 => by omega, ?_⟩
      · exact Memory.read_write_same _ _ _
      · intro a ha
        exact Memory.read_write_other _ _ _ _ (by simp only [obufAddr] at ha ⊢; omega)

/-- A carry finds no byte to take it exactly when all `n` bytes are 0xFF. -/
theorem carryInto_none (base n : Nat) (m : Memory) :
    carryInto base n m = none ↔ ∀ j, j < n → m.obuf (base + j) = 0xFF := by
  induction n generalizing m with
  | zero => simp [carryInto]
  | succ n ih =>
    unfold carryInto
    split
    · rename_i hff
      rw [ih]
      have other : ∀ j, j < n →
          (m.write (obufAddr (base + n)) 0).obuf (base + j) = m.obuf (base + j) := fun j hj => by
        simp only [Memory.obuf]
        exact Memory.read_write_other _ _ _ _ (by simp [obufAddr]; omega)
      constructor
      · intro h j hj
        by_cases e : j = n
        · subst e; exact hff
        · rw [← other j (by omega)]; exact h j (by omega)
      · intro h j hj
        rw [other j hj]; exact h j (by omega)
    · rename_i hne
      simp only [reduceCtorEq, false_iff]
      exact fun h => hne (h n (by omega))

/-- One turn of the renormalisation loop that goes on: the range doubles, a carry may have been propagated, and either the
count goes down or a byte is appended. -/
theorem Coder.shift_ok (base limit : Nat) (c c' : Coder) (h : c.shift base limit = .ok c') :
    ∃ mem, (if c.low.testBit 31 then carryInto base (c.pos - base) c.mem else some c.mem) = some mem ∧
      c'.range = c.range * 2 ∧
      ((c.count - 1 ≠ 0 ∧ c'.low = c.low * 2 % 2 ^ 32 ∧ c'.count = c.count - 1 ∧ c'.pos = c.pos ∧ c'.mem = mem) ∨
       (c.count - 1 = 0 ∧ c.pos ≠ limit ∧ c'.low = c.low * 2 % 2 ^ 32 % 2 ^ 24 ∧ c'.count = 8 ∧ c'.pos = c.pos + 1 ∧
        c'.mem = mem.write (obufAddr c.pos) (BitVec.ofNat 8 (c.low * 2 % 2 ^ 32 / 2 ^ 24)))) := by
  unfold Coder.shift at h
  generalize hm : (if c.low.testBit 31 then carryInto base (c.pos - base) c.mem else some c.mem) = r at h
  cases r with
  | none => simp at h
  | some mem =>
    refine ⟨mem, rfl, ?_⟩
    simp only at h
    split at h
    · split at h
      · cases h
      · injection h with h; subst h; simp_all
    · injection h with h; subst h; simp_all

/-- One turn of the renormalisation loop that faults: a carry with no byte to take it, or a full window. -/
theorem Coder.shift_error (base limit : Nat) (c : Coder) (code : FaultCode) (h : c.shift base limit = .error code) :
    (code = .carry ∧ c.low.testBit 31 = true ∧ carryInto base (c.pos - base) c.mem = none) ∨
    (code = .obufFull ∧ c.count - 1 = 0 ∧ c.pos = limit) := by
  unfold Coder.shift at h
  split at h
  · rename_i hm
    injection h with h
    split at hm
    · exact .inl ⟨h.symm, by assumption, hm⟩
    · cases hm
  · simp only at h
    split at h
    · split at h
      · injection h with h; exact .inr ⟨h.symm, by assumption, by assumption⟩
      · cases h
    · cases h

/-- What `EncodeBool` can do: one of its three checks fails, or its loop ends with a new coder, or with a fault, of which
`E_OBUFFULL` alone changes the state. -/
theorem encodeBool_cases (bit : Bool) (p : Nat) (s : State) :
    (s.active = false ∧ encodeBool bit p s = .raised .notActive s) ∨
    (s.active = true ∧ p = 0 ∧ encodeBool bit p s = .raised .prob0 s) ∨
    (s.active = true ∧ p ≠ 0 ∧ s.bacOk = false ∧ encodeBool bit p s = .raised .coderRange s) ∨
    (s.active = true ∧ p ≠ 0 ∧ s.bacOk = true ∧
      ((∃ c, (s.coder.narrow bit p).renorm s.obase.toNat s.olimit.toNat 7 = .ok c ∧
          encodeBool bit p s = .done (s.withCoder c)) ∨
       ((s.coder.narrow bit p).renorm s.obase.toNat s.olimit.toNat 7 = .error .obufFull ∧
          encodeBool bit p s = .raised .obufFull { s with bcActive := 0 }) ∨
       (∃ code, code ≠ .obufFull ∧ (s.coder.narrow bit p).renorm s.obase.toNat s.olimit.toNat 7 = .error code ∧
          encodeBool bit p s = .raised code s))) := by
  unfold encodeBool
  by_cases ha : s.active = false
  · exact .inl ⟨ha, by simp [ha]⟩
  · have ha' : s.active = true := by simpa using ha
    by_cases hp : p = 0
    · exact .inr (.inl ⟨ha', hp, by simp [ha', hp]⟩)
    · by_cases hb : s.bacOk = false
      · exact .inr (.inr (.inl ⟨ha', hp, hb, by simp [ha', hp, hb]⟩))
      · have hb' : s.bacOk = true := by simpa using hb
        refine .inr (.inr (.inr ⟨ha', hp, hb', ?_⟩))
        simp only [ha', hp, hb', Bool.true_eq_false, if_false]
        cases hr : (s.coder.narrow bit p).renorm s.obase.toNat s.olimit.toNat 7 with
        | ok c => exact .inl ⟨c, rfl, rfl⟩
        | error code => cases code <;> simp

@[simp] theorem encodeBools_nil (s : State) : encodeBools [] s = .done s := rfl

theorem encodeBools_cons (bit : Bool) (p : Nat) (rest : List (Bool × Nat)) (s : State) :
    encodeBools ((bit, p) :: rest) s =
      match encodeBool bit p s with
      | .done s' => encodeBools rest s'
      | .raised code s' => .raised code s' := rfl

/-- Bools coded one list after another. -/
theorem encodeBools_append (xs ys : List (Bool × Nat)) (s : State) :
    encodeBools (xs ++ ys) s =
      match encodeBools xs s with
      | .done s' => encodeBools ys s'
      | .raised code s' => .raised code s' := by
  induction xs generalizing s with
  | nil => rfl
  | cons x xs ih =>
    obtain ⟨bit, p⟩ := x
    rw [List.cons_append, encodeBools_cons, encodeBools_cons]
    cases encodeBool bit p s with
    | done s' => exact ih s'
    | raised code s' => rfl

/-- What every completed coding step keeps, coding a whole list keeps. -/
theorem encodeBools_done_keeps (P : State → Prop) (step : ∀ bit p s t, P s → encodeBool bit p s = .done t → P t)
    (bools : List (Bool × Nat)) (s t : State) (hs : P s) (h : encodeBools bools s = .done t) : P t := by
  induction bools generalizing s with
  | nil => simp only [encodeBools_nil, Run.done.injEq] at h; exact h ▸ hs
  | cons b rest ih =>
    obtain ⟨bit, p⟩ := b
    rw [encodeBools_cons] at h
    cases hb : encodeBool bit p s with
    | done s' => rw [hb] at h; exact ih s' (step _ _ _ _ hs hb) h
    | raised code s' => rw [hb] at h; cases h

/-! ## Trees -/

/-- A search that succeeds has found its path by `walk`; any other ending is `E_TREE`. -/
theorem findPath_cases (entry : Nat → Int) (size tb v start : Nat) :
    (∃ path, walk entry size tb v walkFuel start [] = .found path ∧ findPath entry size tb v start = .ok path) ∨
    findPath entry size tb v start = .error .tree := by
  unfold findPath
  cases walk entry size tb v walkFuel start [] with
  | found path => exact .inl ⟨path, rfl, rfl⟩
  | absent visited => exact .inr rfl
  | malformed => exact .inr rfl

/-- The checks along a path pass exactly when every index is inside `PROBM` and every probability is not 0. -/
theorem checkProbs_none (m : Memory) (pb : Nat) (path : Path) :
    checkProbs m pb path = none ↔ ∀ node ∈ path, pb + node.1 / 2 ≤ 255 ∧ m.probm (pb + node.1 / 2) ≠ 0 := by
  induction path with
  | nil => simp [checkProbs]
  | cons node rest ih =>
    obtain ⟨i, bit⟩ := node
    unfold checkProbs
    split
    · simp only [reduceCtorEq, List.mem_cons, forall_eq_or_imp, false_iff]; omega
    · split
      · rename_i h; simp [h]
      · rename_i h1 h2
        simp only [ih, List.mem_cons, forall_eq_or_imp]
        constructor
        · exact fun h => ⟨⟨by omega, h2⟩, h⟩
        · exact fun h => h.2

/-- A checked path is a found one whose probabilities pass. -/
theorem checkedPath_ok (m : Memory) (tb pb v : Nat) (path : Path) :
    checkedPath m tb pb v = .ok path ↔ findPath m.treem 256 tb v 0 = .ok path ∧ checkProbs m pb path = none := by
  unfold checkedPath
  cases findPath m.treem 256 tb v 0 with
  | error code => simp
  | ok path' =>
    simp only [Except.ok.injEq]
    cases h : checkProbs m pb path' with
    | none => simp only [Except.ok.injEq]; constructor
              · rintro rfl; exact ⟨rfl, h⟩
              · exact fun h => h.1
    | some code => simp only [reduceCtorEq, false_iff]; rintro ⟨rfl, h'⟩; simp [h] at h'

/-! ## Steps -/

/-- What a step can do: wait, serve a read, drop a command, reject a word, run a command, serve a write, or reset. -/
theorem step_cases (s : State) :
    (s.bus = [] ∧ step s = .next s) ∨
    ∃ t rest, s.bus = t :: rest ∧ step s = serve { s with bus := rest, rdata := none } t := by
  unfold step
  cases h : s.bus with
  | nil => exact .inl ⟨rfl, rfl⟩
  | cons t rest => exact .inr ⟨t, rest, rfl, rfl⟩

/-- A write to `CMD` of an engine that is not halted, of a word that is a command. -/
theorem serve_command (s : State) (w : Word) (i : Instr) (hh : s.halted = false) (hd : decode w = .ok i) :
    serve s (.hwr 0 w) = exec i s := by
  simp [serve, runCommand, hh, hd]

/-- A write to `CMD` of an engine that is not halted, of a word that is no command. -/
theorem serve_illegal (s : State) (w : Word) (r : DecodeReject) (hh : s.halted = false) (hd : decode w = .error r) :
    serve s (.hwr 0 w) = .next (s.raise .illCmd w) := by
  simp [serve, runCommand, hh, hd]

/-- A write to `CMD` of a halted engine. -/
theorem serve_dropped (s : State) (w : Word) (hh : s.halted = true) : serve s (.hwr 0 w) = .next s := by
  simp [serve, hh]

/-- A write to any other address. -/
theorem serve_write (s : State) (addr w : Word) (ha : addr ≠ 0) :
    serve s (.hwr addr w) = .next (s.hostWrite addr w) := if_neg ha

/-- A host read faults on a bad address and otherwise changes nothing. -/
theorem State.hostRead_cases (s : State) (addr : Word) :
    (portTarget s.cfg addr = none ∧ s.hostRead addr = (s.raise .hostAddr addr, 0)) ∨
    ∃ target, portTarget s.cfg addr = some target ∧ s.hostRead addr = (s, s.readTarget addr target) := by
  unfold State.hostRead
  cases h : portTarget s.cfg addr with
  | none => exact .inl ⟨rfl, rfl⟩
  | some target => exact .inr ⟨target, rfl, rfl⟩

/-- A host write faults on a bad address and otherwise writes what the address names. -/
theorem State.hostWrite_cases (s : State) (addr d : Word) :
    (portTarget s.cfg addr = none ∧ s.hostWrite addr d = s.raise .hostAddr addr) ∨
    ∃ target, portTarget s.cfg addr = some target ∧ s.hostWrite addr d = s.writeTarget addr d target := by
  unfold State.hostWrite
  cases h : portTarget s.cfg addr with
  | none => exact .inl ⟨rfl, rfl⟩
  | some target => exact .inr ⟨target, rfl, rfl⟩

end Sys2Proof.Machine
end

