-- ==== Sys2Proof/Laws/PerInstr.lean ====
section
/-! SUPPORT. Facts about the encoding of each command, one lemma per constructor. -/

namespace Sys2Proof.Laws

/-- The opcode number of a command (30_encoding.md R95). -/
def opNumber : Instr → BitVec 6
  | .nop => 0x01
  | .ldi _ _ _ => 0x02
  | .bfill _ _ => 0x03
  | .seob _ _ => 0x04
  | .gdc _ _ => 0x05
  | .fdct _ _ => 0x08
  | .fwht _ _ => 0x09
  | .quant _ _ _ => 0x0A
  | .dequant _ _ _ => 0x0B
  | .tkn _ _ _ => 0x10
  | .puttok _ => 0x11
  | .bstart => 0x18
  | .bbool _ _ => 0x19
  | .blit _ _ => 0x1A
  | .bstop => 0x1B
  | .twrite _ _ _ => 0x20
  | .tcost _ _ _ => 0x21
  | .tcosts _ _ => 0x22

/-- Bits [31:26] of a command's word are its opcode (30_encoding.md R90). -/
def OpcodeBits.Statement (i : Instr) : Prop := opField (encode i) = opNumber i

/-- The top field of a concatenation is that of its upper part. -/
theorem extract_append_high {n k : Nat} (x : BitVec n) (y : BitVec k) (lo len : Nat) (h : k ≤ lo) :
    (x ++ y).extractLsb' lo len = x.extractLsb' (lo - k) len := by
  ext i hi
  simp only [BitVec.getElem_extractLsb', BitVec.getLsbD_append]
  rw [if_neg (by omega), show lo + i - k = lo - k + i by omega]

/-- The word of six bits is its own field. -/
theorem extract_all (x : BitVec 6) : x.extractLsb' 0 6 = x := by
  ext i hi
  simp

theorem OpcodeBits.nop : OpcodeBits.Statement .nop := by
  show BitVec.extractLsb' 26 6 (0x01#6 ++ 0#26) = 0x01#6
  simp (disch := omega) only [extract_append_high, Nat.reduceSub, extract_all]

theorem OpcodeBits.ldi (bd : BitVec 5) (lane : BitVec 4) (imm16 : BitVec 16) : OpcodeBits.Statement (.ldi bd lane imm16) := by
  show BitVec.extractLsb' 26 6 (0x02#6 ++ bd ++ 0#1 ++ lane ++ imm16) = 0x02#6
  simp (disch := omega) only [extract_append_high, Nat.reduceSub, extract_all]

theorem OpcodeBits.bfill (bd : BitVec 5) (imm16 : BitVec 16) : OpcodeBits.Statement (.bfill bd imm16) := by
  show BitVec.extractLsb' 26 6 (0x03#6 ++ bd ++ 0#5 ++ imm16) = 0x03#6
  simp (disch := omega) only [extract_append_high, Nat.reduceSub, extract_all]

theorem OpcodeBits.seob (bd n : BitVec 5) : OpcodeBits.Statement (.seob bd n) := by
  show BitVec.extractLsb' 26 6 (0x04#6 ++ bd ++ 0#16 ++ n) = 0x04#6
  simp (disch := omega) only [extract_append_high, Nat.reduceSub, extract_all]

theorem OpcodeBits.gdc (bd bs : BitVec 5) : OpcodeBits.Statement (.gdc bd bs) := by
  show BitVec.extractLsb' 26 6 (0x05#6 ++ bd ++ bs ++ 0#16) = 0x05#6
  simp (disch := omega) only [extract_append_high, Nat.reduceSub, extract_all]

theorem OpcodeBits.fdct (bd bs : BitVec 5) : OpcodeBits.Statement (.fdct bd bs) := by
  show BitVec.extractLsb' 26 6 (0x08#6 ++ bd ++ bs ++ 0#16) = 0x08#6
  simp (disch := omega) only [extract_append_high, Nat.reduceSub, extract_all]

theorem OpcodeBits.fwht (bd bs : BitVec 5) : OpcodeBits.Statement (.fwht bd bs) := by
  show BitVec.extractLsb' 26 6 (0x09#6 ++ bd ++ bs ++ 0#16) = 0x09#6
  simp (disch := omega) only [extract_append_high, Nat.reduceSub, extract_all]

theorem OpcodeBits.quant (bd bs : BitVec 5) (t : BitVec 2) : OpcodeBits.Statement (.quant bd bs t) := by
  show BitVec.extractLsb' 26 6 (0x0A#6 ++ bd ++ bs ++ 0#14 ++ t) = 0x0A#6
  simp (disch := omega) only [extract_append_high, Nat.reduceSub, extract_all]

theorem OpcodeBits.dequant (bd bs : BitVec 5) (t : BitVec 2) : OpcodeBits.Statement (.dequant bd bs t) := by
  show BitVec.extractLsb' 26 6 (0x0B#6 ++ bd ++ bs ++ 0#14 ++ t) = 0x0B#6
  simp (disch := omega) only [extract_append_high, Nat.reduceSub, extract_all]

theorem OpcodeBits.tkn (bs : BitVec 5) (t c0 : BitVec 2) : OpcodeBits.Statement (.tkn bs t c0) := by
  show BitVec.extractLsb' 26 6 (0x10#6 ++ 0#5 ++ bs ++ 0#12 ++ c0 ++ t) = 0x10#6
  simp (disch := omega) only [extract_append_high, Nat.reduceSub, extract_all]

theorem OpcodeBits.puttok (count : BitVec 16) : OpcodeBits.Statement (.puttok count) := by
  show BitVec.extractLsb' 26 6 (0x11#6 ++ 0#10 ++ count) = 0x11#6
  simp (disch := omega) only [extract_append_high, Nat.reduceSub, extract_all]

theorem OpcodeBits.bstart : OpcodeBits.Statement .bstart := by
  show BitVec.extractLsb' 26 6 (0x18#6 ++ 0#26) = 0x18#6
  simp (disch := omega) only [extract_append_high, Nat.reduceSub, extract_all]

theorem OpcodeBits.bbool (bit : BitVec 1) (prob : BitVec 8) : OpcodeBits.Statement (.bbool bit prob) := by
  show BitVec.extractLsb' 26 6 (0x19#6 ++ 0#9 ++ bit ++ 0#8 ++ prob) = 0x19#6
  simp (disch := omega) only [extract_append_high, Nat.reduceSub, extract_all]

theorem OpcodeBits.blit (n : BitVec 5) (value : BitVec 16) : OpcodeBits.Statement (.blit n value) := by
  show BitVec.extractLsb' 26 6 (0x1A#6 ++ n ++ 0#5 ++ value) = 0x1A#6
  simp (disch := omega) only [extract_append_high, Nat.reduceSub, extract_all]

theorem OpcodeBits.bstop : OpcodeBits.Statement .bstop := by
  show BitVec.extractLsb' 26 6 (0x1B#6 ++ 0#26) = 0x1B#6
  simp (disch := omega) only [extract_append_high, Nat.reduceSub, extract_all]

theorem OpcodeBits.twrite (tb pb v : BitVec 8) : OpcodeBits.Statement (.twrite tb pb v) := by
  show BitVec.extractLsb' 26 6 (0x20#6 ++ 0#2 ++ tb ++ pb ++ v) = 0x20#6
  simp (disch := omega) only [extract_append_high, Nat.reduceSub, extract_all]

theorem OpcodeBits.tcost (tb pb v : BitVec 8) : OpcodeBits.Statement (.tcost tb pb v) := by
  show BitVec.extractLsb' 26 6 (0x21#6 ++ 0#2 ++ tb ++ pb ++ v) = 0x21#6
  simp (disch := omega) only [extract_append_high, Nat.reduceSub, extract_all]

theorem OpcodeBits.tcosts (tb pb : BitVec 8) : OpcodeBits.Statement (.tcosts tb pb) := by
  show BitVec.extractLsb' 26 6 (0x22#6 ++ 0#2 ++ tb ++ pb ++ 0#8) = 0x22#6
  simp (disch := omega) only [extract_append_high, Nat.reduceSub, extract_all]

end Sys2Proof.Laws
end

