-- ==== Sys2Proof/Laws/Tree.lean ====
section
/-! SUPPORT. The small lemmas of `follow`, the node that bits lead to, and what it says of a path. -/

namespace Sys2Proof.Laws

open Sys2Proof.Machine

@[simp] theorem follow_nil (entry : Nat → Int) (tb i : Nat) : follow entry tb i [] = some i := rfl

theorem follow_cons (entry : Nat → Int) (tb i : Nat) (bit : Bool) (rest : List Bool) :
    follow entry tb i (bit :: rest) =
      if 0 < entry (tb + i + bit.toNat) then follow entry tb (entry (tb + i + bit.toNat)).toNat rest else none := rfl

/-- Following two strings of bits in turn. -/
theorem follow_append (entry : Nat → Int) (tb : Nat) (p q : List Bool) (i : Nat) :
    follow entry tb i (p ++ q) = (follow entry tb i p).bind fun j => follow entry tb j q := by
  induction p generalizing i with
  | nil => rfl
  | cons bit rest ih =>
    simp only [List.cons_append, follow_cons]
    split
    · exact ih _
    · rfl

/-- The bits of a tree path lead to a leaf of its value. -/
theorem leafAt_of_isTreePath (entry : Nat → Int) (tb v : Nat) (path : Path) (start : Nat)
    (h : isTreePath entry tb v start path) : leafAt entry tb start v (path.map Prod.snd) := by
  induction path generalizing start with
  | nil => exact h.elim
  | cons node rest ih =>
    obtain ⟨j, bit⟩ := node
    cases rest with
    | nil => exact ⟨[], bit, start, rfl, rfl, h.2⟩
    | cons next rest =>
      obtain ⟨-, hpos, -, hrest⟩ := h
      obtain ⟨nodeBits, last, i, hbits, hfollow, hleaf⟩ := ih _ hrest
      exact ⟨bit :: nodeBits, last, i, by rw [List.map_cons, hbits, List.cons_append],
        by rw [follow_cons, if_pos hpos]; exact hfollow, hleaf⟩

end Sys2Proof.Laws
end

