-- ==== Sys2Proof/Tests/Slice0.lean ====
section
/-! SUPPORT. Tests: ill-formed operands, words written out from 30_encoding.md, single steps with results from
95_test_vectors.md (the vector is named in each docstring), and for each statement with hypotheses a concrete state and
operands that meet them. -/

namespace Sys2Proof.Tests

open Sys2Proof.Machine

/-! ## Well-formedness: each check refuses an ill-formed term -/

theorem test_wellFormed_seob : Instr.wellFormed (.seob 2 16) = true ∧ Instr.wellFormed (.seob 2 17) = false := by decide

theorem test_wellFormed_blit : Instr.wellFormed (.blit 16 0) = true ∧ Instr.wellFormed (.blit 17 0) = false := by decide

theorem test_wellFormed_gdc : Instr.wellFormed (.gdc 0 16) = true ∧ Instr.wellFormed (.gdc 0 17) = false := by decide

theorem test_wellFormed_tkn : Instr.wellFormed (.tkn 3 3 2) = true ∧ Instr.wellFormed (.tkn 3 3 3) = false := by decide

/-! ## Decoding: words written out field by field from the formats of 30_encoding.md (R92, R95) -/

theorem test_decode_nop : decode 0b000001_00000000000000000000000000 = .ok .nop := by rfl

theorem test_decode_ldi : decode 0b000010_00011_0_0101_1111111111111110 = .ok (.ldi 3 5 0xFFFE) := by rfl

theorem test_decode_bfill : decode 0b000011_00000_00000_0000011111111000 = .ok (.bfill 0 2040) := by rfl

theorem test_decode_seob : decode 0b000100_00010_0000000000000000_10000 = .ok (.seob 2 16) := by rfl

theorem test_decode_gdc : decode 0b000101_10000_00000_0000000000000000 = .ok (.gdc 16 0) := by rfl

theorem test_decode_fdct : decode 0b001000_00010_00001_0000000000000000 = .ok (.fdct 2 1) := by rfl

theorem test_decode_fwht : decode 0b001001_10001_10000_0000000000000000 = .ok (.fwht 17 16) := by rfl

theorem test_decode_quant : decode 0b001010_00010_00001_00000000000000_11 = .ok (.quant 2 1 3) := by rfl

theorem test_decode_dequant : decode 0b001011_00100_00011_00000000000000_11 = .ok (.dequant 4 3 3) := by rfl

theorem test_decode_tkn : decode 0b010000_00000_00011_000000000000_10_01 = .ok (.tkn 3 1 2) := by rfl

theorem test_decode_puttok : decode 0b010001_0000000000_0000000000000100 = .ok (.puttok 4) := by rfl

theorem test_decode_bstart : decode 0b011000_00000000000000000000000000 = .ok .bstart := by rfl

theorem test_decode_bbool : decode 0b011001_000000000_1_00000000_11001000 = .ok (.bbool 1 200) := by rfl

theorem test_decode_blit : decode 0b011010_01000_00000_0000000010100101 = .ok (.blit 8 0xA5) := by rfl

theorem test_decode_bstop : decode 0b011011_00000000000000000000000000 = .ok .bstop := by rfl

theorem test_decode_twrite : decode 0b100000_00_00000001_00000010_00000011 = .ok (.twrite 1 2 3) := by rfl

theorem test_decode_tcost : decode 0b100001_00_00000001_00000010_00000011 = .ok (.tcost 1 2 3) := by rfl

theorem test_decode_tcosts : decode 0b100010_00_00000001_00000010_00000000 = .ok (.tcosts 1 2) := by rfl

/-- Words of 95_test_vectors.md section 2, as the host asks for them. -/
theorem test_decodeTableWord :
    decodeTableWord 32 0x0C0007F8 = some (.bfill 0 0x07F8) ∧ decodeTableWord 32 0x2A510001 = some (.quant 18 17 1) ∧
      decodeTableWord 32 0x40120001 = some (.tkn 18 1 0) ∧ decodeTableWord 32 0x88000000 = some (.tcosts 0 0) ∧
      decodeTableWord 32 0x00000000 = none := by decide

/-- The words of 95_test_vectors.md section 2 that must be illegal. -/
theorem test_decode_illegal :
    [0x00000000, 0xFC000000, 0x18000000, 0x04000001, 0x08100000, 0x20410001, 0x28410004, 0x40230003, 0x64020080,
      0x690100A5, 0x88000001, 0x81000000, 0x60000001].map (decodeTableWord 32) = List.replicate 13 none := by decide

/-! ## Helpers -/

/-- The state an outcome goes on with. -/
def after (o : Host.Outcome State Fault Refusal) : State :=
  match o with
  | .next s => s
  | _ => .reset

/-- A block from a list of lanes, the rest 0. -/
def blockFrom (l : List Int) : Block := Vector.ofFn fun i => laneOf (l.getD i.val 0)

/-- The reset state with `b1` at the given lanes. -/
def withB1 (l : List Int) : State := State.reset.setBlock 1 (blockFrom l)

/-- The lanes of a block register. -/
def lanesOf (s : State) (n : BitVec 5) : List Int := (List.range 16).map (lane (s.block n))

/-- The coder tuple `(range, low, count, pos)`. -/
def tuple (s : State) : List Nat := [s.bcRange.toNat, s.bcLow.toNat, s.bcCount.toNat, s.bcPos.toNat]

/-- The reset state after `BSTART`. -/
def started : State := State.reset.startCoder

/-- The reset state with the tree and the probabilities of 95_test_vectors.md section 4. -/
def treeState : State :=
  { State.reset with
    mem := (State.reset.mem.writeWord 0x1800 0xFF000402 |>.writeWord 0x1804 0x0000FDFE |>.writeWord 0x1900 0x0032C880) }

/-- A state about to code one token record, with the one probability its path needs. -/
def tokenState (w : Word) : State :=
  { started with
    mem := ((State.reset.mem.writeWord 0x10000 w).write (cprobAddr 3 0 0 0) 128), tkwp := 1 }

/-- A state about to code two records, the first of one EOB token, with a probability 0 for the second. -/
def twoTokenState (second : Word) : State :=
  { tokenState 0x00C0000B with
    mem := ((tokenState 0x00C0000B).mem.writeWord 0x10004 second |>.write (cprobAddr 3 1 0 0) 0), tkwp := 2 }

/-! ## Single steps -/

/-- 95_test_vectors.md P5: a NOP is dropped or does nothing; here it runs. -/
theorem test_nop : (after (exec .nop started)).fstat = 0 ∧ tuple (after (exec .nop started)) = [255, 0, 24, 0] := by decide

/-- 45_support.md R202: one lane, the immediate sign-extended. -/
theorem test_ldi : lanesOf (after (exec (.ldi 3 5 0xFFFE) State.reset)) 3 =
    [0, 0, 0, 0, 0, -2, 0, 0, 0, 0, 0, 0, 0, 0, 0, 0] := by decide

/-- P3 row 2: `BFILL b1, -2040`. -/
theorem test_bfill : lanesOf (after (exec (.bfill 1 0xF808) State.reset)) 1 = List.replicate 16 (-2040) := by decide

/-- P5 step 8. -/
theorem test_seob : (after (exec (.seob 5 5) State.reset)).eobTag 5 = 5 := by decide

/-- 45_support.md R204: 17 is out of range. -/
theorem test_seob_operand :
    (after (exec (.seob 5 17) State.reset)).fcause = 0x13 ∧ (after (exec (.seob 5 17) State.reset)).eobTag 5 = 0 := by decide

/-- Section 5: the destination may lie inside the source range. -/
theorem test_gdc_alias : lanesOf (after (exec (.gdc 3 0) ((withB1 [7]).setBlock 3 (blockFrom [9, 8])))) 3 =
    [0, 7, 0, 9, 0, 0, 0, 0, 0, 0, 0, 0, 0, 0, 0, 0] := by decide

/-- Section 5: `GDC b0, b17`. -/
theorem test_gdc_range : (after (exec (.gdc 0 17) State.reset)).fcause = 0x12 ∧
    (after (exec (.gdc 0 17) State.reset)).finfo = 0x14110000 := by decide

/-- X4. -/
theorem test_fdct : lanesOf (after (exec (.fdct 1 1) (withB1 [1]))) 1 =
    [0, 1, 0, 1, 1, 1, 1, 1, 0, 1, 0, 0, 1, 1, 1, 0] := by decide

/-- X9, which wraps. -/
theorem test_fdct_wraps : lanesOf (after (exec (.fdct 2 1)
      (withB1 [32767, -32768, 32767, -32768, 32767, -32768, 32767, -32768, 32767, -32768, 32767, -32768, 32767, -32768,
        32767, -32768]))) 2 =
    [-4, 2015, 0, -3555, 0, 0, 0, 0, 0, 0, 0, 0, 0, 0, 0, 0] := by decide

/-- X12. -/
theorem test_fwht_negative : lanesOf (after (exec (.fwht 2 1) (withB1 (List.replicate 16 (-1))))) 2 =
    [-7, 0, 0, 0, 0, 0, 0, 0, 0, 0, 0, 0, 0, 0, 0, 0] := by decide

/-- X14. -/
theorem test_fwht : lanesOf (after (exec (.fwht 2 1) (withB1 [0, 1, 2, 3, 4, 5, 6, 7, 8, 9, 10, 11, 12, 13, 14, 15]))) 2 =
    [60, -8, 0, -4, -32, 0, 0, 0, 0, 0, 0, 0, -16, 0, 0, 0] := by decide

/-- Q1. -/
theorem test_quant :
    lanesOf (after (exec (.quant 2 1 3) (withB1 [60, -8, 0, 0, -35, 0, 0, 0, 0, 0, 0, 0, -2]))) 2 =
      [15, -2, 0, 0, -9, 0, 0, 0, 0, 0, 0, 0, 0, 0, 0, 0] ∧
    (after (exec (.quant 2 1 3) (withB1 [60, -8, 0, 0, -35, 0, 0, 0, 0, 0, 0, 0, -2]))).eobTag 2 = 3 := by decide

/-- Q6: the zero bin widened by one. -/
theorem test_quant_zbinx :
    lanesOf (after (exec (.quant 2 1 3) { withB1 [2, 3, -3, -2, 4, -4] with zbinx := 1 })) 2 =
      [0, 0, 0, 0, 1, -1, 0, 0, 0, 0, 0, 0, 0, 0, 0, 0] ∧
    (after (exec (.quant 2 1 3) { withB1 [2, 3, -3, -2, 4, -4] with zbinx := 1 })).eobTag 2 = 5 := by decide

/-- Q1: dequantized. -/
theorem test_dequant : lanesOf (after (exec (.dequant 4 1 3) (withB1 [15, -2, 0, 0, -9]))) 4 =
    [60, -8, 0, 0, -36, 0, 0, 0, 0, 0, 0, 0, 0, 0, 0, 0] := by decide

/-- T1: the four records and the pointers. -/
theorem test_tkn :
    let s := after (exec (.tkn 1 3 0) ((withB1 [15, -2, 0, 0, -9]).setEobTag 1 3))
    (List.range 4).map (fun k => s.mem.tokm k) = [0x00C02007, 0x00C00512, 0x00C01526, 0x00C0013B] ∧ s.tkwp = 4 ∧
      s.tkcnt = 4 := by decide

/-- T11: a tag that names a zero coefficient. -/
theorem test_tkn_eob :
    (after (exec (.tkn 5 3 0) (State.reset.setEobTag 5 5))).fcause = 0x31 ∧
      (after (exec (.tkn 5 3 0) (State.reset.setEobTag 5 5))).finfo = 0x40050003 ∧
      (after (exec (.tkn 5 3 0) (State.reset.setEobTag 5 5))).fstat = 4 := by decide

/-- T2: one EOB token is one bool 0 at 128. -/
theorem test_puttok : tuple (after (exec (.puttok 1) (tokenState 0x00C0000B))) = [128, 0, 24, 0] ∧
    (after (exec (.puttok 1) (tokenState 0x00C0000B))).tkrp = 1 := by decide

/-- T12: id 12, and one record too many. -/
theorem test_puttok_faults : (after (exec (.puttok 1) (tokenState 0x00C0000C))).fcause = 0x35 ∧
    (after (exec (.puttok 2) (tokenState 0x00C0000B))).fcause = 0x18 := by decide

/-- B1. -/
theorem test_bstart : tuple (after (exec .bstart { State.reset with bcRange := 7, bcPos := 9 })) = [255, 0, 24, 0] ∧
    (after (exec .bstart State.reset)).bcActive = 1 := by decide

/-- B13. -/
theorem test_bstart_window : (after (exec .bstart { State.reset with obase := 8, olimit := 4 })).fcause = 0x14 ∧
    (after (exec .bstart { State.reset with obase := 8, olimit := 4 })).finfo = 0x60000000 := by decide

/-- B3 and the first step of B9. -/
theorem test_bbool : tuple (after (exec (.bbool 1 128) started)) = [254, 0x100, 23, 0] ∧
    tuple (after (exec (.bbool 1 200) started)) = [224, 0x31C, 22, 0] := by decide

/-- B10: the carry of padding bool 5 runs through a byte 0xFF. -/
theorem test_bbool_carry :
    let s := after (exec (.bbool 0 128) { started with
      bcRange := 128, bcLow := 0x80000000, bcCount := 1, bcPos := 2,
      mem := ((State.reset.mem.write 0x20000 0x7F).write 0x20001 0xFF) })
    tuple s = [128, 0, 8, 3] ∧ (List.range 3).map (fun k => s.mem.obuf k) = [0x80, 0, 0] := by decide

/-- B7. -/
theorem test_blit : tuple (after (exec (.blit 8 0xA5) started)) = [254, 0xA4B6, 16, 0] := by decide

/-- B17: `BLIT 17, 0`, and `BLIT 0` with no coder. -/
theorem test_blit_operand : (after (exec (.blit 17 0) started)).fcause = 0x13 ∧
    (after (exec (.blit 0 0x1234) State.reset)).fstat = 0 := by decide

/-- B1: one byte. -/
theorem test_bstop : tuple (after (exec .bstop started)) = [128, 0, 1, 1] ∧ (after (exec .bstop started)).blen = 1 ∧
    (after (exec .bstop started)).mem.obuf 0 = 0 ∧ (after (exec .bstop started)).bcActive = 0 := by decide

/-- B12: an empty window. -/
theorem test_bstop_full :
    let s := after (exec .bstop { started with obase := 8, olimit := 8, bcPos := 8 })
    tuple s = [128, 0, 1, 8] ∧ s.fstat = 2 ∧ s.fcause = 0x20 ∧ s.bcActive = 0 ∧ s.blen = 0 := by decide

/-- W1, the first symbol. -/
theorem test_twrite :
    tuple (after (exec (.twrite 0 0 2) { treeState with bcActive := 1 })) = [200, 0x400, 21, 0] := by decide

/-- W2: no such leaf. -/
theorem test_twrite_tree : (after (exec (.twrite 0 0 4) { treeState with bcActive := 1 })).fcause = 0x32 := by decide

/-- Section 4: the costs of the four values. -/
theorem test_tcost : ([0, 1, 2, 3] : List (BitVec 8)).map (fun v => (after (exec (.tcost 0 0 v) treeState)).cost.toNat) =
    [347, 817, 859, 336] := by decide

/-- P4 step 4: the same four costs in `COSTM`. -/
theorem test_tcosts : (List.range 4).map (fun v => ((after (exec (.tcosts 0 0) treeState)).mem.costm v).toNat) =
    [347, 817, 859, 336] := by decide

/-- F1: the first fault keeps the cause registers. -/
theorem test_first_fault_wins :
    let s := after (step (after (step { State.reset with bus := [.hwr 0 0, .hrd 0x4C] })))
    s.fstat = 1 ∧ s.fcause = 0x10 ∧ s.finfo = 0 ∧ s.rdata = some 0 := by decide

/-- F3: INV is not cleared by the host. -/
theorem test_inv_is_sticky :
    let s := after (step { State.reset with fstat := 4, fcause := 0x31, bus := [.hwr 0x10 7] })
    s.fstat = 4 ∧ s.fcause = 0x31 := by decide

/-- P5 step 2: a halted engine drops a command. -/
theorem test_halted_drops :
    lane ((after (step { State.reset with fstat := 1, bus := [.hwr 0 0x0C0007F8] })).block 0) 0 = 0 := by decide

/-- Section 6: the window of the look-up table. -/
theorem test_qlut_window : (after (step { State.reset with bus := [.hrd 0x10DE08] })).rdata = some 0x03A8001A ∧
    (after (step { State.reset with bus := [.hrd 0x10DE0C] })).rdata = some 0x0046002C := by decide

/-- P5 step 3: what the host reads of a fault. -/
theorem test_fault_registers_read :
    let s : State := { State.reset with fstat := 1, fcause := 0x15, finfo := 0x640100C8 }
    [(0x04 : Word), 0x08, 0x0C].map (fun a => (after (step { s with bus := [.hrd a] })).rdata) =
      [some 1, some 0x15, some 0x640100C8] := by decide

/-- B14 to B16, T12 and F1: the codes of the faults a coder command, a token and an address take. -/
theorem test_fault_codes :
    ((after (exec (.bbool 1 128) State.reset)).fcause = 0x15 ∧ (after (exec (.bbool 0 0) started)).fcause = 0x16 ∧
      (after (exec (.bbool 0 128) { started with bcRange := 100 })).fcause = 0x30 ∧
      (after (exec (.bbool 0 128) { started with bcRange := 128, bcLow := 0x80000000 })).fcause = 0x33) ∧
    (after (step { State.reset with bus := [.hrd 0x4C] })).fcause = 0x17 := by decide

/-- P4 steps 4 and 12: what `TCOSTS` writes, read at its place in the window of `COSTM`. -/
theorem test_costm_window :
    (after (step { after (exec (.tcosts 0 0) treeState) with bus := [.hrd 0x1C08] })).rdata = some 859 := by decide

/-- P5 step 5: `QIDX` is checked. -/
theorem test_qidx_fault :
    let s := after (step { State.reset with bus := [.hwr 0x14 200] })
    s.fstat = 1 ∧ s.fcause = 0x11 ∧ s.finfo = 0x14 ∧ s.qidx = 0 := by decide

/-! ## Witnesses: states and operands that meet the hypotheses of the statements, clause by clause, at boundary values -/

theorem witness_AcceptedWordIsTheCommandsWord : decode 0x8BFFFF00 = .error .reservedBit ∧
    decode 0x88FFFF00 = .ok (.tcosts 255 255) := ⟨by rfl, by rfl⟩

/-- Opcode 0 and opcode 0x3F are unassigned; the lowest and the highest reserved bit of NOP, and words of the first and of the
last row of the map with no reserved bit set. -/
theorem witness_IllegalWordRaisesIllCmd :
    (∀ row ∈ opTable, row.op ≠ opField 0x00000000) ∧ (∀ row ∈ opTable, row.op ≠ opField 0xFFFFFFFF) ∧
    (∃ row ∈ opTable, row.op = opField 0x04000001 ∧ (0x04000001 : Word) &&& row.reserved ≠ 0) ∧
    (∃ row ∈ opTable, row.op = opField 0x06000000 ∧ (0x06000000 : Word) &&& row.reserved ≠ 0) ∧
    ((0x04000000 : Word).extractLsb' 26 6 = 0x01 ∧ (0x04000000 : Word) &&& 0x03FFFFFF = 0) ∧
    ((0x88FFFF00 : Word).extractLsb' 26 6 = 0x22 ∧ (0x88FFFF00 : Word) &&& 0x030000FF = 0) := by decide

theorem witness_StepRunsTheDecodedCommand : State.reset.fstat = 0 ∧ decode 0x0865FFFE = .ok (.ldi 3 5 0xFFFE) :=
  ⟨by decide, by rfl⟩

theorem witness_HaltedEngineDropsCommands : ({ State.reset with fstat := 4 } : State).fstat ≠ 0 ∧
    portTarget State.reset.cfg 0x48 = some (.csr 0x48) ∧ portTarget State.reset.cfg 0x10FFFC = some (.qlut 0x3FFF) ∧
    (0x04 : Word) ≠ 0 ∧ portTarget State.reset.cfg 0x04 = some (.csr 4) ∧ portTarget State.reset.cfg 0x4C = none := by decide

theorem witness_FaultEntryRecordsTheFirstCause : State.reset.fstat = 0 ∧ ({ State.reset with fstat := 2 } : State).fstat ≠ 0 ∧
    portTarget State.reset.cfg 0x4C = none ∧ portTarget State.reset.cfg 0x4B = none ∧
    ∃ t, step { State.reset with bus := [.hwr 0 0x4000000F] } = .next t ∧ t.fstat ≠ 0 :=
  ⟨by decide, by decide, by decide, by decide, _, rfl, by decide⟩

theorem witness_FaultClearWriteKeepsInvBit : State.reset.faultsOk = true ∧ State.reset.fstat = 0 ∧
    (∃ t, step { State.reset with fstat := 3, bus := [.hwr 0x10 3] } = .next t ∧ t.fstat = 0) ∧
    ∃ t, step { State.reset with fstat := 7, bus := [.hwr 0x10 7] } = .next t ∧ t.fstat ≠ 0 :=
  ⟨by decide, by decide, ⟨_, rfl, by decide⟩, _, rfl, by decide⟩

/-- INV against a write of ones to `FCLR`; CFG and BUF against another transaction. -/
theorem witness_FaultBitsClearOnlyByFclrOrReset :
    (∃ t, step { State.reset with fstat := 7, bus := [.hwr 0x10 7] } = .next t ∧
      Transaction.hwr 0x10 7 ≠ .rst ∧ ({ State.reset with fstat := 7 } : State).fstat.getLsbD 2 = true) ∧
    (∃ t, step { State.reset with fstat := 3, bus := [.hwr 0x14 7] } = .next t ∧
      Transaction.hwr 0x14 7 ≠ .rst ∧ (∀ d, Transaction.hwr 0x14 7 ≠ .hwr 0x10 d) ∧
      ({ State.reset with fstat := 3 } : State).fstat.getLsbD 0 = true ∧
      ({ State.reset with fstat := 3 } : State).fstat.getLsbD 1 = true) :=
  ⟨⟨_, rfl, by decide, by decide⟩, ⟨_, rfl, by decide, fun _ h => by simp at h, by decide, by decide⟩⟩

theorem witness_OperandRangeFaults : State.reset.fstat = 0 ∧ 16 < (17#5).toNat ∧ 16 < (31#5).toNat := by decide

theorem witness_EveryStepKeepsTheInvariant :
    ({ started with bus := [.hwr 0 0x690000A5] } : State).inv = true ∧
      ∃ t, step { started with bus := [.hwr 0 0x690000A5] } = .next t := ⟨by decide, _, rfl⟩

/-- Parameters at their bounds. -/
theorem witness_ResetStateHasTheInvariant :
    ({ configStandard with ntok := 16384, nobuf := 0xE0000 } : Config).wf = true ∧
      ({ configStandard with ntok := 0, nobuf := 0 } : Config).wf = true := by decide

theorem witness_NoStepChangesAParameter : ∃ t, step { State.reset with bus := [.rst] } = .next t := ⟨_, rfl⟩

theorem witness_MisalignedAccessFaults : (0x01 : Word).toNat % 4 ≠ 0 ∧ (0xFFFFFFFF : Word).toNat % 4 ≠ 0 := by decide

/-- The first unmapped word after each window, and the last mapped word of each. -/
theorem witness_UnmappedAccessFaults :
    (∀ a ∈ [0x4C, 0x3FC, 0x880, 0xFFC, 0x1420, 0x17FC, 0x1A00, 0x1BFC, 0x2000, 0xFFFC, 0x14000, 0x1FFFC, 0x30000, 0xFFFFC, 0x110000],
      portTarget State.reset.cfg (BitVec.ofNat 32 a) = none) ∧
    ∀ a ∈ [0x00, 0x48, 0x400, 0x7FC, 0x800, 0x87C, 0x1000, 0x141C, 0x1800, 0x19FC, 0x1C00, 0x1FFC, 0x10000, 0x13FFC, 0x20000, 0x2FFFC,
      0x100000, 0x10FFFC], (portTarget State.reset.cfg (BitVec.ofNat 32 a)).isSome = true := by decide

theorem witness_RegisterWritesStoreTheirBits : (127 : Word).toNat < 128 ∧ 128 ≤ (128 : Word).toNat := by decide

theorem witness_ReadOnlyPlacesIgnoreWrites : (0x04 : Word).toNat ∈ [0x04, 0x08, 0x0C, 0x38, 0x44, 0x48] ∧
    (0x48 : Word).toNat ∈ [0x04, 0x08, 0x0C, 0x38, 0x44, 0x48] ∧ (0x100000 : Word).toNat % 4 = 0 ∧
    storageByte State.reset.cfg (0x100000 : Word).toNat = false ∧ storageByte State.reset.cfg (0x10FFFC : Word).toNat = false ∧
    (0x10 : Word).toNat ∈ [0x00, 0x10] := by decide

/-- A whole word, and the last word of an `OBUF` whose size is no multiple of 4. -/
theorem witness_MemoryWindowStoresTheWord : storageByte State.reset.cfg (0x1FFC : Word).toNat = true ∧
    storageByte { configStandard with nobuf := 5 } (0x20004 : Word).toNat = true ∧
    storageByte { configStandard with nobuf := 5 } ((0x20004 : Word).toNat + 1) = false := by decide

/-- A substituted quantizer table of the right size is within the bounds. -/
theorem config_wf_of_full_qlut (entries : List QEntry) (h : entries.length = 8192) :
    ({ configStandard with qlut := .custom entries } : Config).wf = true := by
  simp [Config.wf, QTable.full, CostTable.full, configStandard, h]

/-- A substituted cost table of the right size is within the bounds. -/
theorem config_wf_of_full_costtab (entries : List (BitVec 16)) (h : entries.length = 256) :
    ({ configStandard with costtab := .custom entries } : Config).wf = true := by
  simp [Config.wf, QTable.full, CostTable.full, configStandard, h]

/-- The default table and a substituted one of the right size. -/
theorem witness_LookUpTableWindowReadsEntries : State.reset.cfg.wf = true ∧ 3 < 4 ∧ 127 < 128 ∧ 15 < 16 ∧
    ({ configStandard with qlut := .custom (List.replicate 8192 ⟨1, 2, 3, 4⟩) } : Config).wf = true :=
  ⟨by decide, by decide, by decide, by decide, config_wf_of_full_qlut _ List.length_replicate⟩

theorem witness_SupportCommandsEqualPortWrites : State.reset.fstat = 0 ∧ (16#5).toNat ≤ 16 ∧
    step { withB1 [1, -1] with bus := [.hrd 0x420] } = .next { withB1 [1, -1] with bus := [], rdata := some 0xFFFF0001 } :=
  ⟨by decide, by decide, by rfl⟩

theorem witness_NopChangesNothing : opField 0x04000001 = 0x01 ∧ (0x04000001 : Word) ≠ 0x04000000 ∧
    ({ State.reset with fstat := 1 } : State).fstat ≠ 0 := by decide

theorem witness_LdiWritesOneLane : opField 0x08100000 = 0x02 ∧ (0x08100000 : Word).getLsbD 20 = true ∧
    opField 0x0BEFFFFF = 0x02 ∧ (0x0BEFFFFF : Word).getLsbD 20 = false := by decide

theorem witness_BfillWritesAllLanes : opField 0x0C010000 = 0x03 ∧ (0x0C010000 : Word).extractLsb' 16 5 ≠ 0 ∧
    opField 0x0FE0FFFF = 0x03 ∧ (0x0FE0FFFF : Word).extractLsb' 16 5 = 0 := by decide

theorem witness_SeobSetsTheTag : (16#5).toNat ≤ 16 ∧ 16 < (17#5).toNat ∧ opField 0x10000020 = 0x04 ∧
    (0x10000020 : Word).extractLsb' 5 16 ≠ 0 ∧ opField 0x13E0001F = 0x04 ∧ (0x13E0001F : Word).extractLsb' 5 16 = 0 := by decide

theorem witness_FdctOfAConstantBlock : State.reset.cfg.fdctc = fdctStandard ∧
    (∀ i < 16, lane ((withB1 (List.replicate 16 255)).block 1) i = 255) ∧
    ∀ i < 16, lane ((withB1 (List.replicate 16 (-255))).block 1) i = -255 := by decide

theorem witness_FdctOfResidualsNeverWraps : ∀ i < 16,
    -255 ≤ (if i % 2 = 0 then 255 else -255 : Int) ∧ (if i % 2 = 0 then 255 else -255 : Int) ≤ 255 := by decide

theorem witness_GdcGathersLaneZero : (16#5).toNat + 15 ≤ 31 ∧ 31 < (17#5).toNat + 15 ∧ (31#5).toNat = (16#5).toNat + 15 := by decide

theorem witness_QuantizerIsOddAndMonotone : (-1 : Int) ≠ 0 ∧ 0 < (QEntry.mk 0 0 1 0).zbin.toNat + 0 ∧
    (QEntry.mk 1 65535 0 0).round.toNat * (QEntry.mk 1 65535 0 0).quant.toNat < 65536 ∧
    (QEntry.mk 1 1 3 4).zbin.toNat + 1 ≤ 4 ∧ 4 ≤ 4 := by decide

theorem witness_QuantizeDequantizeOvershootIsBounded : State.reset.cfg.qlut = .standard ∧ 3 < 4 ∧ 127 < 128 ∧ 15 < 16 ∧
    32602 ≤ 32602 := by decide

theorem witness_BstartOpensTheWindow :
    (∃ s : State, s.obase.toNat ≤ s.olimit.toNat ∧ s.olimit.toNat ≤ s.cfg.nobuf) ∧
    ¬(({ State.reset with obase := 8, olimit := 4 } : State).obase.toNat ≤
      ({ State.reset with obase := 8, olimit := 4 } : State).olimit.toNat) ∧
    ¬(({ State.reset with olimit := 65537 } : State).olimit.toNat ≤ State.reset.cfg.nobuf) :=
  ⟨⟨State.reset, by decide⟩, by decide, by decide⟩

/-- Each check of the order; then, from states with `BacOk`, each end of the loop: no turn, a carry with no byte to take it
(vector B14), a byte with no room. -/
theorem witness_BboolFaultsInOrderAndPrecisely :
    (State.reset.bcActive = 0 ∧ started.bcActive = 1 ∧ (1 : BitVec 8) ≠ 0 ∧
      ({ started with bcRange := 127 } : State).bacOk = false ∧ started.bacOk = true) ∧
    Turns 0 65536 { range := 254, low := 0, count := 24, pos := 0, mem := started.mem }
      (.ok { range := 254, low := 0, count := 24, pos := 0, mem := started.mem }) ∧
    (({ started with bcRange := 128, bcLow := 0x80000000 } : State).bacOk = true ∧
      ({ started with bcRange := 128, bcLow := 0x80000000 } : State).carryOk = false ∧
      Turns 0 65536 { range := 64, low := 0x80000000, count := 24, pos := 0, mem := started.mem } (.error .carry)) ∧
    ({ started with bcRange := 128, bcCount := 1, olimit := 0 } : State).bacOk = true ∧
      Turns 0 0 { range := 64, low := 0, count := 1, pos := 0, mem := started.mem } (.error .obufFull) :=
  ⟨by decide, .enough (by decide),
    ⟨by decide, by decide, .fault (by decide) (.inl ⟨rfl, by decide, fun _ _ h => absurd h (Nat.not_lt_zero _)⟩)⟩,
    by decide, .fault (by decide) (.inr ⟨rfl, fun h => absurd h.1 (by decide), rfl, rfl⟩)⟩

theorem witness_CoderInvariantIsPreserved : State.reset.obase.toNat ≤ State.reset.olimit.toNat ∧
    State.reset.olimit.toNat ≤ State.reset.cfg.nobuf ∧ ∃ t, encodeBool true 255 started = .done t := ⟨by decide, by decide, _, rfl⟩

theorem witness_SplitLeavesBothSubRanges : ({ started with bcRange := 128 } : State).bacOk = true ∧
    (∃ t, encodeBool true 255 { started with bcRange := 128 } = .done t) ∧
    (∃ t, encodeBool false 1 { started with bcRange := 128 } = .done t) := ⟨by decide, ⟨_, rfl⟩, _, rfl⟩

/-- A fresh coder, and a coder two bytes on with a carry pending and room for exactly one more byte. -/
theorem witness_BboolIsExactArithmetic : started.bcActive = 1 ∧ (1 : BitVec 8) ≠ 0 ∧ started.carryOk = true ∧
    hasRoom [(true, 1)] started = true ∧
    (let m := (State.reset.mem.write 0x20000 0x7F).write 0x20001 0xFF
    let s : State := { started with bcRange := 128, bcLow := 0x80000000, bcCount := 1, bcPos := 2, olimit := 3, mem := m }
    s.bcActive = 1 ∧ s.carryOk = true ∧ hasRoom [(false, 128)] s = true) := by decide

/-- A window that `BSTART` allows; the two ends of the probabilities; both exits, an empty window and a probability 0. -/
theorem witness_CarryNeverFailsAfterStart :
    (State.reset.obase.toNat ≤ State.reset.olimit.toNat ∧ State.reset.olimit.toNat ≤ State.reset.cfg.nobuf) ∧
    (started.carryOk = true ∧ started.bcActive = 1 ∧ ∃ t, encodeBool true 255 started = .done t) ∧
    (let s : State := { started with olimit := 0, bcCount := 1 }
    s.carryOk = true ∧ s.bcActive = 1 ∧ ∃ t, encodeBool false 1 s = .raised .obufFull t) ∧
    (∃ t, encodeBools (List.replicate 25 (false, 128)) ({ State.reset with olimit := 0 } : State).startCoder =
      .raised .obufFull t) ∧
    ∃ t, encodeBools [(true, 255), (false, 0)] State.reset.startCoder = .raised .prob0 t :=
  ⟨by decide, ⟨by decide, by decide, _, rfl⟩, ⟨by decide, by decide, _, rfl⟩, ⟨_, rfl⟩, _, rfl⟩

theorem witness_BlitCodesItsBitsExactly : (16#5).toNat ≤ 16 ∧ started.bcActive = 1 ∧ started.carryOk = true ∧
    (literalBools 16 0xFFFF).length = (16#5).toNat ∧
    (∀ k (hk : k < (literalBools 16 0xFFFF).length),
      (literalBools 16 0xFFFF)[k] = ((0xFFFF : BitVec 16).getLsbD (16 - 1 - k), 128)) ∧
    hasRoom (literalBools 16 0xFFFF) started = true := by decide

/-- Room for exactly one byte; and the bytes the exact coder gives for the vectors B3 and B8. -/
theorem witness_BstopFlushesTheStream :
    (let s : State := { started with olimit := 1 }
    s.bcActive = 1 ∧ s.carryOk = true ∧ s.bcPos.toNat + (1 + (31 - s.bcCount.toNat) / 8) ≤ s.olimit.toNat) ∧
    (exactRun ((true, 128) :: List.replicate 32 (false, 128)) started).written = 0x8000 ∧
    (exactRun (List.replicate 24 (true, 128) ++ List.replicate 32 (false, 128)) started).written = 0xFEFFFF0200 :=
  ⟨by decide, by decide +kernel, by decide +kernel⟩

/-- No room for one byte: each command, with a probability that makes its first bool complete a byte. -/
theorem witness_FullWindowStopsTheCoder :
    (let s : State := { started with olimit := 0, bcCount := 1 }
    s.bcActive = 1 ∧ s.carryOk = true ∧ s.fstat = 0 ∧ hasRoom [((1 : BitVec 1) == 1, (255 : BitVec 8).toNat)] s = false ∧
      hasRoom (literalBools 1 1) s = false ∧ hasRoom (List.replicate 32 (false, 128)) s = false) ∧
    (let s : State := { treeState with bcActive := 1, olimit := 0, bcCount := 1 }
    s.carryOk = true ∧ s.fstat = 0 ∧ hasRoom [(true, 128), (false, 50)] s = false) ∧
    (let s : State := { tokenState 0x00C0000B with
      olimit := 0, bcCount := 1, mem := (tokenState 0x00C0000B).mem.write (cprobAddr 3 0 0 0) 1 }
    s.bcActive = 1 ∧ s.carryOk = true ∧ s.fstat = 0 ∧ s.cfg.wf = true ∧
      s.tkrp.toNat + (1 : BitVec 16).toNat ≤ s.tkwp.toNat ∧ s.tkwp.toNat ≤ s.cfg.ntok ∧
      tokenReady s.mem (unpackToken (s.mem.tokm 0)) = true ∧ hasRoom [] s = true ∧
      hasRoom ([] ++ tokenBools s.mem (unpackToken (s.mem.tokm 0))) s = false) := by decide

/-- A second bool that fails; a first bool that fails; the commands' own checks passed, with the coder inactive and with a
range out of its bounds; runs that end, and runs that a carry the host wrote stops. -/
theorem witness_EarlyCoderFaultsArePrecise :
    (∃ t u, encodeBools [(true, 255)] { started with olimit := 0, bcCount := 14 } = .done t ∧
      encodeBool true 255 t = .raised .obufFull u) ∧
    (∃ t, encodeBools [(true, 1)] State.reset = .raised .notActive t) ∧
    (∃ t, encodeBools [(true, 255)] { started with bcCount := 0 } = .raised .coderRange t) ∧
    (1 ≤ (1#5).toNat ∧ (16#5).toNat ≤ 16) ∧ State.reset.bcActive = 0 ∧
    ({ started with bcRange := 127 } : State).bacOk = false ∧
    checkedPath treeState.mem 0 0 2 = .ok [(0, true), (4, false)] ∧
    (let s := tokenState 0x00C0000B
    (1 : BitVec 16) ≠ 0 ∧ s.tkrp.toNat + (1 : BitVec 16).toNat ≤ s.tkwp.toNat ∧ s.tkwp.toNat ≤ s.cfg.ntok ∧
      tokenReady s.mem (unpackToken (s.mem.tokm s.tkrp.toNat)) = true) ∧
    (∃ t, encodeBools (List.replicate 32 (false, 128)) started = .done t) ∧
    (∃ t, encodeBools (literalBools 1 1) { started with bcLow := 0xC0000000 } = .raised .carry t) ∧
    (let s := tokenState 0x00C0000B
    s.cfg.wf = true ∧ ∃ t, encodeBools (tokenBools s.mem (unpackToken (s.mem.tokm 0))) s = .done t) ∧
    (let s : State := { tokenState 0x00C0000B with bcRange := 128, bcLow := 0x80000000 }
    ∃ t, encodeBools (tokenBools s.mem (unpackToken (s.mem.tokm 0))) s = .raised .carry t) ∧
    (let s : State := { twoTokenState 0x00C0000C with bcLow := 0xC0000000, bcRange := 255 }
    s.carryOk = false ∧ tokenReady s.mem (unpackToken (s.mem.tokm 1)) = false ∧
      ∃ t, encodeBools (tokenBools s.mem (unpackToken (s.mem.tokm 0))) s = .done t) :=
  ⟨⟨_, _, rfl, rfl⟩, ⟨_, rfl⟩, ⟨_, rfl⟩, by decide, by decide, by decide, by rfl, by decide, ⟨_, rfl⟩, ⟨_, rfl⟩,
    ⟨by decide, _, rfl⟩, ⟨_, rfl⟩, by decide, by decide, _, rfl⟩

/-- A path found below the root of the token tree, in a table of 256 entries, and a malformation that comes first; a tree with
all its leaves, and a root outside the table. -/
theorem witness_FoundPathsFollowTheTree :
    findPath coefTree 22 0 10 2 = .ok [(2, true), (4, true), (6, true), (12, true), (16, true), (20, true)] ∧
    (22 ≤ 256 ∧ 2 % 2 = 0) ∧ findPath treeState.mem.treem 256 0 4 0 = .error .tree ∧
    (∃ leaves, treeLeaves treeState.mem 0 = some leaves) ∧ malformedAt treeState.mem.treem 256 255 0 [] :=
  ⟨by rfl, by decide, by rfl, ⟨_, rfl⟩, 0, rfl, .inl (by decide)⟩

theorem witness_TwriteCodesThePath :
    let s : State := { treeState with bcActive := 1 }
    s.cfg.wf = true ∧ findPath s.mem.treem 256 0 2 0 = .ok [(0, true), (4, false)] ∧
      (∀ node ∈ [(0, true), (4, false)], 0 + node.1 / 2 ≤ 255 ∧ s.mem.probm (0 + node.1 / 2) ≠ 0) ∧ s.bcActive = 1 ∧
      s.carryOk = true ∧ hasRoom [(true, 128), (false, 50)] s = true :=
  ⟨by decide, by rfl, by decide, by decide, by decide, by decide⟩

theorem witness_TcostSumsThePath : findPath treeState.mem.treem 256 0 2 0 = .ok [(0, true), (4, false)] ∧
    (∀ node ∈ [(0, true), (4, false)], 0 + node.1 / 2 ≤ 255 ∧ treeState.mem.probm (0 + node.1 / 2) ≠ 0) ∧
    255 < (List.replicate 256 (7 : BitVec 16)).length ∧
    ({ configStandard with costtab := .custom (List.replicate 256 7) } : Config).wf = true ∧
    State.reset.cfg.costtab = .standard := 
  ⟨by rfl, by decide, List.length_replicate ▸ by decide, config_wf_of_full_costtab _ List.length_replicate, by decide⟩

theorem witness_TcostsAgreesWithTcost : checkedLeaves treeState.mem 0 0 =
    .ok [(0, [(0, false), (2, false)]), (1, [(0, false), (2, true)]), (2, [(0, true), (4, false)]), (3, [(0, true), (4, true)])] := by
  rfl

/-- Both codes for both searches: no such leaf, a root outside the table, and a probability 0, which stands in `PROBM[3]`; an
index outside `PROBM` for the second node of a path. -/
theorem witness_TreeFaultsArePrecise : checkedPath treeState.mem 0 0 4 = .error .tree ∧
    checkedPath treeState.mem 0 1 2 = .error .prob0 ∧ checkedLeaves treeState.mem 255 0 = .error .tree ∧
    checkedLeaves treeState.mem 0 1 = .error .prob0 ∧ 128 < (129 : BitVec 8).toNat ∧
    findPath treeState.mem.treem 256 0 4 0 = .error .tree ∧
    findPath treeState.mem.treem 256 0 2 0 = .ok ([(0, true)] ++ (4, false) :: []) ∧
    (∀ n ∈ [(0, true)], 1 + n.1 / 2 ≤ 255 ∧ treeState.mem.probm (1 + n.1 / 2) ≠ 0) ∧
    ¬(1 + 4 / 2 ≤ 255 ∧ treeState.mem.probm (1 + 4 / 2) ≠ 0) ∧ 255 < 254 + 4 / 2 ∧
    treeLeaves treeState.mem 255 = none ∧ treeLeaves treeState.mem 0 =
      some ([(0, [(0, false), (2, false)]), (1, [(0, false), (2, true)])] ++ (2, [(0, true)] ++ (4, false) :: []) ::
        [(3, [(0, true), (4, true)])]) ∧
    ∀ leaf ∈ [(0, [(0, false), (2, false)]), (1, [(0, false), (2, true)])], ∀ n ∈ leaf.2,
      1 + n.1 / 2 ≤ 255 ∧ treeState.mem.probm (1 + n.1 / 2) ≠ 0 :=
  ⟨by rfl, by rfl, by rfl, by rfl, by decide, by rfl, by rfl, by decide, by decide, by decide, by rfl, by rfl, by decide⟩

/-- A block of three coefficients, an all-zero block, a full block; the last with exactly the room it needs. -/
theorem witness_TknAppendsTheRecords :
    State.reset.cfg.wf = true ∧ (2 : BitVec 2) ≠ 3 ∧
    eobAgrees (blockFrom [2114, -2, 0, 0, -9]) 3 = true ∧ eobAgrees (blockFrom []) 0 = true ∧
    eobAgrees (blockFrom (List.replicate 16 (-2114))) 16 = true ∧
    (∀ k, 3 ≤ k → k < 16 → lane (blockFrom [2114, -2, 0, 0, -9]) (zigzag k) = 0) ∧
    (∀ k < 3, (lane (blockFrom [2114, -2, 0, 0, -9]) (zigzag k)).natAbs ≤ 2114) ∧
    lane (blockFrom [2114, -2, 0, 0, -9]) (zigzag 2) ≠ 0 ∧ 4080 + 16 ≤ State.reset.cfg.ntok := by
  refine ⟨by decide, by decide, by decide, by decide, by decide, ?_, by decide, by decide, by decide⟩
  intro k h3 h16
  have : ∀ k < 16, 3 ≤ k → lane (blockFrom [2114, -2, 0, 0, -9]) (zigzag k) = 0 := by decide
  exact this k h16 h3

theorem witness_TknRecordsPassValidation : (2 : BitVec 2) ≠ 3 ∧ eobAgrees (blockFrom [2114]) 1 = true ∧
    ∃ tokens, tokenize (blockFrom [2114]) 3 2 1 = some tokens := ⟨by decide, by decide, _, rfl⟩

/-- All four faults: `c0 = 3`; a tag above 16, one that names a zero coefficient, a coefficient at the tag; the least
magnitude too large; room for one record too few. -/
theorem witness_TknFaultsArePrecise : State.reset.fstat = 0 ∧
    (∃ u, exec (.tkn 1 3 3) State.reset = .next u ∧ u.fcause = 0x13) ∧
    (∃ u, exec (.tkn 1 3 2) (State.reset.setEobTag 1 17) = .next u ∧ u.fcause = 0x31) ∧
    (1 ≤ 1 ∧ lane (blockFrom [0]) (zigzag 0) = 0) ∧ (1 < 16 ∧ lane (blockFrom [1, 1]) (zigzag 1) ≠ 0) ∧
    (∃ u, exec (.tkn 1 3 2) ((withB1 [2115]).setEobTag 1 1) = .next u ∧ u.fcause = 0x34) ∧
    ∃ u, exec (.tkn 1 3 2) { State.reset with tkwp := 4096 } = .next u ∧ u.fcause = 0x21 :=
  ⟨by decide, ⟨_, rfl, by decide⟩, ⟨_, rfl, by decide⟩, by decide, by decide, ⟨_, rfl, by decide⟩, _, rfl, by decide⟩

/-- Valid records at the ends of the ids, extra values and skip bits, and a state about to code one. -/
theorem witness_PuttokCodesItsRecords :
    tokenValid { id := 10, band := 7, ctx := 2, skip := 1, sign := 1, extra := 2047, type := 3, reserved := 0 } = true ∧
    tokenValid { id := 0, band := 0, ctx := 0, skip := 1, sign := 0, extra := 0, type := 0, reserved := 0 } = true ∧
    tokenValid { id := 11, band := 7, ctx := 2, skip := 0, sign := 0, extra := 0, type := 3, reserved := 0 } = true ∧
    (let s := tokenState 0x00C0000B
    s.cfg.wf = true ∧ s.tkrp.toNat + (1 : BitVec 16).toNat ≤ s.tkwp.toNat ∧ s.tkwp.toNat ≤ s.cfg.ntok ∧ s.bcActive = 1 ∧
      s.carryOk = true ∧ tokenReady s.mem (unpackToken (s.mem.tokm 0)) = true ∧
      tokenBools s.mem (unpackToken (s.mem.tokm 0)) = [(false, 128)] ∧ hasRoom [(false, 128)] s = true) := by decide

/-- The first record of two is ready and has room. -/
def firstTokenReady (s : State) : Bool :=
  s.cfg.wf && s.carryOk && s.bcActive == 1 && tokenReady s.mem (unpackToken (s.mem.tokm 0)) &&
    hasRoom (tokenBools s.mem (unpackToken (s.mem.tokm 0))) s && decide (s.tkrp.toNat + 2 ≤ s.tkwp.toNat)

/-- A count past the records, an inactive coder, a record that is not valid, a probability 0; the last two also at the
second record, after one that is written. -/
theorem witness_PuttokFaultsBeforeATokenArePrecise :
    (let s := tokenState 0x00C0000C
    let u : State := { tokenState 0x00C0000B with mem := s.mem.writeWord 0x10000 0x00C0000B |>.write (cprobAddr 3 0 0 0) 0 }
    ¬(s.tkrp.toNat + (2 : BitVec 16).toNat ≤ s.tkwp.toNat) ∧ s.tkrp.toNat + (1 : BitVec 16).toNat ≤ s.tkwp.toNat ∧
      s.tkwp.toNat ≤ s.cfg.ntok ∧ ({ s with bcActive := 0 } : State).bcActive = 0 ∧ s.bcActive = 1 ∧
      tokenValid (unpackToken (s.mem.tokm 0)) = false ∧ tokenValid (unpackToken (u.mem.tokm 0)) = true ∧
      tokenReady u.mem (unpackToken (u.mem.tokm 0)) = false) ∧
    (firstTokenReady (twoTokenState 0x00C0000C) = true ∧
      tokenValid (unpackToken ((twoTokenState 0x00C0000C).mem.tokm 1)) = false) ∧
    firstTokenReady (twoTokenState 0x00C0001B) = true ∧
      tokenValid (unpackToken ((twoTokenState 0x00C0001B).mem.tokm 1)) = true ∧
      tokenReady (twoTokenState 0x00C0001B).mem (unpackToken ((twoTokenState 0x00C0001B).mem.tokm 1)) = false :=
  ⟨by decide, by decide, by decide, by decide, by decide⟩

end Sys2Proof.Tests
end

section
/-! PROOFS. The parameters of the hardware, in `cfg`, are kept by every operation of the machine, and so by every step. -/

namespace Sys2Proof.Machine

/-! ## How a run ends -/

/-- The state a run leaves, before its fault is recorded. -/
def Run.state : Run → State
  | .done s => s
  | .raised _ s => s

@[simp] theorem Run.state_done (s : State) : (Run.done s).state = s := rfl

@[simp] theorem Run.state_raised (code : FaultCode) (s : State) : (Run.raised code s).state = s := rfl

/-- Recording the fault of a run leaves the parameters. -/
@[simp] theorem Run.settle_cfg (word : Word) (r : Run) : (r.settle word).cfg = r.state.cfg := by
  cases r with
  | done s => rfl
  | raised code s => exact s.raise_cfg code word

/-- What is known of the parameters after a run is known of the state taken from its result. -/
theorem Run.cfg_of_eq {r r' : Run} {s : State} (hr : r.state.cfg = s.cfg) (h : r = r') : r'.state.cfg = s.cfg := h ▸ hr

/-- The next state an outcome gives, if any, has the parameters of `s`. -/
def KeepsCfg (s : State) (o : Host.Outcome State Fault Refusal) : Prop := ∀ t, o = .next t → t.cfg = s.cfg

theorem keepsCfg_next {s t : State} (h : t.cfg = s.cfg) : KeepsCfg s (.next t) := by
  rintro _ ⟨⟩
  exact h

/-- A command keeps the parameters when its run does. -/
theorem keepsCfg_finish {s : State} {r : Run} (i : Instr) (h : r.state.cfg = s.cfg) : KeepsCfg s (finish i r) :=
  keepsCfg_next ((r.settle_cfg _).trans h)

/-! ## The boolean coder -/

/-- A coding step, completed or not, changes at most the coder tuple, `OBUF` and ACTIVE. -/
theorem encodeBool_state (bit : Bool) (p : Nat) (s : State) :
    (encodeBool bit p s).state = s ∨ (∃ c, (encodeBool bit p s).state = s.withCoder c) ∨
      (encodeBool bit p s).state = { s with bcActive := 0 } := by
  obtain ⟨-, h⟩ | ⟨-, -, h⟩ | ⟨-, -, -, h⟩ | ⟨-, -, -, ⟨c, -, h⟩ | ⟨-, h⟩ | ⟨code, -, -, h⟩⟩ := encodeBool_cases bit p s
  · exact .inl (congrArg Run.state h)
  · exact .inl (congrArg Run.state h)
  · exact .inl (congrArg Run.state h)
  · exact .inr (.inl ⟨c, congrArg Run.state h⟩)
  · exact .inr (.inr (congrArg Run.state h))
  · exact .inl (congrArg Run.state h)

@[simp] theorem encodeBool_cfg (bit : Bool) (p : Nat) (s : State) : (encodeBool bit p s).state.cfg = s.cfg := by
  obtain h | ⟨c, h⟩ | h := encodeBool_state bit p s
  · rw [h]
  · rw [h]; exact s.withCoder_cfg c
  · rw [h]

@[simp] theorem encodeBools_cfg (bools : List (Bool × Nat)) (s : State) : (encodeBools bools s).state.cfg = s.cfg := by
  induction bools generalizing s with
  | nil => rfl
  | cons b rest ih =>
    obtain ⟨bit, p⟩ := b
    rw [encodeBools_cons]
    cases h : encodeBool bit p s with
    | done s' => exact (ih s').trans (Run.cfg_of_eq (encodeBool_cfg bit p s) h)
    | raised code s' => exact Run.cfg_of_eq (encodeBool_cfg bit p s) h

/-! ## The stores of TCOSTS and TKN, and the tokens of PUTTOK -/

@[simp] theorem writeCosts_cfg (costs : List (Nat × Nat)) (done : List Nat) (s : State) :
    (writeCosts costs done s).cfg = s.cfg := by
  induction costs generalizing done s with
  | nil => rfl
  | cons entry rest ih =>
    obtain ⟨value, cost⟩ := entry
    unfold writeCosts
    split
    · exact ih done s
    · exact (ih _ _).trans (s.setCostm_cfg value cost)

@[simp] theorem storeTokens_cfg (k : Nat) (tokens : List Token) (s : State) : (storeTokens k tokens s).cfg = s.cfg := by
  induction tokens generalizing k s with
  | nil => rfl
  | cons token rest ih => exact (ih (k + 1) _).trans (s.setTokm_cfg k _)

@[simp] theorem putToken_cfg (s : State) : (putToken s).state.cfg = s.cfg := by
  unfold putToken
  simp only
  split
  · rfl
  · split
    · rfl
    · split
      · rfl
      · split
        next code s' h => exact Run.cfg_of_eq (encodeBools_cfg _ s) h
        next s' h =>
          have hcoded : s'.cfg = s.cfg := Run.cfg_of_eq (encodeBools_cfg _ s) h
          exact hcoded

@[simp] theorem putTokens_cfg (n : Nat) (s : State) : (putTokens n s).state.cfg = s.cfg := by
  induction n generalizing s with
  | zero => rfl
  | succ n ih =>
    unfold putTokens
    cases h : putToken s with
    | raised code s' => exact Run.cfg_of_eq (putToken_cfg s) h
    | done s' => exact (ih s').trans (Run.cfg_of_eq (putToken_cfg s) h)

/-! ## The commands whose run depends on a check -/

theorem execBstop_keepsCfg (s : State) : KeepsCfg s (execBstop s) := by
  refine keepsCfg_finish _ ?_
  split
  · rfl
  · cases h : encodeBools flushBools s with
    | done s' => exact s'.stopCoder_cfg.trans (Run.cfg_of_eq (encodeBools_cfg _ s) h)
    | raised code s' => exact Run.cfg_of_eq (encodeBools_cfg _ s) h

theorem execTkn_keepsCfg (bs : BitVec 5) (t c0 : BitVec 2) (s : State) : KeepsCfg s (execTkn bs t c0 s) := by
  refine keepsCfg_finish _ ?_
  split
  · rfl
  · split
    · rfl
    · split
      · rfl
      · split
        · rfl
        · exact storeTokens_cfg _ _ s

theorem execPuttok_keepsCfg (count : BitVec 16) (s : State) : KeepsCfg s (execPuttok count s) := by
  refine keepsCfg_finish _ ?_
  split
  · rfl
  · split
    · rfl
    · exact putTokens_cfg _ s

theorem execTwrite_keepsCfg (tb pb v : BitVec 8) (s : State) : KeepsCfg s (execTwrite tb pb v s) := by
  refine keepsCfg_finish _ ?_
  split
  · rfl
  · exact encodeBools_cfg _ s

theorem execTcosts_keepsCfg (tb pb : BitVec 8) (s : State) : KeepsCfg s (execTcosts tb pb s) := by
  refine keepsCfg_finish _ ?_
  split
  · rfl
  · exact writeCosts_cfg _ _ s

/-- No command changes a parameter. -/
theorem exec_keepsCfg (i : Instr) (s : State) : KeepsCfg s (exec i s) := by
  cases i with
  | nop => exact keepsCfg_finish _ rfl
  | ldi bd lane imm16 => exact keepsCfg_finish _ (s.setLane_cfg bd lane imm16)
  | bfill bd imm16 => exact keepsCfg_finish _ (s.setBlock_cfg bd _)
  | seob bd n => exact keepsCfg_finish _ (by split <;> rfl)
  | gdc bd bs => exact keepsCfg_finish _ (by split <;> rfl)
  | fdct bd bs => exact keepsCfg_finish _ (s.setBlock_cfg bd _)
  | fwht bd bs => exact keepsCfg_finish _ (s.setBlock_cfg bd _)
  | quant bd bs t => exact keepsCfg_finish _ ((State.setEobTag_cfg _ bd _).trans (s.setBlock_cfg bd _))
  | dequant bd bs t => exact keepsCfg_finish _ (s.setBlock_cfg bd _)
  | tkn bs t c0 => exact execTkn_keepsCfg bs t c0 s
  | puttok count => exact execPuttok_keepsCfg count s
  | bstart => exact keepsCfg_finish _ (by split <;> rfl)
  | bbool bit prob => exact keepsCfg_finish _ (encodeBool_cfg _ _ s)
  | blit n value => exact keepsCfg_finish _ (by split; exacts [rfl, encodeBools_cfg _ s])
  | bstop => exact execBstop_keepsCfg s
  | twrite tb pb v => exact execTwrite_keepsCfg tb pb v s
  | tcost tb pb v => exact keepsCfg_finish _ (by split <;> rfl)
  | tcosts tb pb => exact execTcosts_keepsCfg tb pb s

/-! ## The host port -/

@[simp] theorem State.setPortByte_cfg (s : State) (a : Nat) (v : Byte) : (s.setPortByte a v).cfg = s.cfg := by
  unfold State.setPortByte
  split <;> rfl

@[simp] theorem State.setPortWord_cfg (s : State) (a : Nat) (d : Word) : (s.setPortWord a d).cfg = s.cfg := by
  simp only [State.setPortWord, State.setPortByte_cfg]

@[simp] theorem State.writeCsr_cfg (s : State) (offset : Nat) (d : Word) : (s.writeCsr offset d).cfg = s.cfg := by
  unfold State.writeCsr
  split
  case h_1 => exact s.clearFaults_cfg d
  case h_2 => split; exacts [rfl, s.raise_cfg _ _]
  all_goals rfl

/-- No window of the host port reaches a parameter; the window of `QLUT` ignores writes (20_memory.md R70). -/
@[simp] theorem State.writeTarget_cfg (s : State) (addr d : Word) (target : Target) :
    (s.writeTarget addr d target).cfg = s.cfg := by
  cases target with
  | csr offset => exact s.writeCsr_cfg offset d
  | lanes n pair => exact (State.setLane_cfg _ _ _ _).trans (s.setLane_cfg _ _ _)
  | eob n => exact s.setEobTag_cfg n _
  | storage => exact s.setPortWord_cfg _ d
  | qlut word => rfl

@[simp] theorem State.hostRead_cfg (s : State) (addr : Word) : (s.hostRead addr).1.cfg = s.cfg := by
  obtain ⟨-, h⟩ | ⟨target, -, h⟩ := s.hostRead_cases addr
  · rw [h]; exact s.raise_cfg _ _
  · rw [h]

@[simp] theorem State.hostWrite_cfg (s : State) (addr d : Word) : (s.hostWrite addr d).cfg = s.cfg := by
  obtain ⟨-, h⟩ | ⟨target, -, h⟩ := s.hostWrite_cases addr d
  · rw [h]; exact s.raise_cfg _ _
  · rw [h]; exact s.writeTarget_cfg addr d target

/-! ## Transactions and steps -/

/-- A write to `CMD` keeps the parameters: it is dropped, rejected, or runs a command. -/
theorem serve_cmd_keepsCfg (s : State) (w : Word) : KeepsCfg s (serve s (.hwr 0 w)) := by
  cases hh : s.halted with
  | true => rw [serve_dropped s w hh]; exact keepsCfg_next rfl
  | false =>
    cases hd : decode w with
    | error r => rw [serve_illegal s w r hh hd]; exact keepsCfg_next (s.raise_cfg _ _)
    | ok i => rw [serve_command s w i hh hd]; exact exec_keepsCfg i s

/-- No transaction changes a parameter; `rst` rebuilds every other part of the state around them (00_scope.md R12). -/
theorem serve_keepsCfg (s : State) (transaction : Transaction) : KeepsCfg s (serve s transaction) := by
  cases transaction with
  | hrd addr => exact keepsCfg_next (s.hostRead_cfg addr)
  | hwr addr w =>
    by_cases haddr : addr = 0
    · subst haddr; exact serve_cmd_keepsCfg s w
    · rw [serve_write s addr w haddr]; exact keepsCfg_next (s.hostWrite_cfg addr w)
  | rst => exact keepsCfg_next rfl

theorem step_keepsCfg (s : State) : KeepsCfg s (step s) := by
  obtain ⟨-, h⟩ | ⟨transaction, rest, -, h⟩ := step_cases s
  · rw [h]; exact keepsCfg_next rfl
  · rw [h]; exact serve_keepsCfg { s with bus := rest, rdata := none } transaction

end Sys2Proof.Machine

namespace Sys2Proof.Proofs

open Sys2Proof.Machine

/-- Settles O13, by cases on the transaction the step serves. -/
theorem noStepChangesAParameter : Obligations.NoStepChangesAParameter := fun s t h => step_keepsCfg s t h

end Sys2Proof.Proofs
end

section
/-! PROOFS. The state after reset, and the host port on the registers: what a step does with an access to a mapped address,
and what each register stores and returns. -/

namespace Sys2Proof.Machine

/-! ## Reset -/

/-- The memories after reset hold no written byte. -/
@[simp] theorem State.resetOf_written (c : Config) (epoch a : Nat) : (State.resetOf c epoch).mem.written a = none := rfl

/-- With no byte written, the memories are in order whatever the parameters. -/
@[simp] theorem State.resetOf_memoryOk (c : Config) (epoch : Nat) : (State.resetOf c epoch).memoryOk = true := rfl

/-- After reset there is no fault and no cause. -/
@[simp] theorem State.resetOf_faultsOk (c : Config) (epoch : Nat) : (State.resetOf c epoch).faultsOk = true := rfl

/-- Of the invariant only the bounds of the parameters are left to show after a reset. -/
theorem State.resetOf_inv (c : Config) (epoch : Nat) (hc : c.wf = true) : (State.resetOf c epoch).inv = true := by
  have hcfg : (State.resetOf c epoch).cfg.wf = true := hc
  have hcount : (State.resetOf c epoch).tkcnt.toNat ≤ 16 := Nat.zero_le 16
  simp [State.inv, hcfg, hcount]

/-- A step that serves `rst` leaves the reset state around the parameters and the host's list
(70_reset_and_hazards.md R250). -/
theorem step_rst (s : State) (rest : List Transaction) :
    step { s with bus := .rst :: rest } = .next { State.resetOf s.cfg (s.mem.epoch + 1) with bus := rest } := rfl

/-! ## Accesses to mapped addresses -/

/-- A read at the port depends neither on the host's list nor on the last read data. -/
theorem State.readTarget_withBus (s : State) (bus : List Transaction) (rdata : Option Word) (addr : Word)
    (target : Target) : State.readTarget { s with bus := bus, rdata := rdata } addr target = s.readTarget addr target := by
  cases target <;> rfl

/-- A step that serves a read of a mapped address returns what is there and has no other effect. -/
theorem step_hrd_mapped (s : State) (rest : List Transaction) {addr : Word} {target : Target}
    (ht : portTarget s.cfg addr = some target) :
    step { s with bus := .hrd addr :: rest } = .next { s with bus := rest, rdata := some (s.readTarget addr target) } := by
  have hread : State.hostRead { s with bus := rest, rdata := none } addr =
      ({ s with bus := rest, rdata := none }, s.readTarget addr target) := by
    simp only [State.hostRead, ht, State.readTarget_withBus]
  change serve { s with bus := rest, rdata := none } (.hrd addr) = _
  simp only [serve, hread]

/-- A step that serves a write to a mapped address other than `CMD`'s. -/
theorem step_hwr_mapped (s : State) (d : Word) (rest : List Transaction) {addr : Word} {target : Target} (hne : addr ≠ 0)
    (ht : portTarget s.cfg addr = some target) :
    step { s with bus := .hwr addr d :: rest } =
      .next (State.writeTarget { s with bus := rest, rdata := none } addr d target) := by
  have hwrite : State.hostWrite { s with bus := rest, rdata := none } addr d =
      State.writeTarget { s with bus := rest, rdata := none } addr d target := by
    simp only [State.hostWrite, ht]
  exact (serve_write _ addr d hne).trans (congrArg _ hwrite)

/-! ## The registers -/

theorem portTarget_csr (c : Config) {addr : Word} (haligned : addr.toNat % 4 = 0) (hlt : addr.toNat < 0x4C) :
    portTarget c addr = some (.csr addr.toNat) := by
  simp [portTarget, haligned, hlt]

/-- A host write to a register other than `CMD`, by what the register makes of the word. -/
theorem step_hwr_csr (s : State) (d : Word) (rest : List Transaction) {addr : Word} {t : State} (hne : addr ≠ 0)
    (haligned : addr.toNat % 4 = 0) (hlt : addr.toNat < 0x4C)
    (ht : State.writeCsr { s with bus := rest, rdata := none } addr.toNat d = t) :
    step { s with bus := .hwr addr d :: rest } = .next t :=
  ht ▸ step_hwr_mapped s d rest hne (portTarget_csr s.cfg haligned hlt)

/-- A host read of a register, by the word of the register. -/
theorem step_hrd_csr (s : State) (rest : List Transaction) {addr v : Word} (haligned : addr.toNat % 4 = 0)
    (hlt : addr.toNat < 0x4C) (hv : s.csrWords.getD (addr.toNat / 4) 0 = v) :
    step { s with bus := .hrd addr :: rest } = .next { s with bus := rest, rdata := some v } :=
  hv ▸ step_hrd_mapped s rest (portTarget_csr s.cfg haligned hlt)

/-- The bits above the seven of `QIDX` are 0 exactly in the words below 128 (10_state.md R25). -/
theorem extractLsb'_seven_eq_zero_iff (d : Word) : d.extractLsb' 7 25 = 0 ↔ d.toNat < 128 := by
  rw [← BitVec.toNat_inj, BitVec.extractLsb'_toNat, Nat.shiftRight_eq_div_pow]
  have hd : d.toNat < 2 ^ 32 := d.isLt
  change d.toNat / 2 ^ 7 % 2 ^ 25 = 0 ↔ _
  omega

/-- `QIDX` takes an index of the look-up table (10_state.md R25). -/
theorem State.writeCsr_qidx_of_lt (s : State) (d : Word) (h : d.toNat < 128) :
    s.writeCsr 0x14 d = { s with qidx := BitVec.ofNat 7 d.toNat } :=
  if_pos ((extractLsb'_seven_eq_zero_iff d).mpr h)

/-- `QIDX` refuses any other word (10_state.md R25). -/
theorem State.writeCsr_qidx_of_le (s : State) (d : Word) (h : 128 ≤ d.toNat) : s.writeCsr 0x14 d = s.raise .qidx 0x14 :=
  if_neg (mt (extractLsb'_seven_eq_zero_iff d).mp (Nat.not_lt.mpr h))

/-- Each register reads as its bits with 0 above them. -/
theorem State.csrWords_eq_map_ofNat (s : State) :
    s.csrWords = [0, s.fstat.toNat, s.fcause.toNat, s.finfo.toNat, 0, s.qidx.toNat, s.zbinx.toNat, s.obase.toNat,
      s.olimit.toNat, s.bcActive.toNat, s.bcRange.toNat, s.bcLow.toNat, s.bcCount.toNat, s.bcPos.toNat, s.blen.toNat,
      s.tkwp.toNat, s.tkrp.toNat, s.cost.toNat, s.tkcnt.toNat].map (BitVec.ofNat 32) := by
  simp [State.csrWords]

/-! ## The window of the EOB tags -/

/-- The byte address of `EOB[n]` (20_memory.md R68). -/
theorem eobAddr_toNat (n : BitVec 5) : (BitVec.ofNat 32 (0x800 + 4 * n.toNat)).toNat = 0x800 + 4 * n.toNat := by
  have hn : n.toNat < 32 := n.isLt
  exact Nat.mod_eq_of_lt (by omega)

theorem portTarget_eob (c : Config) (n : BitVec 5) :
    portTarget c (BitVec.ofNat 32 (0x800 + 4 * n.toNat)) = some (.eob n) := by
  have hn : n.toNat < 32 := n.isLt
  have haligned : (0x800 + 4 * n.toNat) % 4 = 0 := by omega
  have hindex : BitVec.ofNat 5 ((0x800 + 4 * n.toNat - 0x800) / 4) = n := by
    rw [Nat.add_sub_cancel_left, Nat.mul_div_cancel_left _ (by decide), BitVec.ofNat_toNat, BitVec.setWidth_eq]
  simp only [portTarget, eobAddr_toNat, hindex]
  rw [if_neg (by omega), if_neg (by omega), if_neg (by omega), if_pos (by omega)]

/-- A host read of the tag of a block register. -/
theorem step_hrd_eob (s : State) (rest : List Transaction) (n : BitVec 5) :
    step { s with bus := .hrd (BitVec.ofNat 32 (0x800 + 4 * n.toNat)) :: rest } =
      .next { s with bus := rest, rdata := some (BitVec.ofNat 32 (s.eobTag n).toNat) } := by
  rw [step_hrd_mapped s rest (portTarget_eob s.cfg n), BitVec.ofNat_toNat]
  rfl

end Sys2Proof.Machine

namespace Sys2Proof.Proofs

open Sys2Proof.Machine

/-- Settles O12: reset leaves no written byte and no fault, so the bounds of the parameters decide. -/
theorem resetStateHasTheInvariant : Obligations.ResetStateHasTheInvariant :=
  ⟨State.resetOf_inv, State.resetOf_inv configStandard 0 (by decide), rfl, rfl, rfl, rfl⟩

/-- Settles O15: the state after `rst` and `State.reset` are both `State.resetOf` of some parameters. -/
theorem resetLeavesTheStatedValues : Obligations.ResetLeavesTheStatedValues := by
  intro s rest
  refine ⟨_, step_rst s rest, rfl, rfl, rfl, rfl, ?_⟩
  intro u hu
  have hreset : ∃ c epoch bus, u = { State.resetOf c epoch with bus := bus } := by
    obtain rfl | rfl := hu
    · exact ⟨s.cfg, s.mem.epoch + 1, rest, rfl⟩
    · exact ⟨configStandard, 0, [], rfl⟩
  obtain ⟨c, epoch, bus, rfl⟩ := hreset
  exact ⟨rfl, rfl, rfl, rfl, rfl, rfl, rfl, rfl, rfl, rfl, rfl, rfl, rfl, rfl, rfl, rfl, State.resetOf_written c epoch⟩

/-- Settles O18: every address named is mapped, so a write is `State.writeCsr` at its offset and a read its entry of
`State.csrWords`, or the tag. -/
theorem registerWritesStoreTheirBits : Obligations.RegisterWritesStoreTheirBits := by
  intro s d rest
  refine ⟨?stored, ?returned, step_hrd_eob s rest⟩
  case stored =>
    refine ⟨fun h => ?_, fun h => ?_, ?_, ?_, ?_, ?_, ?_, ?_, ?_, ?_, ?_, ?_⟩
    · exact step_hwr_csr s d rest (by decide) (by decide) (by decide) (State.writeCsr_qidx_of_lt _ d h)
    · exact step_hwr_csr s d rest (by decide) (by decide) (by decide) (State.writeCsr_qidx_of_le _ d h)
    all_goals exact step_hwr_csr s d rest (by decide) (by decide) (by decide) rfl
  case returned =>
    have hwords := s.csrWords_eq_map_ofNat
    refine ⟨?_, ?_, ?_, ?_, ?_, ?_, ?_, ?_, ?_, ?_, ?_, ?_, ?_, ?_, ?_, ?_, ?_, ?_, ?_⟩
    all_goals exact step_hrd_csr s rest (by decide) (by decide) (by rw [hwords]; rfl)

end Sys2Proof.Proofs
end

section
/-! PROOFS. The invariant of the machine is kept by every operation, and so by every step: each write of a memory falls on a
byte of its window, `TKN` makes at most 16 records, and the fault registers agree after every fault and every `FCLR`. -/

namespace Sys2Proof.Machine

/-! ## The memories inside their windows -/

/-- The memories hold only bytes of the windows that the parameters `c` give, in the canonical form (20_memory.md R64, R82). -/
def Memory.InWindows (c : Config) (m : Memory) : Prop := m.wf = true ∧ ∀ cell ∈ m.cells, storageByte c cell.1 = true

theorem State.memoryOk_iff (s : State) : s.memoryOk = true ↔ s.mem.InWindows s.cfg := by
  simp [State.memoryOk, Memory.InWindows]

theorem Memory.InWindows.write {c : Config} {m : Memory} (hm : m.InWindows c) {a : Nat} (ha : storageByte c a = true)
    (v : Byte) : (m.write a v).InWindows c := by
  refine ⟨m.wf_write a v hm.1, fun cell hcell => ?_⟩
  obtain rfl | hold := mem_cellsPut m.cells a v cell hcell
  · exact ha
  · exact hm.2 cell hold

/-- A word is stored inside a window when each of its four bytes is. -/
theorem Memory.InWindows.writeWord {c : Config} {m : Memory} (hm : m.InWindows c) {a : Nat}
    (ha : ∀ j < 4, storageByte c (a + j) = true) (w : Word) : (m.writeWord a w).InWindows c :=
  (((hm.write (ha 0 (by decide)) _).write (ha 1 (by decide)) _).write (ha 2 (by decide)) _).write (ha 3 (by decide)) _

/-- The bytes of the memories, window by window (20_memory.md R68). -/
theorem storageByte_iff (c : Config) (a : Nat) :
    storageByte c a = true ↔ (0x1000 ≤ a ∧ a < 0x1420) ∨ (0x1800 ≤ a ∧ a < 0x1A00) ∨ (0x1C00 ≤ a ∧ a < 0x2000) ∨
      (0x10000 ≤ a ∧ a < 0x10000 + 4 * c.ntok) ∨ (0x20000 ≤ a ∧ a < 0x20000 + c.nobuf) := by
  simp only [storageByte, Bool.or_eq_true, decide_eq_true_eq, or_assoc]

theorem storageByte_obufAddr {c : Config} {k : Nat} (hk : k < c.nobuf) : storageByte c (obufAddr k) = true := by
  rw [storageByte_iff, obufAddr]
  omega

theorem storageByte_tokmAddr {c : Config} {k j : Nat} (hk : k < c.ntok) (hj : j < 4) :
    storageByte c (tokmAddr k + j) = true := by
  rw [storageByte_iff, tokmAddr]
  omega

theorem storageByte_costmAddr (c : Config) {v j : Nat} (hv : v < 256) (hj : j < 4) :
    storageByte c (costmAddr v + j) = true := by
  rw [storageByte_iff, costmAddr]
  omega

/-! ## The invariant and the named updates -/

theorem State.inv_iff (s : State) :
    s.inv = true ↔ s.cfg.wf = true ∧ s.mem.InWindows s.cfg ∧ s.faultsOk = true ∧ s.tkcnt.toNat ≤ 16 := by
  simp only [State.inv, Bool.and_eq_true, decide_eq_true_eq, State.memoryOk_iff, and_assoc]

/-- A state with new memories and a new `TKCNT`, the two parts of the invariant the commands write. -/
theorem State.inv_of_frame {s t : State} (hs : s.inv = true) (hcfg : t.cfg = s.cfg) (hfstat : t.fstat = s.fstat)
    (hfcause : t.fcause = s.fcause) (hfinfo : t.finfo = s.finfo) (hmem : t.mem.InWindows s.cfg)
    (htkcnt : t.tkcnt.toNat ≤ 16) : t.inv = true := by
  obtain ⟨hwf, -, hfaults, -⟩ := s.inv_iff.1 hs
  have hfaults' : t.faultsOk = s.faultsOk := by simp only [State.faultsOk, hfstat, hfcause, hfinfo]
  exact t.inv_iff.2 ⟨hcfg ▸ hwf, hcfg ▸ hmem, hfaults'.trans hfaults, htkcnt⟩

theorem State.inv_withMem {s : State} (hs : s.inv = true) {m : Memory} (hm : m.InWindows s.cfg) :
    State.inv { s with mem := m } = true := by
  obtain ⟨-, -, -, htkcnt⟩ := s.inv_iff.1 hs
  exact State.inv_of_frame hs rfl rfl rfl rfl hm htkcnt

/-- `COSTM[v] <- c` for a value a `TREEM` leaf can have. -/
theorem State.setCostm_inv {s : State} (hs : s.inv = true) {v : Nat} (hv : v < 256) (c : Nat) :
    (s.setCostm v c).inv = true := by
  obtain ⟨-, hmem, -, -⟩ := s.inv_iff.1 hs
  exact State.inv_withMem hs (hmem.writeWord (fun _ hj => storageByte_costmAddr s.cfg hv hj) _)

theorem State.setTokm_inv {s : State} (hs : s.inv = true) {k : Nat} (hk : k < s.cfg.ntok) (w : Word) :
    (s.setTokm k w).inv = true := by
  obtain ⟨-, hmem, -, -⟩ := s.inv_iff.1 hs
  exact State.inv_withMem hs (hmem.writeWord (fun _ hj => storageByte_tokmAddr hk hj) _)

/-! ## The fault registers -/

/-- Every fault code is one of the codes of 60_exceptions.md R211. -/
theorem FaultCode.mem_allFaultCodes (code : FaultCode) : code ∈ allFaultCodes := by
  cases code <;> decide

theorem FaultCode.classBit_ne_zero (code : FaultCode) : code.classBit ≠ 0 := by
  cases code <;> decide

theorem fstatAfter_ne_zero (fstat : BitVec 3) (code : FaultCode) : fstatAfter fstat code ≠ 0 :=
  fun h => code.classBit_ne_zero (BitVec.or_eq_zero_iff.1 h).2

/-- A write to `FCLR` sets no fault bit. -/
theorem fstatCleared_zero (d : Word) : fstatCleared 0 d = 0 := BitVec.zero_and

theorem State.faultsOk_iff (s : State) :
    s.faultsOk = true ↔
      (s.fstat = 0 → s.fcause = 0 ∧ s.finfo = 0) ∧ (s.fstat ≠ 0 → ∃ code : FaultCode, code.number = s.fcause) := by
  unfold State.faultsOk
  split
  · simp_all
  · simp_all [FaultCode.mem_allFaultCodes]

/-- After a fault the cause is that fault's number, or that of the first one (60_exceptions.md R214). -/
theorem State.raise_faultsOk {s : State} (hs : s.faultsOk = true) (code : FaultCode) (w : Word) :
    (s.raise code w).faultsOk = true := by
  obtain ⟨-, hcause⟩ := s.faultsOk_iff.1 hs
  refine (State.faultsOk_iff _).2 ⟨fun h => absurd (s.raise_fstat code w ▸ h) (fstatAfter_ne_zero _ _), fun _ => ?_⟩
  rw [State.raise_fcause]
  split
  · exact ⟨code, rfl⟩
  next h => exact hcause h

/-- `FCLR` clears the cause with the last fault bit and otherwise keeps it (60_exceptions.md R218). -/
theorem State.clearFaults_faultsOk {s : State} (hs : s.faultsOk = true) (d : Word) : (s.clearFaults d).faultsOk = true := by
  obtain ⟨-, hcause⟩ := s.faultsOk_iff.1 hs
  unfold State.clearFaults
  split
  · rfl
  next h =>
    refine (State.faultsOk_iff _).2 ⟨fun hzero => absurd hzero h, fun _ => hcause fun hzero => h ?_⟩
    exact hzero ▸ fstatCleared_zero d

theorem State.raise_inv {s : State} (hs : s.inv = true) (code : FaultCode) (w : Word) : (s.raise code w).inv = true := by
  obtain ⟨hwf, hmem, hfaults, htkcnt⟩ := s.inv_iff.1 hs
  rw [State.inv_iff, State.raise_cfg, State.raise_mem, State.raise_tkcnt]
  exact ⟨hwf, hmem, State.raise_faultsOk hfaults code w, htkcnt⟩

theorem State.clearFaults_inv {s : State} (hs : s.inv = true) (d : Word) : (s.clearFaults d).inv = true := by
  obtain ⟨hwf, hmem, hfaults, htkcnt⟩ := s.inv_iff.1 hs
  rw [State.inv_iff, State.clearFaults_cfg, State.clearFaults_mem, State.clearFaults_tkcnt]
  exact ⟨hwf, hmem, State.clearFaults_faultsOk hfaults d, htkcnt⟩

theorem Run.settle_inv {r : Run} (hr : r.state.inv = true) (w : Word) : (r.settle w).inv = true := by
  cases r with
  | done s => exact hr
  | raised code s => exact State.raise_inv hr code w

/-- What holds of the state a run leaves holds of the state taken from its result. -/
theorem Run.inv_of_eq {r r' : Run} (hr : r.state.inv = true) (h : r = r') : r'.state.inv = true := h ▸ hr

/-! ## The boolean coder -/

/-- A carry runs over bytes of the stream only. -/
theorem carryInto_inWindows {c : Config} (base n : Nat) {m m' : Memory} (hm : m.InWindows c) (hn : base + n ≤ c.nobuf)
    (h : carryInto base n m = some m') : m'.InWindows c := by
  induction n generalizing m with
  | zero => cases h
  | succ n ih =>
    have hbyte : storageByte c (obufAddr (base + n)) = true := storageByte_obufAddr (by omega)
    unfold carryInto at h
    split at h
    · exact ih (hm.write hbyte _) (by omega) h
    · cases h
      exact hm.write hbyte _

/-- What a turn of the renormalisation loop needs to stay inside `OBUF`: a position up to the limit, and the memories in
their windows. -/
def Coder.InWindow (cfg : Config) (limit : Nat) (c : Coder) : Prop := c.pos ≤ limit ∧ c.mem.InWindows cfg

theorem Coder.shift_inWindow {cfg : Config} {base limit : Nat} {c c' : Coder} (hc : c.InWindow cfg limit)
    (hlimit : limit ≤ cfg.nobuf) (h : c.shift base limit = .ok c') : c'.InWindow cfg limit := by
  obtain ⟨hpos, hmem⟩ := hc
  obtain ⟨mem, hcarry, -, hturn⟩ := Coder.shift_ok base limit c c' h
  have hcarried : mem.InWindows cfg := by
    split at hcarry
    · by_cases hbase : base ≤ c.pos
      · exact carryInto_inWindows base _ hmem (by omega) hcarry
      · rw [Nat.sub_eq_zero_of_le (by omega)] at hcarry
        cases hcarry
    · cases hcarry
      exact hmem
  obtain ⟨-, -, -, hpos', hmem'⟩ | ⟨-, hroom, -, -, hpos', hmem'⟩ := hturn
  · exact ⟨hpos' ▸ hpos, hmem' ▸ hcarried⟩
  · exact ⟨by omega, hmem' ▸ hcarried.write (storageByte_obufAddr (by omega)) _⟩

theorem Coder.renorm_inWindow {cfg : Config} {base limit : Nat} (hlimit : limit ≤ cfg.nobuf) (fuel : Nat) {c c' : Coder}
    (hc : c.InWindow cfg limit) (h : c.renorm base limit fuel = .ok c') : c'.InWindow cfg limit := by
  induction fuel generalizing c with
  | zero => cases h; exact hc
  | succ fuel ih =>
    unfold Coder.renorm at h
    split at h
    · cases hshift : c.shift base limit with
      | error code => rw [hshift] at h; cases h
      | ok next => rw [hshift] at h; exact ih (Coder.shift_inWindow hc hlimit hshift) h
    · cases h
      exact hc

theorem Coder.narrow_inWindow {cfg : Config} {limit : Nat} {c : Coder} (hc : c.InWindow cfg limit) (bit : Bool) (p : Nat) :
    (c.narrow bit p).InWindow cfg limit := by
  cases bit <;> exact hc

/-- A coding step checks that the window lies inside `OBUF` before it writes a byte (40_bool_coder.md R121, R123). -/
theorem encodeBool_inv {s : State} (hs : s.inv = true) (bit : Bool) (p : Nat) : (encodeBool bit p s).state.inv = true := by
  obtain ⟨-, h⟩ | ⟨-, -, h⟩ | ⟨-, -, -, h⟩ | ⟨-, -, hbac, ⟨c, hc, h⟩ | ⟨-, h⟩ | ⟨code, -, -, h⟩⟩ :=
    encodeBool_cases bit p s
  case inr.inr.inr.inl =>
    obtain ⟨-, hmem, -, htkcnt⟩ := s.inv_iff.1 hs
    simp only [State.bacOk, Bool.and_eq_true, decide_eq_true_eq] at hbac
    obtain ⟨-, -, hpos, hlimit⟩ := hbac
    have hstart : s.coder.InWindow s.cfg s.olimit.toNat := ⟨hpos, hmem⟩
    obtain ⟨-, hmem'⟩ := Coder.renorm_inWindow hlimit 7 (Coder.narrow_inWindow hstart bit p) hc
    rw [h]
    exact State.inv_of_frame hs rfl rfl rfl rfl hmem' htkcnt
  all_goals rw [h]; exact hs

theorem encodeBools_inv (bools : List (Bool × Nat)) {s : State} (hs : s.inv = true) :
    (encodeBools bools s).state.inv = true := by
  induction bools generalizing s with
  | nil => exact hs
  | cons b rest ih =>
    obtain ⟨bit, p⟩ := b
    rw [encodeBools_cons]
    cases h : encodeBool bit p s with
    | done s' => exact ih (Run.inv_of_eq (encodeBool_inv hs bit p) h)
    | raised code s' => exact Run.inv_of_eq (encodeBool_inv hs bit p) h

/-! ## The leaf values of TCOSTS -/

/-- Every leaf has a value that `COSTM` has an entry for. -/
def LeavesInCostm (leaves : List Leaf) : Prop := ∀ leaf ∈ leaves, leaf.1 < 256

/-- The children of a node add a leaf whose value is the negated entry, or what the walk below them adds. -/
theorem collectChild_leavesInCostm {down : Nat → Path → List Nat → List Leaf → Option (List Nat × List Leaf)}
    (hdown : ∀ {i path visited leaves r}, LeavesInCostm leaves → down i path visited leaves = some r → LeavesInCostm r.2)
    {i : Nat} {bit : Bool} {e : Int} (he : -256 < e) {path : Path} {visited : List Nat} {leaves : List Leaf}
    {r : List Nat × List Leaf} (hleaves : LeavesInCostm leaves)
    (h : collectChild down i bit e path visited leaves = some r) : LeavesInCostm r.2 := by
  unfold collectChild at h
  split at h
  next hneg =>
    cases h
    intro leaf hleaf
    obtain hold | hnew := List.mem_append.1 hleaf
    · exact hleaves leaf hold
    · obtain rfl := List.mem_singleton.1 hnew
      change e.natAbs < 256
      omega
  next =>
    split at h
    · cases h
    · exact hdown hleaves h

theorem collect_leavesInCostm {entry : Nat → Int} (hentry : ∀ k, -256 < entry k) (size tb fuel : Nat) {i : Nat}
    {path : Path} {visited : List Nat} {leaves : List Leaf} {r : List Nat × List Leaf} (hleaves : LeavesInCostm leaves)
    (h : collect entry size tb fuel i path visited leaves = some r) : LeavesInCostm r.2 := by
  induction fuel generalizing i path visited leaves r with
  | zero => cases h
  | succ fuel ih =>
    unfold collect at h
    split at h
    · cases h
    · split at h
      · cases h
      · split at h
        · cases h
        next visited' leaves' hleft =>
          exact collectChild_leavesInCostm ih (hentry _) (collectChild_leavesInCostm ih (hentry _) hleaves hleft) h

/-- An entry of `TREEM` is a signed byte (10_state.md R34). -/
theorem Memory.treem_gt (m : Memory) (k : Nat) : -256 < m.treem k := by
  have h := BitVec.le_toInt (m.read (treemAddr k))
  change -256 < (m.read (treemAddr k)).toInt
  omega

theorem treeLeaves_leavesInCostm {m : Memory} {tb : Nat} {leaves : List Leaf} (h : treeLeaves m tb = some leaves) :
    LeavesInCostm leaves := by
  obtain ⟨r, hr, rfl⟩ := Option.map_eq_some_iff.1 h
  exact collect_leavesInCostm m.treem_gt 256 tb walkFuel (fun _ hnil => absurd hnil List.not_mem_nil) hr

theorem checkedLeaves_leavesInCostm {m : Memory} {tb pb : Nat} {leaves : List Leaf}
    (h : checkedLeaves m tb pb = .ok leaves) : LeavesInCostm leaves := by
  unfold checkedLeaves at h
  split at h
  · cases h
  next found hfound =>
    split at h
    · cases h
    · cases h
      exact treeLeaves_leavesInCostm hfound

theorem writeCosts_inv (costs : List (Nat × Nat)) (hcosts : ∀ entry ∈ costs, entry.1 < 256) (done : List Nat) {s : State}
    (hs : s.inv = true) : (writeCosts costs done s).inv = true := by
  induction costs generalizing done s with
  | nil => exact hs
  | cons entry rest ih =>
    obtain ⟨value, cost⟩ := entry
    obtain ⟨hvalue, hrest⟩ := List.forall_mem_cons.1 hcosts
    unfold writeCosts
    split
    · exact ih hrest done hs
    · exact ih hrest _ (State.setCostm_inv hs hvalue cost)

/-! ## The records of TKN and the tokens of PUTTOK -/

/-- One record for each position, and the EOB record below position 16 (44_tokenizer.md R190). -/
theorem tokensFrom_length {x : Block} {t : BitVec 2} {stop : Nat} (positions : List Nat) {ctx : BitVec 2} {skip : BitVec 1}
    {tokens : List Token} (h : tokensFrom x t stop positions ctx skip = some tokens) :
    tokens.length = positions.length + if stop < 16 then 1 else 0 := by
  induction positions generalizing ctx skip tokens with
  | nil =>
    cases h
    split <;> rfl
  | cons c rest ih =>
    simp only [tokensFrom] at h
    split at h
    · cases h
    · obtain ⟨tail, htail, rfl⟩ := Option.map_eq_some_iff.1 h
      rw [List.length_cons, List.length_cons, ih htail]
      omega

/-- A block whose tag is at most 16 gives at most 16 records (44_tokenizer.md R190). -/
theorem tokenize_length_le {x : Block} {t c0 : BitVec 2} {n : Nat} {tokens : List Token} (hn : n ≤ 16)
    (h : tokenize x t c0 n = some tokens) : tokens.length ≤ 16 := by
  have hfirst : firstPosition t ≤ 1 := by unfold firstPosition; split <;> omega
  rw [tokensFrom_length _ h, List.length_range']
  split <;> omega

theorem eobAgrees_le {x : Block} {n : Nat} (h : eobAgrees x n = true) : n ≤ 16 := by
  simp only [eobAgrees, Bool.and_eq_true, decide_eq_true_eq] at h
  obtain ⟨⟨hn, -⟩, -⟩ := h
  exact hn

theorem storeTokens_inv (tokens : List Token) {k : Nat} {s : State} (hs : s.inv = true)
    (hroom : k + tokens.length ≤ s.cfg.ntok) : (storeTokens k tokens s).inv = true := by
  induction tokens generalizing k s with
  | nil => exact hs
  | cons token rest ih =>
    rw [List.length_cons] at hroom
    exact ih (State.setTokm_inv hs (by omega) _) (by rw [State.setTokm_cfg]; omega)

theorem putToken_inv {s : State} (hs : s.inv = true) : (putToken s).state.inv = true := by
  unfold putToken
  simp only
  split
  · exact hs
  · split
    · exact hs
    · split
      · exact hs
      · split
        next code s' h => exact Run.inv_of_eq (encodeBools_inv _ hs) h
        next s' h =>
          have hcoded : s'.inv = true := Run.inv_of_eq (encodeBools_inv _ hs) h
          exact hcoded

theorem putTokens_inv (n : Nat) {s : State} (hs : s.inv = true) : (putTokens n s).state.inv = true := by
  induction n generalizing s with
  | zero => exact hs
  | succ n ih =>
    unfold putTokens
    cases h : putToken s with
    | raised code s' => exact Run.inv_of_eq (putToken_inv hs) h
    | done s' => exact ih (Run.inv_of_eq (putToken_inv hs) h)

/-! ## Commands -/

/-- The next state an outcome gives, if any, has the invariant. -/
def GivesInv (o : Host.Outcome State Fault Refusal) : Prop := ∀ t, o = .next t → t.inv = true

theorem givesInv_next {t : State} (h : t.inv = true) : GivesInv (.next t) := by
  rintro _ ⟨⟩
  exact h

/-- A command keeps the invariant when its run does: recording the fault does. -/
theorem givesInv_finish (i : Instr) {r : Run} (h : r.state.inv = true) : GivesInv (finish i r) :=
  givesInv_next (Run.settle_inv h _)

theorem execBstop_givesInv {s : State} (hs : s.inv = true) : GivesInv (execBstop s) := by
  refine givesInv_finish _ ?_
  split
  · exact hs
  · cases h : encodeBools flushBools s with
    | done s' =>
      have hcoded : s'.inv = true := Run.inv_of_eq (encodeBools_inv _ hs) h
      exact hcoded
    | raised code s' => exact Run.inv_of_eq (encodeBools_inv _ hs) h

/-- TKN stores its records below `NTOK`, and `TKCNT` takes their number. -/
theorem execTkn_givesInv {s : State} (hs : s.inv = true) (bs : BitVec 5) (t c0 : BitVec 2) :
    GivesInv (execTkn bs t c0 s) := by
  refine givesInv_finish _ ?_
  split
  · exact hs
  · split
    · exact hs
    next hagrees =>
      split
      · exact hs
      next tokens htokens =>
        split
        · exact hs
        next hroom =>
          have hcount : tokens.length ≤ 16 :=
            tokenize_length_le (eobAgrees_le (Bool.not_eq_false _ ▸ hagrees)) htokens
          have hstored : (storeTokens s.tkwp.toNat tokens s).inv = true := storeTokens_inv tokens hs (by omega)
          obtain ⟨-, hmem, -, -⟩ := (State.inv_iff _).1 hstored
          refine State.inv_of_frame hstored rfl rfl rfl rfl hmem ?_
          change tokens.length % 2 ^ 5 ≤ 16
          omega

theorem execPuttok_givesInv {s : State} (hs : s.inv = true) (count : BitVec 16) : GivesInv (execPuttok count s) := by
  refine givesInv_finish _ ?_
  split
  · exact hs
  · split
    · exact hs
    · exact putTokens_inv _ hs

theorem execTwrite_givesInv {s : State} (hs : s.inv = true) (tb pb v : BitVec 8) : GivesInv (execTwrite tb pb v s) := by
  refine givesInv_finish _ ?_
  split
  · exact hs
  · exact encodeBools_inv _ hs

theorem execTcosts_givesInv {s : State} (hs : s.inv = true) (tb pb : BitVec 8) : GivesInv (execTcosts tb pb s) := by
  refine givesInv_finish _ ?_
  split
  · exact hs
  next leaves hleaves =>
    refine writeCosts_inv _ (fun entry hentry => ?_) [] hs
    obtain ⟨leaf, hleaf, rfl⟩ := List.mem_map.1 hentry
    exact checkedLeaves_leavesInCostm hleaves leaf hleaf

/-- Every command keeps the invariant; block registers, tags, the coder's registers and `COST` are no part of it. -/
theorem exec_givesInv {s : State} (hs : s.inv = true) (i : Instr) : GivesInv (exec i s) := by
  cases i with
  | nop => exact givesInv_finish _ hs
  | ldi bd lane imm16 => exact givesInv_finish _ hs
  | bfill bd imm16 => exact givesInv_finish _ hs
  | seob bd n => exact givesInv_finish _ (by split <;> exact hs)
  | gdc bd bs => exact givesInv_finish _ (by split <;> exact hs)
  | fdct bd bs => exact givesInv_finish _ hs
  | fwht bd bs => exact givesInv_finish _ hs
  | quant bd bs t => exact givesInv_finish _ hs
  | dequant bd bs t => exact givesInv_finish _ hs
  | tkn bs t c0 => exact execTkn_givesInv hs bs t c0
  | puttok count => exact execPuttok_givesInv hs count
  | bstart => exact givesInv_finish _ (by split <;> exact hs)
  | bbool bit prob => exact givesInv_finish _ (encodeBool_inv hs _ _)
  | blit n value => exact givesInv_finish _ (by split; exacts [hs, encodeBools_inv _ hs])
  | bstop => exact execBstop_givesInv hs
  | twrite tb pb v => exact execTwrite_givesInv hs tb pb v
  | tcost tb pb v => exact givesInv_finish _ (by split <;> exact hs)
  | tcosts tb pb => exact execTcosts_givesInv hs tb pb

/-! ## Transactions and steps -/

/-- A byte that is no byte of a memory is not stored (20_memory.md R67). -/
theorem State.setPortByte_inv {s : State} (hs : s.inv = true) (a : Nat) (v : Byte) : (s.setPortByte a v).inv = true := by
  unfold State.setPortByte
  split
  next ha =>
    obtain ⟨-, hmem, -, -⟩ := s.inv_iff.1 hs
    exact State.inv_withMem hs (hmem.write ha v)
  next => exact hs

theorem State.setPortWord_inv {s : State} (hs : s.inv = true) (a : Nat) (d : Word) : (s.setPortWord a d).inv = true :=
  State.setPortByte_inv (State.setPortByte_inv (State.setPortByte_inv (State.setPortByte_inv hs _ _) _ _) _ _) _ _

/-- No register write reaches `TKCNT`; those of `FCLR` and `QIDX` leave the fault registers in agreement. -/
theorem State.writeCsr_inv {s : State} (hs : s.inv = true) (offset : Nat) (d : Word) : (s.writeCsr offset d).inv = true := by
  unfold State.writeCsr
  split
  case h_1 => exact State.clearFaults_inv hs d
  case h_2 => split; exacts [hs, State.raise_inv hs _ _]
  all_goals exact hs

theorem State.writeTarget_inv {s : State} (hs : s.inv = true) (addr d : Word) (target : Target) :
    (s.writeTarget addr d target).inv = true := by
  cases target with
  | csr offset => exact State.writeCsr_inv hs offset d
  | lanes n pair => exact hs
  | eob n => exact hs
  | storage => exact State.setPortWord_inv hs _ d
  | qlut word => exact hs

theorem State.hostRead_inv {s : State} (hs : s.inv = true) (addr : Word) : (s.hostRead addr).1.inv = true := by
  obtain ⟨-, h⟩ | ⟨target, -, h⟩ := s.hostRead_cases addr
  · rw [h]; exact State.raise_inv hs _ _
  · rw [h]; exact hs

theorem State.hostWrite_inv {s : State} (hs : s.inv = true) (addr d : Word) : (s.hostWrite addr d).inv = true := by
  obtain ⟨-, h⟩ | ⟨target, -, h⟩ := s.hostWrite_cases addr d
  · rw [h]; exact State.raise_inv hs _ _
  · rw [h]; exact State.writeTarget_inv hs addr d target

/-- A write to `CMD` keeps the invariant: it is dropped, rejected, or runs a command. -/
theorem serve_cmd_givesInv {s : State} (hs : s.inv = true) (w : Word) : GivesInv (serve s (.hwr 0 w)) := by
  cases hh : s.halted with
  | true => rw [serve_dropped s w hh]; exact givesInv_next hs
  | false =>
    cases hd : decode w with
    | error r => rw [serve_illegal s w r hh hd]; exact givesInv_next (State.raise_inv hs _ _)
    | ok i => rw [serve_command s w i hh hd]; exact exec_givesInv hs i

theorem serve_givesInv {s : State} (hs : s.inv = true) (transaction : Transaction) : GivesInv (serve s transaction) := by
  cases transaction with
  | hrd addr => exact givesInv_next (State.hostRead_inv hs addr)
  | hwr addr w =>
    by_cases haddr : addr = 0
    · subst haddr; exact serve_cmd_givesInv hs w
    · rw [serve_write s addr w haddr]; exact givesInv_next (State.hostWrite_inv hs addr w)
  | rst => exact givesInv_next (State.resetOf_inv s.cfg _ (s.inv_iff.1 hs).1)

theorem step_givesInv {s : State} (hs : s.inv = true) : GivesInv (step s) := by
  obtain ⟨-, h⟩ | ⟨transaction, rest, -, h⟩ := step_cases s
  · rw [h]; exact givesInv_next hs
  · rw [h]; exact serve_givesInv (s := { s with bus := rest, rdata := none }) hs transaction

end Sys2Proof.Machine

namespace Sys2Proof.Proofs

open Sys2Proof.Machine

/-- Settles O11, by cases on the transaction the step serves. -/
theorem everyStepKeepsTheInvariant : Obligations.EveryStepKeepsTheInvariant := fun _ t hs h => step_givesInv hs t h

end Sys2Proof.Proofs
end

section
/-! PROOFS. The windows of the host port: what each address names, and what a step does with an access to the memories, to a
block register, to the look-up table, to a read-only place, or to an address that names nothing. -/

namespace Sys2Proof.Machine

/-! ## Commands -/

/-- A step that serves a command of an engine that is not halted (30_encoding.md R91). -/
theorem step_command (s : State) (rest : List Transaction) {w : Word} {i : Instr} (hfstat : s.fstat = 0)
    (hd : decode w = .ok i) : step { s with bus := .hwr 0 w :: rest } = exec i { s with bus := rest, rdata := none } :=
  serve_command _ w i (by simp [State.halted, hfstat]) hd

/-! ## Addresses that name nothing -/

/-- Taking a fault touches neither the host's list nor the last read data. -/
theorem State.raise_withBus (s : State) (bus : List Transaction) (rdata : Option Word) (code : FaultCode) (w : Word) :
    State.raise { s with bus := bus, rdata := rdata } code w = { s.raise code w with bus := bus, rdata := rdata } := by
  unfold State.raise
  split <;> rfl

/-- A step that serves a read of an address that names nothing (20_memory.md R63, R64). -/
theorem step_hrd_unmapped (s : State) (rest : List Transaction) {addr : Word} (ht : portTarget s.cfg addr = none) :
    step { s with bus := .hrd addr :: rest } =
      .next { s.raise .hostAddr addr with bus := rest, rdata := some 0 } := by
  have hread : State.hostRead { s with bus := rest, rdata := none } addr =
      ({ s.raise .hostAddr addr with bus := rest, rdata := none }, 0) := by
    simp only [State.hostRead, ht, State.raise_withBus]
  change serve { s with bus := rest, rdata := none } (.hrd addr) = _
  simp only [serve, hread]

/-- Address 0 names `CMD`: an address that names something else, or nothing, is not 0 (20_memory.md R68). -/
theorem ne_zero_of_portTarget {c : Config} {addr : Word} (h : portTarget c addr ≠ some (.csr 0)) : addr ≠ 0 := by
  rintro rfl
  exact h rfl

/-- A step that serves a write to an address that names nothing. -/
theorem step_hwr_unmapped (s : State) (d : Word) (rest : List Transaction) {addr : Word}
    (ht : portTarget s.cfg addr = none) :
    step { s with bus := .hwr addr d :: rest } =
      .next { s.raise .hostAddr addr with bus := rest, rdata := none } := by
  have hne : addr ≠ 0 := ne_zero_of_portTarget (c := s.cfg) (by simp [ht])
  have hwrite : State.hostWrite { s with bus := rest, rdata := none } addr d =
      { s.raise .hostAddr addr with bus := rest, rdata := none } := by
    simp only [State.hostWrite, ht, State.raise_withBus]
  exact (serve_write _ addr d hne).trans (congrArg _ hwrite)

theorem portTarget_misaligned (c : Config) {addr : Word} (h : addr.toNat % 4 ≠ 0) : portTarget c addr = none := if_pos h

/-- An aligned address names nothing exactly when it lies in no window (20_memory.md R64, R68). -/
theorem portTarget_eq_none_iff (c : Config) {addr : Word} (haligned : addr.toNat % 4 = 0) :
    portTarget c addr = none ↔ 0x4C ≤ addr.toNat ∧ ¬(0x400 ≤ addr.toNat ∧ addr.toNat < 0x880) ∧
      storageByte c addr.toNat = false ∧ ¬(0x100000 ≤ addr.toNat ∧ addr.toNat < 0x110000) := by
  simp only [portTarget, storageWord, haligned]
  split_ifs <;> simp_all <;> omega

/-! ## The memories -/

/-- The words of the memories stand clear of the windows below them (20_memory.md R68). -/
theorem portTarget_storage {c : Config} {addr : Word} (haligned : addr.toNat % 4 = 0)
    (h : storageByte c addr.toNat = true) : portTarget c addr = some .storage := by
  have hwindows := (storageByte_iff c _).1 h
  have hword : storageWord c addr.toNat = true := h
  simp only [portTarget]
  rw [if_neg (by omega), if_neg (by omega), if_neg (by omega), if_neg (by omega), if_pos hword]

/-- The four bytes of a word as one number, the lowest address least significant (20_memory.md R67). -/
theorem Memory.readWord_toNat (m : Memory) (a : Nat) :
    (m.readWord a).toNat = (m.read a).toNat + 2 ^ 8 * (m.read (a + 1)).toNat + 2 ^ 16 * (m.read (a + 2)).toNat +
      2 ^ 24 * (m.read (a + 3)).toNat := by
  have append_toNat {n : Nat} (x : BitVec n) (y : Byte) : (x ++ y).toNat = 2 ^ 8 * x.toNat + y.toNat := by
    rw [BitVec.toNat_append, ← Nat.shiftLeft_add_eq_or_of_lt y.isLt, Nat.shiftLeft_eq, Nat.mul_comm]
  simp only [Memory.readWord, append_toNat]
  omega

theorem extractLsb'_append_byte_low {v : Nat} (x : BitVec v) (y : Byte) : (x ++ y).extractLsb' 0 8 = y := by
  rw [BitVec.extractLsb'_append_eq_of_add_le (by decide), BitVec.extractLsb'_eq_self]

theorem extractLsb'_append_byte_high {v : Nat} (x : BitVec v) (y : Byte) (start : Nat) :
    (x ++ y).extractLsb' (start + 8) 8 = x.extractLsb' start 8 := by
  rw [BitVec.extractLsb'_append_eq_of_le (by omega), Nat.add_sub_cancel]

/-- Byte `k` of four bytes appended, byte 0 the lowest. -/
theorem extractLsb'_append_bytes (byte : Nat → Byte) {k : Nat} (hk : k < 4) :
    (byte 3 ++ byte 2 ++ byte 1 ++ byte 0).extractLsb' (8 * k) 8 = byte k := by
  have high {v : Nat} (x : BitVec v) (y : Byte) := extractLsb'_append_byte_high x y
  interval_cases k
  · exact extractLsb'_append_byte_low _ _
  · exact (high _ _ 0).trans (extractLsb'_append_byte_low _ _)
  · exact (high _ _ 8).trans <| (high _ _ 0).trans (extractLsb'_append_byte_low _ _)
  · exact (high _ _ 16).trans <| (high _ _ 8).trans <| (high _ _ 0).trans BitVec.extractLsb'_eq_self

/-- Byte `k` of a word read at the port is the byte `k` places above its address. -/
theorem State.portWord_byte (s : State) (a : Nat) {k : Nat} (hk : k < 4) :
    (s.portWord a).extractLsb' (8 * k) 8 = s.portByte (a + k) :=
  extractLsb'_append_bytes (fun j => s.portByte (a + j)) hk

theorem State.setPortByte_frame (s : State) (a : Nat) (v : Byte) : ∃ m, s.setPortByte a v = { s with mem := m } := by
  unfold State.setPortByte
  split
  · exact ⟨_, rfl⟩
  · exact ⟨s.mem, rfl⟩

/-- A word written to the memories changes nothing but them. -/
theorem State.setPortWord_frame (s : State) (a : Nat) (d : Word) :
    s.setPortWord a d = { s with mem := (s.setPortWord a d).mem } := by
  obtain ⟨m₀, h₀⟩ := s.setPortByte_frame a (d.extractLsb' 0 8)
  obtain ⟨m₁, h₁⟩ := State.setPortByte_frame { s with mem := m₀ } (a + 1) (d.extractLsb' 8 8)
  obtain ⟨m₂, h₂⟩ := State.setPortByte_frame { s with mem := m₁ } (a + 2) (d.extractLsb' 16 8)
  obtain ⟨m₃, h₃⟩ := State.setPortByte_frame { s with mem := m₂ } (a + 3) (d.extractLsb' 24 8)
  have hword : s.setPortWord a d = { s with mem := m₃ } := by rw [State.setPortWord, h₀, h₁, h₂, h₃]
  rw [hword]

/-- Reading one byte after the port has written one: a byte that is no byte of a memory is not stored. -/
theorem State.setPortByte_read (s : State) (a b : Nat) (v : Byte) :
    (s.setPortByte a v).mem.read b = if b = a ∧ storageByte s.cfg b = true then v else s.mem.read b := by
  unfold State.setPortByte
  by_cases hb : b = a
  · subst hb
    split <;> simp_all
  · split <;> simp [hb, Memory.read_write_other]

/-- An implemented byte of a word written at the port takes its byte of the word. -/
theorem State.setPortWord_read_same (s : State) (a : Nat) (d : Word) {k : Nat} (hk : k < 4)
    (h : storageByte s.cfg (a + k) = true) : (s.setPortWord a d).mem.read (a + k) = d.extractLsb' (8 * k) 8 := by
  simp only [State.setPortWord, State.setPortByte_read, State.setPortByte_cfg, h, and_true]
  interval_cases k <;> simp

/-- Every byte outside the word, and every byte that is not implemented, is as before. -/
theorem State.setPortWord_read_other (s : State) (a b : Nat) (d : Word)
    (h : b < a ∨ a + 4 ≤ b ∨ storageByte s.cfg b = false) : (s.setPortWord a d).mem.read b = s.mem.read b := by
  have hbyte : ∀ k < 4, ¬(b = a + k ∧ storageByte s.cfg b = true) := by
    rintro k hk ⟨rfl, hs⟩
    obtain h | h | h := h
    · omega
    · omega
    · exact absurd hs (Bool.eq_false_iff.1 h)
  simp only [State.setPortWord, State.setPortByte_read, State.setPortByte_cfg]
  rw [if_neg (hbyte 3 (by decide)), if_neg (hbyte 2 (by decide)), if_neg (hbyte 1 (by decide)),
    if_neg (by simpa using hbyte 0 (by decide))]

/-- What the port reads back from a word it has written: the implemented bytes, and 0 elsewhere (20_memory.md R67). -/
theorem State.setPortWord_portByte (s : State) (a : Nat) (d : Word) {k : Nat} (hk : k < 4) :
    (s.setPortWord a d).portByte (a + k) = if storageByte s.cfg (a + k) then d.extractLsb' (8 * k) 8 else 0 := by
  rw [State.portByte, State.setPortWord_cfg]
  split
  next h => exact s.setPortWord_read_same a d hk h
  next => rfl

/-! ## The block registers -/

/-- The byte address of lanes `2k` and `2k + 1` of `BR[n]` (20_memory.md R68). -/
def lanesAddr (n : BitVec 5) (k : Nat) : Word := BitVec.ofNat 32 (0x400 + 32 * n.toNat + 4 * k)

theorem lanesAddr_toNat (n : BitVec 5) {k : Nat} (hk : k < 8) : (lanesAddr n k).toNat = 0x400 + 32 * n.toNat + 4 * k := by
  have hn : n.toNat < 32 := n.isLt
  exact Nat.mod_eq_of_lt (by omega)

theorem portTarget_lanes (c : Config) (n : BitVec 5) {k : Nat} (hk : k < 8) :
    portTarget c (lanesAddr n k) = some (.lanes n (BitVec.ofNat 3 k)) := by
  have hn : n.toNat < 32 := n.isLt
  have hregister : (0x400 + 32 * n.toNat + 4 * k - 0x400) / 32 = n.toNat := by omega
  have hpair : (0x400 + 32 * n.toNat + 4 * k - 0x400) % 32 / 4 = k := by omega
  simp only [portTarget, lanesAddr_toNat n hk, hregister, hpair, BitVec.ofNat_toNat, BitVec.setWidth_eq]
  rw [if_neg (by omega), if_neg (by omega), if_pos (by omega)]

theorem pairLane_toNat {k : Nat} (hk : k < 8) (odd : BitVec 1) :
    (pairLane (BitVec.ofNat 3 k) odd).toNat = 2 * k + odd.toNat := by
  have hodd : odd.toNat < 2 ^ 1 := odd.isLt
  rw [pairLane, BitVec.toNat_append, ← Nat.shiftLeft_add_eq_or_of_lt hodd, Nat.shiftLeft_eq, BitVec.toNat_ofNat,
    Nat.mod_eq_of_lt (show k < 2 ^ 3 from hk)]
  omega

/-- The word of a lane pair has the even lane low (20_memory.md R67). -/
theorem State.lanePair_eq (s : State) (n : BitVec 5) {k : Nat} (hk : k < 8) :
    s.lanePair n (BitVec.ofNat 3 k) = (s.block n)[2 * k + 1] ++ (s.block n)[2 * k] := by
  simp [State.lanePair, pairLane_toNat hk]

theorem State.setLane_block_same (s : State) (n : BitVec 5) (i : BitVec 4) (v : Lane) :
    (s.setLane n i v).block n = (s.block n).set i.toNat v i.isLt := s.setBlock_block_same n _

theorem State.setLane_block_other (s : State) (n m : BitVec 5) (i : BitVec 4) (v : Lane) (h : m ≠ n) :
    (s.setLane n i v).block m = s.block m := s.setBlock_block_other n m _ h

/-- The block a write of the word of lane pair `k` leaves. -/
theorem State.writeTarget_lanes_block (s : State) (addr d : Word) (n : BitVec 5) {k : Nat} (hk : k < 8) :
    (s.writeTarget addr d (.lanes n (BitVec.ofNat 3 k))).block n =
      ((s.block n).set (2 * k) (d.extractLsb' 0 16)).set (2 * k + 1) (d.extractLsb' 16 16) := by
  simp [State.writeTarget, State.setLane_block_same, pairLane_toNat hk]

theorem State.writeTarget_lanes_block_other (s : State) (addr d : Word) (n m : BitVec 5) (pair : BitVec 3) (h : m ≠ n) :
    (s.writeTarget addr d (.lanes n pair)).block m = s.block m := by
  simp only [State.writeTarget, State.setLane_block_other _ _ _ _ _ h]

/-! ## The look-up table -/

theorem portTarget_qlut {c : Config} {addr : Word} (haligned : addr.toNat % 4 = 0) (hlow : 0x100000 ≤ addr.toNat)
    (hhigh : addr.toNat < 0x110000) (hstorage : storageByte c addr.toNat = false) :
    portTarget c addr = some (.qlut ((addr.toNat - 0x100000) / 4)) := by
  simp only [portTarget, storageWord, hstorage]
  rw [if_neg (by omega), if_neg (by omega), if_neg (by omega), if_neg (by omega), if_neg (by decide), if_pos ⟨hlow, hhigh⟩]

theorem config_wf_iff (c : Config) :
    c.wf = true ↔ c.ntok ≤ 16384 ∧ c.nobuf ≤ 0xE0000 ∧ c.qlut.full = true ∧ c.costtab.full = true := by
  simp only [Config.wf, Bool.and_eq_true, decide_eq_true_eq, and_assoc]

/-- Every memory of hardware within its bounds ends below the window of the table (20_memory.md R68). -/
theorem storageByte_eq_false_of_qlut {c : Config} (hc : c.wf = true) {a : Nat} (ha : 0x100000 ≤ a) :
    storageByte c a = false := by
  obtain ⟨hntok, hnobuf, -, -⟩ := (config_wf_iff c).1 hc
  rw [← Bool.not_eq_true, storageByte_iff]
  omega

/-- Word `word` of the window of the table, which has 16384 words. -/
theorem portTarget_qlutWord {c : Config} (hc : c.wf = true) {word : Nat} (hword : word < 16384) :
    portTarget c (BitVec.ofNat 32 (0x100000 + 4 * word)) = some (.qlut word) := by
  have haddr : (BitVec.ofNat 32 (0x100000 + 4 * word)).toNat = 0x100000 + 4 * word := Nat.mod_eq_of_lt (by omega)
  have hindex : ((BitVec.ofNat 32 (0x100000 + 4 * word)).toNat - 0x100000) / 4 = word := by omega
  rw [portTarget_qlut (by omega) (by omega) (by omega) (storageByte_eq_false_of_qlut hc (by omega)), hindex]

/-- The place of entry `(t, q, i)` in the table (10_state.md R32). -/
def qlutIndex (t q i : Nat) : Nat := (t * 128 + q) * 16 + i

theorem qlutIndex_lt {t q i : Nat} (ht : t < 4) (hq : q < 128) (hi : i < 16) : qlutIndex t q i < 8192 := by
  unfold qlutIndex
  omega

/-- An entry takes two words, the lower one with `round` and `quant` (20_memory.md R67). -/
theorem qlutWord_entry (c : Config) {t q i : Nat} (hq : q < 128) (hi : i < 16) :
    qlutWord c (2 * qlutIndex t q i) = (qlutEntry c t q i).quant ++ (qlutEntry c t q i).round ∧
      qlutWord c (2 * qlutIndex t q i + 1) = (qlutEntry c t q i).dq ++ (qlutEntry c t q i).zbin := by
  have hlow : 2 * qlutIndex t q i / 2 = qlutIndex t q i := by omega
  have hhigh : (2 * qlutIndex t q i + 1) / 2 = qlutIndex t q i := by omega
  have ht : qlutIndex t q i / 16 / 128 = t := by unfold qlutIndex; omega
  have hq : qlutIndex t q i / 16 % 128 = q := by unfold qlutIndex; omega
  have hi : qlutIndex t q i % 16 = i := by unfold qlutIndex; omega
  constructor
  · simp only [qlutWord, hlow, ht, hq, hi, if_pos (show 2 * qlutIndex t q i % 2 = 0 by omega)]
  · simp only [qlutWord, hhigh, ht, hq, hi, if_neg (show ¬(2 * qlutIndex t q i + 1) % 2 = 0 by omega)]

/-- A whole substituted table gives its own entries, never the default. -/
theorem qlutEntry_custom {c : Config} (hc : c.wf = true) {entries : List QEntry} (hcustom : c.qlut = .custom entries)
    {t q i : Nat} (ht : t < 4) (hq : q < 128) (hi : i < 16) :
    entries[qlutIndex t q i]? = some (qlutEntry c t q i) := by
  obtain ⟨-, -, hfull, -⟩ := (config_wf_iff c).1 hc
  have hlength : entries.length = 8192 := by simpa [hcustom, QTable.full] using hfull
  have hlt : (t * 128 + q) * 16 + i < entries.length := hlength ▸ qlutIndex_lt ht hq hi
  simp [qlutEntry, hcustom, qlutIndex, hlt]

/-- A host write to the window of the table is ignored (20_memory.md R70). -/
theorem step_hwr_qlut (s : State) (d : Word) (rest : List Transaction) {addr : Word} {word : Nat}
    (ht : portTarget s.cfg addr = some (.qlut word)) :
    step { s with bus := .hwr addr d :: rest } = .next { s with bus := rest, rdata := none } := by
  exact step_hwr_mapped s d rest (ne_zero_of_portTarget (c := s.cfg) (by simp [ht])) ht

/-! ## The read-only registers -/

/-- `FSTAT`, `FCAUSE`, `FINFO`, `BLEN`, `COST` and `TKCNT` ignore a host write (20_memory.md R66). -/
theorem State.writeCsr_readOnly (s : State) {offset : Nat} (h : offset ∈ [0x04, 0x08, 0x0C, 0x38, 0x44, 0x48]) (d : Word) :
    s.writeCsr offset d = s := by
  simp only [List.mem_cons, List.not_mem_nil, or_false] at h
  obtain rfl | rfl | rfl | rfl | rfl | rfl := h <;> rfl

end Sys2Proof.Machine

namespace Sys2Proof.Proofs

open Sys2Proof.Machine

/-- Settles O5. -/
theorem stepRunsTheDecodedCommand : Obligations.StepRunsTheDecodedCommand := fun s _ _ rest hfstat hd =>
  step_command s rest hfstat hd

/-- Settles O16: a misaligned address names nothing. -/
theorem misalignedAccessFaults : Obligations.MisalignedAccessFaults := fun s _ d rest haddr =>
  have hnone := portTarget_misaligned s.cfg haddr
  ⟨step_hrd_unmapped s rest hnone, step_hwr_unmapped s d rest hnone⟩

/-- Settles O17: the windows of R68 are those in which an aligned address names something. -/
theorem unmappedAccessFaults : Obligations.UnmappedAccessFaults := by
  intro s addr d rest haligned a mapped
  have hnone : portTarget s.cfg addr = none ↔ ¬mapped := by
    rw [portTarget_eq_none_iff s.cfg haligned, ← Bool.not_eq_true, storageByte_iff]
    simp only [mapped, a]
    omega
  refine ⟨fun h => ⟨step_hrd_unmapped s rest (hnone.2 h), step_hwr_unmapped s d rest (hnone.2 h)⟩, fun h => ?_⟩
  obtain ⟨target, ht⟩ := Option.ne_none_iff_exists'.1 (mt hnone.1 (not_not_intro h))
  exact ⟨_, step_hrd_mapped s rest ht⟩

/-- Settles O19. -/
theorem readOnlyPlacesIgnoreWrites : Obligations.ReadOnlyPlacesIgnoreWrites := by
  intro s addr d rest haligned
  refine ⟨?ignored, ?zero⟩
  case ignored =>
    rintro (hregister | ⟨hlow, hhigh, hstorage⟩)
    · have hlt : addr.toNat < 0x4C := by
        simp only [List.mem_cons, List.not_mem_nil, or_false] at hregister
        omega
      have hne : addr ≠ 0 := by
        rintro rfl
        exact absurd hregister (by decide)
      exact step_hwr_csr s d rest hne haligned hlt (State.writeCsr_readOnly _ hregister d)
    · exact step_hwr_qlut s d rest (portTarget_qlut haligned hlow hhigh hstorage)
  case zero =>
    intro hregister
    simp only [List.mem_cons, List.not_mem_nil, or_false] at hregister
    refine step_hrd_csr s rest haligned (by omega) ?_
    obtain h | h := hregister <;> rw [h] <;> rfl

/-- Settles O21: the elements stand at their addresses by definition, and an aligned address of a memory names its word. -/
theorem memoryWindowStoresTheWord : Obligations.MemoryWindowStoresTheWord := by
  refine ⟨fun m k => ?elements, fun c a => ?windows, fun s addr d rest haligned hstorage => ?word⟩
  case elements =>
    exact ⟨rfl, rfl, m.readWord_toNat _, m.readWord_toNat _, rfl, fun _ _ _ _ => rfl, rfl, rfl, rfl⟩
  case windows =>
    rw [storageByte_iff]
    omega
  case word =>
    have htarget := portTarget_storage haligned hstorage
    have hne : addr ≠ 0 := ne_zero_of_portTarget (c := s.cfg) (by simp [htarget])
    refine ⟨_, step_hwr_mapped s d rest hne htarget, ?frame, fun k hk hbyte => ?written, fun b hb => ?other, _,
      step_hrd_mapped (target := .storage) _ rest ?target, fun k hk => ?back⟩
    case frame => exact State.setPortWord_frame { s with bus := rest, rdata := none } addr.toNat d
    case written => exact State.setPortWord_read_same _ _ d hk hbyte
    case other => exact State.setPortWord_read_other _ _ b d hb
    case target =>
      rw [State.writeTarget_cfg]
      exact htarget
    case back => exact (State.portWord_byte _ _ hk).trans (State.setPortWord_portByte _ _ d hk)

/-- Settles O22: the word of a lane pair is read and written through lanes `2k` and `2k + 1`. -/
theorem blockWindowPacksLanePairs : Obligations.BlockWindowPacksLanePairs := by
  refine ⟨lane_eq, fun s n k d rest hk => ?_⟩
  have htarget := portTarget_lanes s.cfg n hk
  have hne : lanesAddr n k ≠ 0 := ne_zero_of_portTarget (c := s.cfg) (by simp [htarget])
  have hblock (addr : Word) :
      (State.writeTarget { s with bus := rest, rdata := none } addr d (.lanes n (BitVec.ofNat 3 k))).block n =
        ((s.block n).set (2 * k) (d.extractLsb' 0 16)).set (2 * k + 1) (d.extractLsb' 16 16) :=
    State.writeTarget_lanes_block _ addr d n hk
  refine ⟨?read, _, step_hwr_mapped s d rest hne htarget, rfl, fun m hm => ?other, ?even, ?odd,
    fun i hi heven hodd => ?rest⟩
  case read => exact s.lanePair_eq n hk ▸ step_hrd_mapped s rest htarget
  case other => exact State.writeTarget_lanes_block_other _ _ d n m _ hm
  case even => simp [hblock]
  case odd => simp [hblock]
  case rest => simp [hblock, heven.symm, hodd.symm]

/-- Settles O23: entry `(t, q, i)` stands in words `2e` and `2e + 1` of the window, `e` its place in the table. -/
theorem lookUpTableWindowReadsEntries : Obligations.LookUpTableWindowReadsEntries := by
  intro s t q i d rest hc ht hq hi
  have hlt := qlutIndex_lt ht hq hi
  have hlow := portTarget_qlutWord hc (show 2 * qlutIndex t q i < 16384 by omega)
  have hhigh := portTarget_qlutWord hc (show 2 * qlutIndex t q i + 1 < 16384 by omega)
  rw [show 0x100000 + 4 * (2 * qlutIndex t q i) = 0x100000 + 8 * qlutIndex t q i by omega] at hlow
  rw [show 0x100000 + 4 * (2 * qlutIndex t q i + 1) = 0x100000 + 8 * qlutIndex t q i + 4 by omega] at hhigh
  obtain ⟨hword, hword'⟩ := qlutWord_entry s.cfg (t := t) hq hi
  refine ⟨fun entries hcustom => qlutEntry_custom hc hcustom ht hq hi, ?_, ?_, ?_, ?_⟩
  · exact hword ▸ step_hrd_mapped s rest hlow
  · exact hword' ▸ step_hrd_mapped s rest hhigh
  · exact step_hwr_qlut s d rest hlow
  · exact step_hwr_qlut s d rest hhigh

end Sys2Proof.Proofs
end

section
/-! PROOFS. The decoder and the encoder of the command words: what a row of the opcode map says of a word, the eleven formats
read as fields and reserved bits, and the faults of a word that is no command or whose operands are out of range. -/

namespace Sys2Proof

/-! ## The rows of the opcode map -/

/-- No two rows of the opcode map have the same opcode (30_encoding.md R95). -/
theorem opTable_nodup : (opTable.map OpRow.op).Nodup := by decide

/-- A word with an assigned opcode decodes by the row of that opcode (30_encoding.md R91, steps 2 and 3). -/
theorem decode_of_mem_opTable {row : OpRow} (hrow : row ∈ opTable) {w : Word} (hop : row.op = opField w) :
    decode w = if w &&& row.reserved = 0 then .ok (row.operands w) else .error .reservedBit := by
  unfold decode
  cases hfind : opTable.find? (fun row => row.op == opField w) with
  | none => exact absurd (beq_iff_eq.2 hop) (List.find?_eq_none.1 hfind row hrow)
  | some found =>
    have hfound : found.op = opField w := by simpa using List.find?_some hfind
    obtain rfl := List.inj_on_of_nodup_map opTable_nodup (List.mem_of_find?_eq_some hfind) hrow (hfound.trans hop.symm)
    rfl

/-- A word whose opcode no row has is no command (30_encoding.md R91, step 2). -/
theorem decode_unassigned {w : Word} (h : ∀ row ∈ opTable, row.op ≠ opField w) : decode w = .error .unassignedOpcode := by
  have hfind : opTable.find? (fun row => row.op == opField w) = none :=
    List.find?_eq_none.2 fun row hrow => mt beq_iff_eq.1 (h row hrow)
  unfold decode
  rw [hfind]

/-- A word with an assigned opcode and no reserved bit set is the command of its fields. -/
theorem decode_assigned {row : OpRow} (hrow : row ∈ opTable) {w : Word} (hop : row.op = opField w)
    (hres : w &&& row.reserved = 0) : decode w = .ok (row.operands w) := by
  rw [decode_of_mem_opTable hrow hop, if_pos hres]

/-- A word with an assigned opcode and a reserved bit set is no command (30_encoding.md R91, step 3). -/
theorem decode_reserved {row : OpRow} (hrow : row ∈ opTable) {w : Word} (hop : row.op = opField w)
    (hres : w &&& row.reserved ≠ 0) : decode w = .error .reservedBit := by
  rw [decode_of_mem_opTable hrow hop, if_neg hres]

/-- A word that decodes does so by a row of the map. -/
theorem exists_row_of_decode {w : Word} {i : Instr} (hd : decode w = .ok i) :
    ∃ row ∈ opTable, row.op = opField w ∧ w &&& row.reserved = 0 ∧ i = row.operands w := by
  by_cases hassigned : ∃ row ∈ opTable, row.op = opField w
  · obtain ⟨row, hrow, hop⟩ := hassigned
    rw [decode_of_mem_opTable hrow hop] at hd
    split at hd
    next hres => exact ⟨row, hrow, hop, hres, (Except.ok.inj hd).symm⟩
    next => cases hd
  · rw [decode_unassigned fun row hrow hop => hassigned ⟨row, hrow, hop⟩] at hd
    cases hd

/-- What a row says of a word: its opcode, its reserved bits, and the command of the word's fields. -/
def OpRow.readings (w : Word) (row : OpRow) : BitVec 6 × Word × Instr := (row.op, row.reserved, row.operands w)

/-- The operands of a row make a command of the row's opcode. -/
theorem opNumber_operands (w : Word) : ∀ row ∈ opTable, Laws.opNumber (row.operands w) = row.op := by
  simp [opTable, Laws.opNumber]

/-- The words that decode to a command, by the row of its opcode: that opcode, no reserved bit, the operands as fields. -/
theorem decode_eq_ok_iff_row {row : OpRow} (hrow : row ∈ opTable) {i : Instr} (hnumber : Laws.opNumber i = row.op)
    (w : Word) : decode w = .ok i ↔ row.op = opField w ∧ w &&& row.reserved = 0 ∧ i = row.operands w := by
  constructor
  · intro hd
    obtain ⟨found, hfound, hop, hres, rfl⟩ := exists_row_of_decode hd
    obtain rfl := List.inj_on_of_nodup_map opTable_nodup hfound hrow ((opNumber_operands w found hfound).symm.trans hnumber)
    exact ⟨hop, hres, rfl⟩
  · rintro ⟨hop, hres, rfl⟩
    exact decode_assigned hrow hop hres

/-! ## Reserved bits -/

/-- The mask of the `len` bits from bit `lo` on. -/
def fieldMask (lo len : Nat) : Word := (BitVec.allOnes len).setWidth 32 <<< lo

/-- The bits under the mask of a field are 0 exactly when the field is. -/
theorem and_fieldMask_eq_zero_iff (w : Word) (lo len : Nat) (h : lo + len ≤ 32) :
    w &&& fieldMask lo len = 0 ↔ 0 = w.extractLsb' lo len := by
  constructor
  · intro hw
    ext k hk
    have hbit := congrArg (·.getLsbD (lo + k)) hw
    simpa [fieldMask, hk, show lo + k < 32 by omega] using hbit.symm
  · intro hw
    ext k hk
    by_cases hin : lo ≤ k ∧ k - lo < len
    · have hbit := congrArg (·.getLsbD (k - lo)) hw
      simp [hin.2, show lo + (k - lo) = k by omega] at hbit
      simp [← BitVec.getLsbD_eq_getElem hk, hbit]
    · simp [fieldMask]
      omega

/-- The bits under the masks of two fields are 0 exactly when both fields are. -/
theorem and_fieldMasks_eq_zero_iff (w : Word) (lo len lo' len' : Nat) (h : lo + len ≤ 32) (h' : lo' + len' ≤ 32) :
    w &&& (fieldMask lo len ||| fieldMask lo' len') = 0 ↔ 0 = w.extractLsb' lo len ∧ 0 = w.extractLsb' lo' len' := by
  rw [BitVec.and_or_distrib_left, ← and_fieldMask_eq_zero_iff w lo len h, ← and_fieldMask_eq_zero_iff w lo' len' h']
  exact BitVec.or_eq_zero_iff

/-! The reserved bits of each format (30_encoding.md R92) are 0 when the fields they form are. -/

theorem reservedZ_iff (w : Word) : w &&& 0x03FFFFFF = 0 ↔ 0 = w.extractLsb' 0 26 :=
  and_fieldMask_eq_zero_iff w 0 26 (by decide)

theorem reservedI_iff (w : Word) : w &&& 0x00100000 = 0 ↔ 0 = w.extractLsb' 20 1 :=
  and_fieldMask_eq_zero_iff w 20 1 (by decide)

theorem reservedF_iff (w : Word) : w &&& 0x001F0000 = 0 ↔ 0 = w.extractLsb' 16 5 :=
  and_fieldMask_eq_zero_iff w 16 5 (by decide)

theorem reservedE_iff (w : Word) : w &&& 0x001FFFE0 = 0 ↔ 0 = w.extractLsb' 5 16 :=
  and_fieldMask_eq_zero_iff w 5 16 (by decide)

theorem reservedR_iff (w : Word) : w &&& 0x0000FFFF = 0 ↔ 0 = w.extractLsb' 0 16 :=
  and_fieldMask_eq_zero_iff w 0 16 (by decide)

theorem reservedQ_iff (w : Word) : w &&& 0x0000FFFC = 0 ↔ 0 = w.extractLsb' 2 14 :=
  and_fieldMask_eq_zero_iff w 2 14 (by decide)

theorem reservedT_iff (w : Word) : w &&& 0x03E0FFF0 = 0 ↔ 0 = w.extractLsb' 21 5 ∧ 0 = w.extractLsb' 4 12 :=
  and_fieldMasks_eq_zero_iff w 21 5 4 12 (by decide) (by decide)

theorem reservedC_iff (w : Word) : w &&& 0x03FF0000 = 0 ↔ 0 = w.extractLsb' 16 10 :=
  and_fieldMask_eq_zero_iff w 16 10 (by decide)

theorem reservedB_iff (w : Word) : w &&& 0x03FEFF00 = 0 ↔ 0 = w.extractLsb' 17 9 ∧ 0 = w.extractLsb' 8 8 :=
  and_fieldMasks_eq_zero_iff w 17 9 8 8 (by decide) (by decide)

theorem reservedW_iff (w : Word) : w &&& 0x03000000 = 0 ↔ 0 = w.extractLsb' 24 2 :=
  and_fieldMask_eq_zero_iff w 24 2 (by decide)

theorem reservedTcosts_iff (w : Word) : w &&& 0x030000FF = 0 ↔ 0 = w.extractLsb' 24 2 ∧ 0 = w.extractLsb' 0 8 :=
  and_fieldMasks_eq_zero_iff w 24 2 0 8 (by decide) (by decide)

/-! ## The formats -/

/-- A bit string in two parts is a field of `w` when each part is. -/
theorem append_eq_extractLsb'_iff {m n k : Nat} (x : BitVec m) (y : BitVec n) (w : BitVec k) (lo : Nat) :
    x ++ y = w.extractLsb' lo (m + n) ↔ x = w.extractLsb' (lo + n) m ∧ y = w.extractLsb' lo n := by
  rw [← BitVec.extractLsb'_append_extractLsb'_eq_extractLsb' rfl]
  refine ⟨fun h => ⟨?high, ?low⟩, fun ⟨hx, hy⟩ => hx ▸ hy ▸ rfl⟩
  case high => simpa [BitVec.extractLsb'_append_eq_of_le] using congrArg (BitVec.extractLsb' n m) h
  case low => simpa [BitVec.extractLsb'_append_eq_of_add_le] using congrArg (BitVec.extractLsb' 0 n) h

/-- A word in two parts: the first step in reading a format field by field. -/
theorem append_cast_eq_iff {k : Nat} (m n : Nat) (hk : m + n = k) (x : BitVec m) (y : BitVec n) (w : BitVec k) :
    (x ++ y).cast hk = w ↔ x = w.extractLsb' n m ∧ y = w.extractLsb' 0 n := by
  subst hk
  simpa only [BitVec.cast_eq, BitVec.extractLsb'_eq_self, Nat.zero_add] using append_eq_extractLsb'_iff x y w 0

/-! A word of each format is made of its opcode, its reserved bits and its fields (30_encoding.md R92). -/

/-- Format Z: NOP, BSTART, BSTOP. -/
theorem formatZ_iff (w : Word) (op : BitVec 6) : op ++ 0#26 = w ↔ op = opField w ∧ w &&& 0x03FFFFFF = 0 := by
  rw [reservedZ_iff]
  exact append_cast_eq_iff 6 26 rfl op 0 w

/-- Format I: LDI. -/
theorem formatI_iff (w : Word) (op : BitVec 6) (bd : BitVec 5) (lane : BitVec 4) (imm16 : BitVec 16) :
    op ++ bd ++ 0#1 ++ lane ++ imm16 = w ↔
      op = opField w ∧ w &&& 0x00100000 = 0 ∧ bd = fieldBd w ∧ lane = w.extractLsb' 16 4 ∧ imm16 = fieldImm w := by
  rw [reservedI_iff]
  refine (append_cast_eq_iff (k := 32) (6 + 5 + 1 + 4) 16 rfl _ _ w).trans ?_
  simp only [append_eq_extractLsb'_iff, and_assoc]
  simp only [opField, fieldBd, fieldImm, Nat.reduceAdd]
  tauto

/-- Formats F and L: BFILL and BLIT. -/
theorem formatF_iff (w : Word) (op : BitVec 6) (bd : BitVec 5) (imm16 : BitVec 16) :
    op ++ bd ++ 0#5 ++ imm16 = w ↔ op = opField w ∧ w &&& 0x001F0000 = 0 ∧ bd = fieldBd w ∧ imm16 = fieldImm w := by
  rw [reservedF_iff]
  refine (append_cast_eq_iff (k := 32) (6 + 5 + 5) 16 rfl _ _ w).trans ?_
  simp only [append_eq_extractLsb'_iff, and_assoc]
  simp only [opField, fieldBd, fieldImm, Nat.reduceAdd]
  tauto

/-- Format E: SEOB. -/
theorem formatE_iff (w : Word) (op : BitVec 6) (bd n : BitVec 5) :
    op ++ bd ++ 0#16 ++ n = w ↔ op = opField w ∧ w &&& 0x001FFFE0 = 0 ∧ bd = fieldBd w ∧ n = w.extractLsb' 0 5 := by
  rw [reservedE_iff]
  refine (append_cast_eq_iff (k := 32) (6 + 5 + 16) 5 rfl _ _ w).trans ?_
  simp only [append_eq_extractLsb'_iff, and_assoc]
  simp only [opField, fieldBd, Nat.reduceAdd]
  tauto

/-- Format R: GDC, FDCT, FWHT. -/
theorem formatR_iff (w : Word) (op : BitVec 6) (bd bs : BitVec 5) :
    op ++ bd ++ bs ++ 0#16 = w ↔ op = opField w ∧ w &&& 0x0000FFFF = 0 ∧ bd = fieldBd w ∧ bs = fieldBs w := by
  rw [reservedR_iff]
  refine (append_cast_eq_iff (k := 32) (6 + 5 + 5) 16 rfl _ _ w).trans ?_
  simp only [append_eq_extractLsb'_iff, and_assoc]
  simp only [opField, fieldBd, fieldBs, Nat.reduceAdd]
  tauto

/-- Format Q: QUANT, DEQUANT. -/
theorem formatQ_iff (w : Word) (op : BitVec 6) (bd bs : BitVec 5) (t : BitVec 2) :
    op ++ bd ++ bs ++ 0#14 ++ t = w ↔
      op = opField w ∧ w &&& 0x0000FFFC = 0 ∧ bd = fieldBd w ∧ bs = fieldBs w ∧ t = fieldT w := by
  rw [reservedQ_iff]
  refine (append_cast_eq_iff (k := 32) (6 + 5 + 5 + 14) 2 rfl _ _ w).trans ?_
  simp only [append_eq_extractLsb'_iff, and_assoc]
  simp only [opField, fieldBd, fieldBs, fieldT, Nat.reduceAdd]
  tauto

/-- Format T: TKN. -/
theorem formatT_iff (w : Word) (op : BitVec 6) (bs : BitVec 5) (c0 t : BitVec 2) :
    op ++ 0#5 ++ bs ++ 0#12 ++ c0 ++ t = w ↔
      op = opField w ∧ w &&& 0x03E0FFF0 = 0 ∧ bs = fieldBs w ∧ t = fieldT w ∧ c0 = w.extractLsb' 2 2 := by
  rw [reservedT_iff]
  refine (append_cast_eq_iff (k := 32) (6 + 5 + 5 + 12 + 2) 2 rfl _ _ w).trans ?_
  simp only [append_eq_extractLsb'_iff, and_assoc]
  simp only [opField, fieldBs, fieldT, Nat.reduceAdd]
  tauto

/-- Format C: PUTTOK. -/
theorem formatC_iff (w : Word) (op : BitVec 6) (count : BitVec 16) :
    op ++ 0#10 ++ count = w ↔ op = opField w ∧ w &&& 0x03FF0000 = 0 ∧ count = fieldImm w := by
  rw [reservedC_iff]
  refine (append_cast_eq_iff (k := 32) (6 + 10) 16 rfl _ _ w).trans ?_
  simp only [append_eq_extractLsb'_iff, and_assoc]
  simp only [opField, fieldImm, Nat.reduceAdd]
  tauto

/-- Format B: BBOOL. -/
theorem formatB_iff (w : Word) (op : BitVec 6) (bit : BitVec 1) (prob : BitVec 8) :
    op ++ 0#9 ++ bit ++ 0#8 ++ prob = w ↔
      op = opField w ∧ w &&& 0x03FEFF00 = 0 ∧ bit = w.extractLsb' 16 1 ∧ prob = w.extractLsb' 0 8 := by
  rw [reservedB_iff]
  refine (append_cast_eq_iff (k := 32) (6 + 9 + 1 + 8) 8 rfl _ _ w).trans ?_
  simp only [append_eq_extractLsb'_iff, and_assoc]
  simp only [opField, Nat.reduceAdd]
  tauto

/-- Format W: TWRITE, TCOST. -/
theorem formatW_iff (w : Word) (op : BitVec 6) (tb pb v : BitVec 8) :
    op ++ 0#2 ++ tb ++ pb ++ v = w ↔ op = opField w ∧ w &&& 0x03000000 = 0 ∧
      tb = w.extractLsb' 16 8 ∧ pb = w.extractLsb' 8 8 ∧ v = w.extractLsb' 0 8 := by
  rw [reservedW_iff]
  refine (append_cast_eq_iff (k := 32) (6 + 2 + 8 + 8) 8 rfl _ _ w).trans ?_
  simp only [append_eq_extractLsb'_iff, and_assoc]
  simp only [opField, Nat.reduceAdd]
  tauto

/-- Format W as TCOSTS has it, without a leaf value. -/
theorem formatTcosts_iff (w : Word) (op : BitVec 6) (tb pb : BitVec 8) :
    op ++ 0#2 ++ tb ++ pb ++ 0#8 = w ↔
      op = opField w ∧ w &&& 0x030000FF = 0 ∧ tb = w.extractLsb' 16 8 ∧ pb = w.extractLsb' 8 8 := by
  rw [reservedTcosts_iff]
  refine (append_cast_eq_iff (k := 32) (6 + 2 + 8 + 8) 8 rfl _ _ w).trans ?_
  simp only [append_eq_extractLsb'_iff, and_assoc]
  simp only [opField, Nat.reduceAdd]
  tauto

/-! ## Decoding and encoding -/

/-- A command whose format makes its word as row `k` of the opcode map reads a word: the words that decode to it are its own
word alone. `fields` says that the row's fields in `w` are the command's operands. -/
theorem decode_eq_ok_iff_of_format {i : Instr} {w : Word} {fields : Prop} (k : Fin 18)
    (hnumber : Laws.opNumber i = (opTable.get k).op) (hfields : (i = (opTable.get k).operands w) = fields)
    (hformat : encode i = w ↔ (opTable.get k).op = opField w ∧ w &&& (opTable.get k).reserved = 0 ∧ fields) :
    decode w = .ok i ↔ encode i = w := by
  rw [decode_eq_ok_iff_row (List.get_mem opTable k) hnumber w, hfields, hformat]

/-- A word decodes to a command exactly when it is the command's word (30_encoding.md R91, R92, R95). -/
theorem decode_eq_ok_iff (w : Word) (i : Instr) : decode w = .ok i ↔ encode i = w := by
  have formatZ (op : BitVec 6) : op ++ 0#26 = w ↔ op = opField w ∧ w &&& 0x03FFFFFF = 0 ∧ True := by
    rw [formatZ_iff, and_true]
  cases i with
  | nop => exact decode_eq_ok_iff_of_format 0 rfl (eq_self _) (formatZ _)
  | ldi => exact decode_eq_ok_iff_of_format 1 rfl (Instr.ldi.injEq ..) (formatI_iff ..)
  | bfill => exact decode_eq_ok_iff_of_format 2 rfl (Instr.bfill.injEq ..) (formatF_iff ..)
  | seob => exact decode_eq_ok_iff_of_format 3 rfl (Instr.seob.injEq ..) (formatE_iff ..)
  | gdc => exact decode_eq_ok_iff_of_format 4 rfl (Instr.gdc.injEq ..) (formatR_iff ..)
  | fdct => exact decode_eq_ok_iff_of_format 5 rfl (Instr.fdct.injEq ..) (formatR_iff ..)
  | fwht => exact decode_eq_ok_iff_of_format 6 rfl (Instr.fwht.injEq ..) (formatR_iff ..)
  | quant => exact decode_eq_ok_iff_of_format 7 rfl (Instr.quant.injEq ..) (formatQ_iff ..)
  | dequant => exact decode_eq_ok_iff_of_format 8 rfl (Instr.dequant.injEq ..) (formatQ_iff ..)
  | tkn => exact decode_eq_ok_iff_of_format 9 rfl (Instr.tkn.injEq ..) (formatT_iff ..)
  | puttok => exact decode_eq_ok_iff_of_format 10 rfl (Instr.puttok.injEq ..) (formatC_iff ..)
  | bstart => exact decode_eq_ok_iff_of_format 11 rfl (eq_self _) (formatZ _)
  | bbool => exact decode_eq_ok_iff_of_format 12 rfl (Instr.bbool.injEq ..) (formatB_iff ..)
  | blit => exact decode_eq_ok_iff_of_format 13 rfl (Instr.blit.injEq ..) (formatF_iff ..)
  | bstop => exact decode_eq_ok_iff_of_format 14 rfl (eq_self _) (formatZ _)
  | twrite => exact decode_eq_ok_iff_of_format 15 rfl (Instr.twrite.injEq ..) (formatW_iff ..)
  | tcost => exact decode_eq_ok_iff_of_format 16 rfl (Instr.tcost.injEq ..) (formatW_iff ..)
  | tcosts => exact decode_eq_ok_iff_of_format 17 rfl (Instr.tcosts.injEq ..) (formatTcosts_iff ..)

/-- Every command decodes from its own word. -/
@[simp] theorem decode_encode (i : Instr) : decode (encode i) = .ok i := (decode_eq_ok_iff _ i).2 rfl

end Sys2Proof

namespace Sys2Proof.Machine

/-! ## Faults of steps (2) to (4) of the decoding order (30_encoding.md R91) -/

/-- The first fault since `FSTAT` was 0 sets its class bit alone and records its code and word (60_exceptions.md R214). -/
theorem State.raise_of_fstat_eq_zero {s : State} (hfstat : s.fstat = 0) (code : FaultCode) (w : Word) :
    s.raise code w = { s with fstat := code.classBit, fcause := code.number, finfo := w } := by
  simp [State.raise, hfstat, fstatAfter]

/-- A command that stops with a fault on an engine that is not halted. -/
theorem finish_raised {s : State} (hfstat : s.fstat = 0) (i : Instr) (code : FaultCode) :
    finish i (.raised code s) = .next { s with fstat := code.classBit, fcause := code.number, finfo := encode i } := by
  rw [finish_next, Run.settle_raised, State.raise_of_fstat_eq_zero hfstat]

/-- A word that is no command takes `E_ILLCMD` (30_encoding.md R91). -/
theorem takesIllCmd_of_decode {w : Word} {r : DecodeReject} (hd : decode w = .error r) : takesIllCmd w := by
  intro s rest hfstat
  have hserve := serve_illegal { s with bus := rest, rdata := none } w r (by simp [State.halted, hfstat]) hd
  rw [State.raise_of_fstat_eq_zero (by exact hfstat)] at hserve
  exact hserve

/-- A word of an unassigned opcode takes `E_ILLCMD`. -/
theorem takesIllCmd_unassigned {w : Word} (h : ∀ row ∈ opTable, row.op ≠ opField w) : takesIllCmd w :=
  takesIllCmd_of_decode (decode_unassigned h)

/-- A word with a reserved bit set takes `E_ILLCMD`. -/
theorem takesIllCmd_reserved {row : OpRow} (hrow : row ∈ opTable) {w : Word} (hop : row.op = opField w)
    (hres : w &&& row.reserved ≠ 0) : takesIllCmd w :=
  takesIllCmd_of_decode (decode_reserved hrow hop hres)

end Sys2Proof.Machine

namespace Sys2Proof.Proofs

open Sys2Proof.Machine

/-- Settles O1: a command's own word is one that decodes to it. -/
theorem everyCommandDecodesFromItsWord : Obligations.EveryCommandDecodesFromItsWord := decode_encode

/-- Settles O2: only its own word decodes to a command. -/
theorem acceptedWordIsTheCommandsWord : Obligations.AcceptedWordIsTheCommandsWord := fun w i => (decode_eq_ok_iff w i).1

/-- Settles O4: the rows written out there are those of the opcode map. -/
theorem illegalWordRaisesIllCmd : Obligations.IllegalWordRaisesIllCmd := by
  refine ⟨fun w => ?map, fun w h => ?faults, by decide, by rfl, by rfl⟩
  case map =>
    have hrows {P : BitVec 6 × Word × Instr → Prop} :
        (∀ entry ∈ opTable.map (OpRow.readings w), P entry) ↔ ∀ row ∈ opTable, P (row.readings w) :=
      List.forall_mem_map
    exact ⟨hrows.2 fun row hrow hop hres => decode_assigned hrow hop hres,
      hrows.2 fun row hrow hop hres => ⟨decode_reserved hrow hop hres, takesIllCmd_reserved hrow hop hres⟩,
      fun hop => ⟨decode_unassigned (hrows.1 hop), takesIllCmd_unassigned (hrows.1 hop)⟩⟩
  case faults =>
    obtain hop | ⟨row, hrow, hop, hres⟩ := h
    · exact takesIllCmd_unassigned hop
    · exact takesIllCmd_reserved hrow hop hres

/-- Settles O3: each word is its command's, and decodes because it is. -/
theorem workedEncodings : Obligations.WorkedEncodings :=
  have hd {w : Word} {i : Instr} := (decode_eq_ok_iff w i).2
  ⟨rfl, rfl, rfl, rfl, rfl, rfl, rfl, rfl, hd rfl, hd rfl, hd rfl, hd rfl, hd rfl, hd rfl, hd rfl, hd rfl⟩

/-- Settles O10: each of the four commands stops at its operand check, before any other effect. -/
theorem operandRangeFaults : Obligations.OperandRangeFaults := by
  intro s hfstat
  refine ⟨fun bd n hn => ?seob, fun n v hn => ?blit, fun bs t => ?tkn, fun bd bs hbs => ?gdc⟩
  case seob =>
    change execSeob bd n s = _
    rw [execSeob, if_pos hn]
    exact finish_raised hfstat _ .operand
  case blit =>
    change execBlit n v s = _
    rw [execBlit, if_pos hn]
    exact finish_raised hfstat _ .operand
  case tkn =>
    change execTkn bs t 3 s = _
    rw [execTkn, if_pos rfl]
    exact finish_raised hfstat _ .operand
  case gdc =>
    change execGdc bd bs s = _
    rw [execGdc, if_pos (by omega)]
    exact finish_raised hfstat _ .regRange

end Sys2Proof.Proofs
end

section
/-! PROOFS. The exact coder one doubling at a time, and the bytes and the count after a number of doublings. -/

namespace Sys2Proof.Machine

/-! ## Counting bytes -/

@[simp] theorem bytesOut_zero {count : Nat} (h : 1 ≤ count) : bytesOut count 0 = 0 := if_pos h

@[simp] theorem countAfter_zero {count : Nat} (h : 1 ≤ count) : countAfter count 0 = count := if_pos h

/-- One more doubling counts down, and starts at 8 again with the next byte. -/
theorem countAfter_succ (count shifts : Nat) :
    countAfter count (shifts + 1) = if countAfter count shifts = 1 then 8 else countAfter count shifts - 1 := by
  unfold countAfter
  split_ifs <;> omega

/-- One more doubling completes a byte when one doubling was due. -/
theorem bytesOut_succ (count shifts : Nat) :
    bytesOut count (shifts + 1) = bytesOut count shifts + if countAfter count shifts = 1 then 1 else 0 := by
  unfold bytesOut countAfter
  split_ifs <;> omega

theorem bytesOut_mono (count : Nat) {m n : Nat} (h : m ≤ n) : bytesOut count m ≤ bytesOut count n := by
  unfold bytesOut
  split_ifs <;> omega

/-! ## Doublings -/

theorem normShift_of_le {range : Nat} (h : 128 ≤ range) : normShift range = 0 := by
  have hlog : 7 ≤ Nat.log2 range := (Nat.le_log2 (by omega)).2 h
  unfold normShift
  omega

theorem normShift_of_lt {range : Nat} (hpos : 1 ≤ range) (h : range < 128) :
    normShift range = normShift (range * 2) + 1 := by
  have hlog : Nat.log2 range < 7 := (Nat.log2_lt (by omega)).2 h
  have hdouble : Nat.log2 (2 * range) = Nat.log2 range + 1 := Nat.log2_two_mul (by omega)
  rw [Nat.mul_comm]
  unfold normShift
  omega

theorem normShift_le (range : Nat) : normShift range ≤ 7 := Nat.sub_le 7 _

/-- `normShift` doublings bring a range of 1 to 255 into 128 to 255 (40_bool_coder.md R124 (a)). -/
theorem le_mul_two_pow_normShift {range : Nat} (hpos : 1 ≤ range) (hle : range ≤ 255) :
    128 ≤ range * 2 ^ normShift range ∧ range * 2 ^ normShift range ≤ 255 := by
  have hlow : 2 ^ Nat.log2 range ≤ range := Nat.log2_self_le (by omega)
  have hhigh : range < 2 ^ (Nat.log2 range + 1) := Nat.lt_log2_self
  have hlog : Nat.log2 range < 8 := (Nat.log2_lt (by omega)).2 (by omega)
  unfold normShift
  generalize Nat.log2 range = k at *
  interval_cases k <;> omega

/-- One doubling of the exact coder, with the byte it may complete (40_bool_coder.md R123). -/
def exactDouble (e : Exact) : Exact where
  value := 2 * e.value
  range := e.range * 2
  shifts := e.shifts + 1
  count := if e.count = 1 then 8 else e.count - 1
  written := if e.count = 1 then 2 * e.value / 2 ^ 24 else e.written

/-- The sub-range of a bool in the exact coder, before any doubling (40_bool_coder.md R123). -/
def exactNarrow (e : Exact) (b : Bool × Nat) : Exact :=
  { e with
    value := if b.1 then e.value + splitOf e.range b.2 else e.value
    range := if b.1 then e.range - splitOf e.range b.2 else splitOf e.range b.2 }

/-- Doublings in a row, few enough to complete at most one byte. -/
theorem exactDouble_iterate (e : Exact) (hcount : 1 ≤ e.count) (k : Nat) (hk : k < e.count + 8) :
    exactDouble^[k] e =
      { value := e.value * 2 ^ k, range := e.range * 2 ^ k, shifts := e.shifts + k
        count := if k < e.count then e.count - k else 8 - (k - e.count)
        written := if k < e.count then e.written else e.value * 2 ^ e.count / 2 ^ 24 } := by
  induction k with
  | zero => simp [show 0 < e.count from hcount]
  | succ k ih =>
    rw [Function.iterate_succ_apply', ih (by omega)]
    have hdue : (if k < e.count then e.count - k else 8 - (k - e.count)) = 1 ↔ k + 1 = e.count := by split_ifs <;> omega
    simp only [exactDouble, hdue, Exact.mk.injEq]
    refine ⟨by ring, by ring, rfl, ?count, ?written⟩
    case count => split_ifs <;> omega
    case written =>
      by_cases hlast : k + 1 = e.count
      · rw [if_pos hlast, if_neg (by omega), ← hlast, Nat.pow_succ]
        congr 1
        ring
      · rw [if_neg hlast]
        simp only [show k < e.count ↔ k + 1 < e.count by omega]

/-- A step of the exact coder narrows and then doubles, one doubling at a time. -/
theorem exactStep_eq_iterate (e : Exact) (hcount : 1 ≤ e.count) (b : Bool × Nat) :
    exactStep e b = exactDouble^[normShift (exactNarrow e b).range] (exactNarrow e b) := by
  have hk := normShift_le (exactNarrow e b).range
  rw [exactDouble_iterate (exactNarrow e b) hcount _ (by change _ < e.count + 8; omega)]
  rfl

theorem exactStep_shifts (e : Exact) (b : Bool × Nat) :
    (exactStep e b).shifts = e.shifts + normShift (exactNarrow e b).range := rfl

/-- Coding more bools makes no fewer doublings. -/
theorem shifts_le_foldl_exactStep (bools : List (Bool × Nat)) (e : Exact) :
    e.shifts ≤ (bools.foldl exactStep e).shifts := by
  induction bools generalizing e with
  | nil => exact Nat.le_refl _
  | cons b rest ih => exact (Nat.le_add_right _ _).trans (ih (exactStep e b))

theorem exactRun_concat (bools : List (Bool × Nat)) (b : Bool × Nat) (s : State) :
    exactRun (bools ++ [b]) s = exactStep (exactRun bools s) b := Laws.exactRun_append bools [b] s

theorem hasRoom_iff (bools : List (Bool × Nat)) (s : State) :
    hasRoom bools s = true ↔
      s.bcPos.toNat + bytesOut s.bcCount.toNat (exactRun bools s).shifts ≤ s.olimit.toNat := decide_eq_true_iff

/-- Room for a list of bools is room for the first of them. -/
theorem hasRoom_of_append {xs ys : List (Bool × Nat)} {s : State} (h : hasRoom (xs ++ ys) s = true) :
    hasRoom xs s = true := by
  rw [hasRoom_iff, Laws.exactRun_append] at h
  have hmono := bytesOut_mono s.bcCount.toNat (shifts_le_foldl_exactStep ys (exactRun xs s))
  exact (hasRoom_iff xs s).2 (by omega)

end Sys2Proof.Machine
end

section
/-! PROOFS. The tuple of the coder in the renormalisation loop: what every turn keeps, where the loop
ends, and the stream as one number (40_bool_coder.md R121 to R124). -/

namespace Sys2Proof.Machine

/-! ## The stream as a number -/

/-- The bytes of the stream as one number. -/
def Coder.written (base : Nat) (c : Coder) : Nat := obufNumber c.mem base (c.pos - base)

/-- The bytes of the stream and the bits still in `low` as one number; `State.codedValue` of the coder of a state. -/
def Coder.value (base : Nat) (c : Coder) : Nat := c.written base * 2 ^ (32 - c.count) + c.low

theorem State.codedValue_eq (s : State) : s.codedValue = s.coder.value s.obase.toNat := rfl

theorem obufNumber_write_after (m : Memory) (base n : Nat) {a : Nat} (h : obufAddr (base + n) ≤ a) (v : Byte) :
    obufNumber (m.write a v) base n = obufNumber m base n := by
  refine Laws.obufNumber_congr _ _ _ _ fun k hk => Memory.read_write_other _ _ _ _ ?_
  simp only [obufAddr] at h ⊢
  omega

/-- The number of a stream with one more byte. -/
theorem obufNumber_append (m : Memory) (base n : Nat) (v : Byte) :
    obufNumber (m.write (obufAddr (base + n)) v) base (n + 1) = obufNumber m base n * 256 + v.toNat := by
  rw [Laws.obufNumber_succ, obufNumber_write_after _ _ _ (Nat.le_refl _)]
  simp [Memory.obuf]

/-- A carry leaves every byte outside the stream. -/
theorem carryInto_read_other {base n : Nat} {m m' : Memory} (h : carryInto base n m = some m') {a : Nat}
    (ha : a < obufAddr base ∨ obufAddr (base + n) ≤ a) : m'.read a = m.read a := by
  obtain ⟨k, -, -, -, -, -, hrest⟩ := carryInto_some base n m m' h
  exact hrest a (by simp only [obufAddr] at ha ⊢; omega)

/-- A carry adds 1 to the stream. -/
theorem obufNumber_carryInto {base n : Nat} {m m' : Memory} (h : carryInto base n m = some m') :
    obufNumber m' base n = obufNumber m base n + 1 := by
  induction n generalizing m with
  | zero => cases h
  | succ n ih =>
    have hlast := fun (m₁ : Memory) (h₁ : carryInto base n m₁ = some m') =>
      carryInto_read_other h₁ (a := obufAddr (base + n)) (.inr (Nat.le_refl _))
    unfold carryInto at h
    split at h
    next hff =>
      have hbyte : (m'.obuf (base + n)).toNat = 0 :=
        congrArg BitVec.toNat ((hlast _ h).trans (Memory.read_write_same _ _ _))
      have hff' : (m.obuf (base + n)).toNat = 255 := congrArg BitVec.toNat hff
      rw [Laws.obufNumber_succ, Laws.obufNumber_succ, ih h, obufNumber_write_after _ _ _ (Nat.le_refl _), hbyte, hff']
      omega
    next hne =>
      cases h
      have hlt : (m.obuf (base + n)).toNat ≠ 255 := fun e => hne (BitVec.eq_of_toNat_eq e)
      have hbyte : (m.obuf (base + n) + 1).toNat = (m.obuf (base + n)).toNat + 1 := by
        exact BitVec.toNat_add_of_lt (by change _ + 1 < _; omega)
      rw [obufNumber_append, Laws.obufNumber_succ, hbyte, Nat.add_assoc]

/-- A stream of bytes 0xFF alone is the largest number of its length. -/
theorem obufNumber_of_carryInto_none {base n : Nat} {m : Memory} (h : carryInto base n m = none) :
    obufNumber m base n + 1 = 256 ^ n := by
  rw [carryInto_none] at h
  induction n with
  | zero => rfl
  | succ n ih =>
    have hn := ih fun j hj => h j (by omega)
    have hbyte : (m.obuf (base + n)).toNat = 255 := congrArg BitVec.toNat (h n (Nat.lt_succ_self n))
    rw [Laws.obufNumber_succ, hbyte, Nat.pow_succ, ← hn]
    omega

theorem testBit_carry_iff {low : Nat} (h : low < 2 ^ 32) : low.testBit 31 = true ↔ 2 ^ 31 ≤ low := by
  rw [Nat.testBit_eq_decide_div_mod_eq, decide_eq_true_iff]
  omega

/-! ## The bounds of the tuple -/

/-- The bounds of the tuple inside the loop: those of `BacOk`, but for a range not yet doubled to 128
(40_bool_coder.md R121). -/
structure Coder.InBounds (base limit : Nat) (c : Coder) : Prop where
  range_pos : 1 ≤ c.range
  range_le : c.range ≤ 255
  low_lt : c.low < 2 ^ 32
  count_pos : 1 ≤ c.count
  count_le : c.count ≤ 24
  base_le : base ≤ c.pos
  le_limit : c.pos ≤ limit

theorem State.bacOk_iff (s : State) :
    s.bacOk = true ↔
      128 ≤ s.bcRange.toNat ∧ s.coder.InBounds s.obase.toNat s.olimit.toNat ∧ s.olimit.toNat ≤ s.cfg.nobuf := by
  simp only [State.bacOk, Bool.and_eq_true, decide_eq_true_eq]
  constructor
  · rintro ⟨⟨⟨hrange, hle⟩, hcount, hcount'⟩, hbase, hpos, hlimit⟩
    exact ⟨hrange, ⟨by change 1 ≤ s.bcRange.toNat; omega, hle, s.bcLow.isLt, hcount, hcount', hbase, hpos⟩, hlimit⟩
  · rintro ⟨hrange, h, hlimit⟩
    exact ⟨⟨⟨hrange, h.range_le⟩, h.count_pos, h.count_le⟩, h.base_le, h.le_limit, hlimit⟩

/-- A tuple in bounds fits the registers. -/
theorem State.coder_withCoder (s : State) {c : Coder} {base : Nat} (h : c.InBounds base s.olimit.toNat) :
    (s.withCoder c).coder = c := by
  have hlimit := s.olimit.isLt
  have ⟨_, hrange, hlow, _, hcount, _, hpos⟩ := h
  have hrange' : c.range % 2 ^ 8 = c.range := by omega
  have hcount' : c.count % 2 ^ 5 = c.count := by omega
  have hpos' : c.pos % 2 ^ 32 = c.pos := by omega
  simp only [State.coder, State.withCoder, BitVec.toNat_ofNat, hrange', Nat.mod_eq_of_lt hlow, hcount', hpos']

theorem State.withCoder_coder (s : State) : s.withCoder s.coder = s := by simp [State.withCoder, State.coder]

/-- The split leaves both sub-ranges non-empty (40_bool_coder.md R124 (a)). -/
theorem splitOf_bounds {range p : Nat} (hrange : 128 ≤ range) (hle : range ≤ 255) (hp : p ≤ 255) :
    1 ≤ splitOf range p ∧ splitOf range p ≤ range - 1 := by
  have hmul : (range - 1) * p ≤ (range - 1) * 255 := Nat.mul_le_mul_left _ hp
  unfold splitOf
  omega

@[simp] theorem Coder.narrow_pos (c : Coder) (bit : Bool) (p : Nat) : (c.narrow bit p).pos = c.pos := by
  cases bit <;> rfl

theorem Coder.InBounds.narrow {base limit : Nat} {c : Coder} (hc : c.InBounds base limit) (hrange : 128 ≤ c.range)
    {p : Nat} (hp : p ≤ 255) (bit : Bool) : (c.narrow bit p).InBounds base limit := by
  obtain ⟨hsplit, hsplit'⟩ := splitOf_bounds hrange hc.range_le hp
  have ⟨hpos, hle, hlow, hcount, hcount', hbase, hlimit⟩ := hc
  cases bit
  · exact ⟨hsplit, by change splitOf _ _ ≤ _; omega, hlow, hcount, hcount', hbase, hlimit⟩
  · exact ⟨by change 1 ≤ c.range - splitOf _ _; omega, by change c.range - splitOf _ _ ≤ _; omega,
      Nat.mod_lt _ (by decide), hcount, hcount', hbase, hlimit⟩

theorem Coder.InBounds.shift {base limit : Nat} {c c' : Coder} (hc : c.InBounds base limit) (hrange : c.range < 128)
    (h : c.shift base limit = .ok c') : c'.InBounds base limit := by
  have ⟨hpos, hle, hlow, hcount, hcount', hbase, hlimit⟩ := hc
  obtain ⟨mem, -, hrange', ⟨hmore, hlow', hcnt, hpos', -⟩ | ⟨-, hroom, hlow', hcnt, hpos', -⟩⟩ :=
    Coder.shift_ok base limit c c' h
  all_goals constructor <;> omega

/-! ## The loop -/

/-- The loop, packaged once: what holds at its start and is kept by every turn holds where it ends, after `normShift`
turns, or where a turn faults. -/
theorem Coder.renorm_cases {base limit : Nat} {P : Nat → Coder → Prop}
    (turn : ∀ k c c', P k c → c.range < 128 → c.shift base limit = .ok c' → P (k + 1) c') (fuel : Nat) {k : Nat}
    {c : Coder} (hP : P k c) (hpos : 1 ≤ c.range) (hfuel : normShift c.range ≤ fuel) :
    (∃ c', c.renorm base limit fuel = .ok c' ∧ P (k + normShift c.range) c' ∧
      c'.range = c.range * 2 ^ normShift c.range) ∨
    ∃ j d code, c.renorm base limit fuel = .error code ∧ j < normShift c.range ∧ P (k + j) d ∧ d.range < 128 ∧
      d.shift base limit = .error code := by
  induction fuel generalizing k c with
  | zero =>
    have hzero : normShift c.range = 0 := by omega
    exact .inl ⟨c, rfl, by rwa [hzero], by simp [hzero]⟩
  | succ fuel ih =>
    unfold Coder.renorm
    by_cases hrange : c.range < 128
    · have hnorm := normShift_of_lt hpos hrange
      rw [if_pos hrange]
      cases hshift : c.shift base limit with
      | error code => exact .inr ⟨0, c, code, rfl, by omega, hP, hrange, hshift⟩
      | ok next =>
        obtain ⟨-, -, hdouble, -⟩ := Coder.shift_ok base limit c next hshift
        rw [← hdouble] at hnorm
        obtain ⟨c', hc', hP', hrange'⟩ | ⟨j, d, code, hd, hj, hPd, hrest⟩ :=
          ih (turn k c next hP hrange hshift) (by omega) (by omega)
        · refine .inl ⟨c', hc', ?_, ?_⟩
          · rwa [hnorm, Nat.add_comm (normShift _), ← Nat.add_assoc]
          · rw [hrange', hnorm, hdouble, Nat.pow_succ]
            ring
        · exact .inr ⟨j + 1, d, code, hd, by omega, by rwa [Nat.add_comm j, ← Nat.add_assoc], hrest⟩
    · have hzero := normShift_of_le (Nat.not_lt.1 hrange)
      rw [if_neg hrange]
      exact .inl ⟨c, rfl, by rwa [hzero], by simp [hzero]⟩

/-- `c` is a tuple in bounds that `shifts` doublings lead to from `start`, by its count and position. -/
structure Coder.Advanced (base limit : Nat) (c start : Coder) (shifts : Nat) : Prop where
  inBounds : c.InBounds base limit
  start_pos : 1 ≤ start.count
  count_eq : c.count = countAfter start.count shifts
  pos_eq : c.pos = start.pos + bytesOut start.count shifts

theorem Coder.InBounds.advanced {base limit : Nat} {c : Coder} (h : c.InBounds base limit) : c.Advanced base limit c 0 :=
  ⟨h, h.count_pos, by simp [h.count_pos], by simp [h.count_pos]⟩

theorem Coder.Advanced.shift {base limit : Nat} {start c c' : Coder} {k : Nat} (hc : c.Advanced base limit start k)
    (hrange : c.range < 128) (h : c.shift base limit = .ok c') : c'.Advanced base limit start (k + 1) := by
  obtain ⟨hbounds, hstart, hcount, hpos⟩ := hc
  have hcount_pos := hbounds.count_pos
  obtain ⟨-, -, -, ⟨hmore, -, hcnt, hpos', -⟩ | ⟨hlast, -, -, hcnt, hpos', -⟩⟩ := Coder.shift_ok base limit c c' h
  · have hdue : ¬countAfter start.count k = 1 := by omega
    refine ⟨hbounds.shift hrange h, hstart, ?_, ?_⟩
    · rw [countAfter_succ, if_neg hdue, hcnt, hcount]
    · rw [bytesOut_succ, if_neg hdue, hpos', hpos, Nat.add_zero]
  · have hdue : countAfter start.count k = 1 := by omega
    refine ⟨hbounds.shift hrange h, hstart, ?_, ?_⟩
    · rw [countAfter_succ, if_pos hdue, hcnt]
    · rw [bytesOut_succ, if_pos hdue, hpos', hpos, Nat.add_assoc]

end Sys2Proof.Machine
end

section
/-! PROOFS. The renormalisation loop with the carry is the exact coder, from every tuple with the coded value below 1
(40_bool_coder.md R123, R124). -/

namespace Sys2Proof.Machine

/-! ## One turn in exact arithmetic -/

/-- The coded value is below 1, and at most one carry is pending (40_bool_coder.md R124 (c)). -/
structure Coder.BelowOne (base : Nat) (c : Coder) : Prop where
  value_le : c.value base + c.range ≤ 256 ^ (c.pos - base) * 2 ^ (32 - c.count)
  low_le : c.low + c.range ≤ 2 ^ (33 - c.count)

theorem State.carryOk_iff (s : State) :
    s.carryOk = true ↔ s.bacOk = true ∧ s.coder.BelowOne s.obase.toNat := by
  simp only [State.carryOk, Bool.and_eq_true, decide_eq_true_eq, and_assoc]
  exact and_congr_right fun _ => ⟨fun ⟨hvalue, hlow⟩ => ⟨hvalue, hlow⟩, fun ⟨hvalue, hlow⟩ => ⟨hvalue, hlow⟩⟩

/-- A carry can be due only on the turn that completes a byte. -/
theorem Coder.BelowOne.low_lt {base limit : Nat} {c : Coder} (h : c.BelowOne base) (hc : c.InBounds base limit)
    (hmore : c.count ≠ 1) : c.low < 2 ^ 31 := by
  have hpow : 2 ^ (33 - c.count) ≤ 2 ^ 31 := Nat.pow_le_pow_right (by decide) (by have := hc.count_pos; omega)
  have hlow := h.low_le
  have hrange := hc.range_pos
  omega

/-- Twice the weight of `low` when one more bit of it is due. -/
theorem two_pow_sub_pred {n count : Nat} (hcount : 1 ≤ count) (hle : count ≤ n) :
    2 ^ (n - (count - 1)) = 2 * 2 ^ (n - count) := by
  rw [← Nat.pow_succ']
  congr 1
  omega

/-- The stream after the carry of a turn. -/
theorem Coder.obufNumber_carried {base : Nat} {c : Coder} (hlow : c.low < 2 ^ 32) {m : Memory}
    (h : (if c.low.testBit 31 then carryInto base (c.pos - base) c.mem else some c.mem) = some m) :
    obufNumber m base (c.pos - base) = c.written base + c.low / 2 ^ 31 := by
  split at h
  next hbit =>
    have hdiv : c.low / 2 ^ 31 = 1 := by have := (testBit_carry_iff hlow).1 hbit; omega
    rw [obufNumber_carryInto h, hdiv]
    rfl
  next hbit =>
    have hdiv : c.low / 2 ^ 31 = 0 := by have := mt (testBit_carry_iff hlow).2 hbit; omega
    cases h
    rw [hdiv]
    rfl

/-- A turn doubles the exact value; the bytes of the stream change when it completes one, and are then the value above its
24 lowest bits. -/
theorem Coder.BelowOne.shift_value {base limit : Nat} {c c' : Coder} (hbelow : c.BelowOne base)
    (hc : c.InBounds base limit) (h : c.shift base limit = .ok c') :
    c'.value base = 2 * c.value base ∧
      c'.written base = if c.count = 1 then 2 * c.value base / 2 ^ 24 else c.written base := by
  have ⟨_, _, hlow, hcount, hcount', hbase, _⟩ := hc
  obtain ⟨m, hcarry, -, ⟨hmore, hlow', hcnt, hpos', hmem'⟩ | ⟨hlast, -, hlow', hcnt, hpos', hmem'⟩⟩ :=
    Coder.shift_ok base limit c c' h
  all_goals have hcarried := c.obufNumber_carried hlow hcarry
  case inl =>
    have hlt := hbelow.low_lt hc (by omega)
    have hwritten : c'.written base = c.written base := by
      rw [Coder.written, hmem', hpos', hcarried, Nat.div_eq_of_lt hlt, Nat.add_zero]
    refine ⟨?_, by rw [if_neg (by omega), hwritten]⟩
    rw [Coder.value, hwritten, hlow', hcnt, two_pow_sub_pred hcount (by omega), Nat.mod_eq_of_lt (by omega), Coder.value]
    ring
  case inr =>
    obtain ⟨n, hn⟩ : ∃ n, c.pos = base + n := ⟨c.pos - base, by omega⟩
    have hbyte : (BitVec.ofNat 8 (c.low * 2 % 2 ^ 32 / 2 ^ 24)).toNat = c.low * 2 % 2 ^ 32 / 2 ^ 24 :=
      Nat.mod_eq_of_lt (by omega)
    have hwritten : c'.written base = (c.written base + c.low / 2 ^ 31) * 256 + c.low * 2 % 2 ^ 32 / 2 ^ 24 := by
      have hn' : c.pos - base = n := by omega
      rw [hn'] at hcarried
      rw [Coder.written, hmem', hpos', hn, Nat.add_assoc, Nat.add_sub_cancel_left, obufNumber_append, hcarried, hbyte]
    have hvalue : c.value base = c.written base * 2 ^ 31 + c.low := by rw [Coder.value, show c.count = 1 by omega]
    rw [Coder.value, hwritten, hlow', hcnt, hvalue, if_pos (by omega)]
    constructor <;> omega

theorem Coder.BelowOne.shift {base limit : Nat} {c c' : Coder} (hbelow : c.BelowOne base) (hc : c.InBounds base limit)
    (hrange : c.range < 128) (h : c.shift base limit = .ok c') : c'.BelowOne base := by
  obtain ⟨hvalue, -⟩ := hbelow.shift_value hc h
  have hvalue_le := hbelow.value_le
  have hlow_le := hbelow.low_le
  have ⟨_, _, _, hcount, hcount', hbase, _⟩ := hc
  obtain ⟨-, -, hrange', ⟨hmore, hlow', hcnt, hpos', -⟩ | ⟨hlast, -, hlow', hcnt, hpos', -⟩⟩ :=
    Coder.shift_ok base limit c c' h
  case inl =>
    refine ⟨?_, ?_⟩
    · rw [hvalue, hrange', hcnt, hpos', two_pow_sub_pred hcount (by omega), Nat.mul_left_comm]
      omega
    · rw [hlow', hrange', hcnt, two_pow_sub_pred hcount (by omega)]
      omega
  case inr =>
    rw [show c.count = 1 by omega] at hvalue_le
    refine ⟨?_, ?_⟩
    · rw [hvalue, hrange', hcnt, hpos', Nat.sub_add_comm hbase, Nat.pow_succ]
      omega
    · rw [hlow', hrange', hcnt]
      omega

/-- With the coded value below 1 a carry finds a byte that takes it (40_bool_coder.md R124 (c)). -/
theorem Coder.BelowOne.not_stuck {base limit : Nat} {c : Coder} (hbelow : c.BelowOne base) (hc : c.InBounds base limit)
    (hbit : c.low.testBit 31 = true) : carryInto base (c.pos - base) c.mem ≠ none := by
  intro hnone
  have hlow : 2 ^ 31 ≤ c.low := (testBit_carry_iff hc.low_lt).1 hbit
  have hlast : c.count = 1 := by
    by_contra hmore
    exact absurd (hbelow.low_lt hc hmore) (Nat.not_lt.2 hlow)
  have hfull : c.written base + 1 = 256 ^ (c.pos - base) := obufNumber_of_carryInto_none hnone
  have hvalue := hbelow.value_le
  have hrange := hc.range_pos
  rw [Coder.value, ← hfull, hlast] at hvalue
  omega

/-- A turn leaves every byte outside the stream it ends with. -/
theorem Coder.shift_read_other {base limit : Nat} {c c' : Coder} (hbase : base ≤ c.pos) (h : c.shift base limit = .ok c')
    {a : Nat} (ha : a < obufAddr base ∨ obufAddr c'.pos ≤ a) : c'.mem.read a = c.mem.read a := by
  obtain ⟨m, hcarry, -, hturn⟩ := Coder.shift_ok base limit c c' h
  have hcarried (ha : a < obufAddr base ∨ obufAddr c.pos ≤ a) : m.read a = c.mem.read a := by
    split at hcarry
    · exact carryInto_read_other hcarry (by rwa [Nat.add_sub_cancel' hbase])
    · cases hcarry
      rfl
  obtain ⟨-, -, -, hpos', hmem'⟩ | ⟨-, -, -, -, hpos', hmem'⟩ := hturn
  · rw [hmem', hcarried (hpos' ▸ ha)]
  · have hout : (a < obufAddr base ∨ obufAddr c.pos ≤ a) ∧ a ≠ obufAddr c.pos := by
      simp only [hpos', obufAddr] at ha ⊢
      omega
    rw [hmem', Memory.read_write_other _ _ _ _ hout.2, hcarried hout.1]

/-! ## The loop in exact arithmetic -/

/-- The tuple `c` is where the exact coder stands at `e`, in a stream that had the tuple `start` before its doublings: the
same value, range, count and bytes, the position its doublings lead to, and no byte outside the stream changed. -/
structure Coder.Follows (base limit : Nat) (c start : Coder) (e : Exact) : Prop
    extends Coder.Advanced base limit c start e.shifts, Coder.BelowOne base c where
  range_eq : c.range = e.range
  exactCount_eq : c.count = e.count
  value_eq : c.value base = e.value
  written_eq : c.written base = e.written
  read_other : ∀ a, (a < obufAddr base ∨ obufAddr c.pos ≤ a) → c.mem.read a = start.mem.read a

theorem Coder.Follows.shift {base limit : Nat} {c c' start : Coder} {e : Exact} (hc : c.Follows base limit start e)
    (hrange : c.range < 128) (h : c.shift base limit = .ok c') : c'.Follows base limit start (exactDouble e) := by
  have hbounds := hc.inBounds
  obtain ⟨hvalue, hwritten⟩ := hc.toBelowOne.shift_value hbounds h
  obtain ⟨_, -, hdouble, hturn⟩ := Coder.shift_ok base limit c c' h
  have hcount : c'.count = if c.count = 1 then 8 else c.count - 1 := by
    have hcount_pos := hbounds.count_pos
    obtain ⟨hmore, -, hcnt, -⟩ | ⟨hlast, -, -, hcnt, -⟩ := hturn
    · rw [if_neg (by omega), hcnt]
    · rw [if_pos (by omega), hcnt]
  have hpos : c.pos ≤ c'.pos := by
    obtain ⟨-, -, -, hpos, -⟩ | ⟨-, -, -, -, hpos, -⟩ := hturn <;> omega
  refine ⟨hc.toAdvanced.shift hrange h, hc.toBelowOne.shift hbounds hrange h, ?range_eq, ?exactCount_eq, ?value_eq,
    ?written_eq, ?read_other⟩
  case range_eq => rw [hdouble, hc.range_eq]; rfl
  case exactCount_eq => rw [hcount, hc.exactCount_eq]; rfl
  case value_eq => rw [hvalue, hc.value_eq]; rfl
  case written_eq => rw [hwritten, hc.exactCount_eq, hc.value_eq, hc.written_eq]; rfl
  case read_other =>
    intro a ha
    rw [Coder.shift_read_other hbounds.base_le h ha]
    exact hc.read_other a (by simp only [obufAddr] at ha ⊢; omega)

theorem Coder.Follows.narrow {base limit : Nat} {c start : Coder} {e : Exact} (hc : c.Follows base limit start e)
    (hrange : 128 ≤ c.range) {p : Nat} (hp : p ≤ 255) (bit : Bool) :
    (c.narrow bit p).Follows base limit start (exactNarrow e (bit, p)) := by
  have hbounds := hc.inBounds
  have ⟨_, hsplit⟩ := splitOf_bounds hrange hbounds.range_le hp
  have hvalue_le := hc.value_le
  have hlow_le := hc.low_le
  have hpow : 2 ^ (33 - c.count) ≤ 2 ^ 32 := Nat.pow_le_pow_right (by decide) (by have := hbounds.count_pos; omega)
  have hnarrowed := hbounds.narrow hrange hp bit
  have hrange_eq := hc.range_eq
  cases bit with
  | false =>
    have hrange' : splitOf c.range p = splitOf e.range p := by rw [hrange_eq]
    exact ⟨⟨hnarrowed, hc.start_pos, hc.count_eq, hc.pos_eq⟩,
      ⟨by change c.value base + splitOf c.range p ≤ 256 ^ (c.pos - base) * 2 ^ (32 - c.count); omega,
        by change c.low + splitOf c.range p ≤ 2 ^ (33 - c.count); omega⟩,
      hrange', hc.exactCount_eq, hc.value_eq, hc.written_eq, hc.read_other⟩
  | true =>
    have hlow : (c.low + splitOf c.range p) % 2 ^ 32 = c.low + splitOf c.range p := Nat.mod_eq_of_lt (by omega)
    have hvalue : (c.narrow true p).value base = c.value base + splitOf c.range p := by
      change c.written base * 2 ^ (32 - c.count) + (c.low + splitOf c.range p) % 2 ^ 32 = _
      rw [hlow, ← Nat.add_assoc]
      rfl
    refine ⟨⟨hnarrowed, hc.start_pos, hc.count_eq, hc.pos_eq⟩, ⟨?_, ?_⟩, ?_, hc.exactCount_eq, ?_, hc.written_eq,
      hc.read_other⟩
    · rw [hvalue]
      change _ + (c.range - splitOf c.range p) ≤ 256 ^ (c.pos - base) * 2 ^ (32 - c.count)
      omega
    · change (c.low + splitOf c.range p) % 2 ^ 32 + (c.range - splitOf c.range p) ≤ 2 ^ (33 - c.count)
      omega
    · change c.range - splitOf c.range p = e.range - splitOf e.range p
      rw [hrange_eq]
    · rw [hvalue, hc.value_eq, hrange_eq]
      rfl

/-- A turn that does not go on has no room for the byte it completes. -/
theorem Coder.Follows.shift_error {base limit : Nat} {c start : Coder} {e : Exact} (hc : c.Follows base limit start e)
    {code : FaultCode} (h : c.shift base limit = .error code) : code = .obufFull ∧ c.count = 1 ∧ c.pos = limit := by
  have hcount := hc.inBounds.count_pos
  obtain ⟨-, hbit, hnone⟩ | ⟨hcode, hlast, hpos⟩ := Coder.shift_error base limit c code h
  · exact absurd hnone (hc.toBelowOne.not_stuck hc.inBounds hbit)
  · exact ⟨hcode, by omega, hpos⟩

/-- The loop ends where the exact coder does, or has no room for the bytes that one completes. -/
theorem Coder.Follows.renorm {base limit : Nat} {c start : Coder} {e : Exact} (hc : c.Follows base limit start e) :
    (∃ c', c.renorm base limit 7 = .ok c' ∧ c'.Follows base limit start (exactDouble^[normShift e.range] e) ∧
      128 ≤ c'.range) ∨
    (c.renorm base limit 7 = .error .obufFull ∧
      limit < start.pos + bytesOut start.count (e.shifts + normShift e.range)) := by
  have hturn (k : Nat) (c c' : Coder) (hk : c.Follows base limit start (exactDouble^[k] e)) (hrange : c.range < 128)
      (h : c.shift base limit = .ok c') : c'.Follows base limit start (exactDouble^[k + 1] e) := by
    rw [Function.iterate_succ_apply']
    exact hk.shift hrange h
  have hshifts (k : Nat) : (exactDouble^[k] e).shifts = e.shifts + k := by
    induction k with
    | zero => rfl
    | succ k ih => rw [Function.iterate_succ_apply', exactDouble, ih, Nat.add_assoc]
  have hbounds := hc.inBounds
  rw [← hc.range_eq]
  obtain ⟨c', hc', hfollows, hrange⟩ | ⟨j, d, code, hd, hj, hfollows, -, hshift⟩ :=
    Coder.renorm_cases hturn 7 (k := 0) hc hbounds.range_pos (normShift_le _)
  · rw [Nat.zero_add] at hfollows
    exact .inl ⟨c', hc', hfollows, hrange ▸ (le_mul_two_pow_normShift hbounds.range_pos hbounds.range_le).1⟩
  · obtain ⟨rfl, hlast, hfull⟩ := hfollows.shift_error hshift
    have hpos := hfollows.pos_eq
    have hcount := hfollows.count_eq
    have hmono : bytesOut start.count (e.shifts + j + 1) ≤ bytesOut start.count (e.shifts + normShift c.range) :=
      bytesOut_mono _ (by omega)
    rw [Nat.zero_add, hshifts] at hpos hcount
    rw [bytesOut_succ, ← hcount, if_pos hlast] at hmono
    exact .inr ⟨hd, by omega⟩

end Sys2Proof.Machine
end

section
/-! PROOFS. Coding bools is exact arithmetic coding, or ends with a full window (40_bool_coder.md R123, R124). -/

namespace Sys2Proof.Machine

/-! ## One coding step -/

theorem State.active_iff (s : State) : s.active = true ↔ s.bcActive = 1 := beq_iff_eq

theorem State.active_eq_false_iff (s : State) : s.active = false ↔ s.bcActive = 0 := by
  rw [← Bool.not_eq_true, s.active_iff]
  generalize s.bcActive = x
  revert x
  decide

theorem State.bacOk_withCoder {s : State} {c : Coder} (hc : c.InBounds s.obase.toNat s.olimit.toNat)
    (hrange : 128 ≤ c.range) (hlimit : s.olimit.toNat ≤ s.cfg.nobuf) : (s.withCoder c).bacOk = true := by
  have hcoder := s.coder_withCoder hc
  have hrange' : (s.withCoder c).bcRange.toNat = c.range := congrArg Coder.range hcoder
  refine (State.bacOk_iff _).2 ⟨hrange' ▸ hrange, ?_, hlimit⟩
  rwa [hcoder]

/-- `EncodeBool` with its checks passed ends as its loop does. -/
theorem encodeBool_of_renorm_ok {s : State} (hactive : s.bcActive = 1) (hbac : s.bacOk = true) {p : Nat} (hp : 1 ≤ p)
    {bit : Bool} {c : Coder} (h : (s.coder.narrow bit p).renorm s.obase.toNat s.olimit.toNat 7 = .ok c) :
    encodeBool bit p s = .done (s.withCoder c) := by
  unfold encodeBool
  rw [if_neg (by simp [s.active_iff.2 hactive]), if_neg (by omega), if_neg (by simp [hbac]), h]

/-- See `encodeBool_of_renorm_ok`. -/
theorem encodeBool_of_renorm_error {s : State} (hactive : s.bcActive = 1) (hbac : s.bacOk = true) {p : Nat} (hp : 1 ≤ p)
    {bit : Bool} {code : FaultCode}
    (h : (s.coder.narrow bit p).renorm s.obase.toNat s.olimit.toNat 7 = .error code) :
    encodeBool bit p s = .raised code (if code = .obufFull then { s with bcActive := 0 } else s) := by
  unfold encodeBool
  rw [if_neg (by simp [s.active_iff.2 hactive]), if_neg (by omega), if_neg (by simp [hbac]), h]
  cases code <;> rfl

/-- `t` has the tuple and the bytes that coding `bools` from `s` leaves, in the same window. -/
structure State.Coded (s : State) (bools : List (Bool × Nat)) (t : State) : Prop where
  obase_eq : t.obase = s.obase
  olimit_eq : t.olimit = s.olimit
  bacOk : t.bacOk = true
  follows : t.coder.Follows s.obase.toNat s.olimit.toNat s.coder (exactRun bools s)

/-- Nothing is coded yet. -/
theorem State.coded_nil {s : State} (hs : s.carryOk = true) : s.Coded [] s := by
  obtain ⟨hbac, hbelow⟩ := s.carryOk_iff.1 hs
  obtain ⟨-, hbounds, -⟩ := s.bacOk_iff.1 hbac
  exact ⟨rfl, rfl, hbac, ⟨hbounds.advanced, hbelow, rfl, rfl, rfl, rfl, fun _ _ => rfl⟩⟩

theorem State.Coded.carryOk {s t : State} {bools : List (Bool × Nat)} (h : s.Coded bools t) : t.carryOk = true :=
  t.carryOk_iff.2 ⟨h.bacOk, h.obase_eq ▸ h.follows.toBelowOne⟩

theorem State.Coded.hasRoom {s t : State} {bools : List (Bool × Nat)} (h : s.Coded bools t) : hasRoom bools s = true :=
  (hasRoom_iff bools s).2 (h.follows.pos_eq ▸ h.follows.inBounds.le_limit)

theorem State.Coded.codedAs {s t : State} {bools : List (Bool × Nat)} (h : s.Coded bools t) : codedAs bools s t := by
  have hvalue := h.follows.value_eq
  have hwritten := h.follows.written_eq
  refine ⟨?_, h.follows.range_eq, h.follows.pos_eq, h.follows.count_eq, h.carryOk, hwritten, ?_, h.follows.read_other⟩
  · rw [t.codedValue_eq, h.obase_eq, hvalue]
  · rw [← hwritten, ← hvalue]
    rfl

/-- A coding step from where the exact coder stands goes on to where that one does, or finds no room for a byte. -/
theorem encodeBool_coded {s t : State} {before : List (Bool × Nat)} (ht : s.Coded before t) (hactive : t.bcActive = 1)
    {b : Bool × Nat} (hp : 1 ≤ b.2 ∧ b.2 ≤ 255) :
    (∃ c, encodeBool b.1 b.2 t = .done (t.withCoder c) ∧ s.Coded (before ++ [b]) (t.withCoder c)) ∨
    (encodeBool b.1 b.2 t = .raised .obufFull { t with bcActive := 0 } ∧ hasRoom (before ++ [b]) s = false) := by
  obtain ⟨hrange, -, hlimit⟩ := t.bacOk_iff.1 ht.bacOk
  have hnarrow := ht.follows.narrow hrange hp.2 b.1
  have hcount : 1 ≤ (exactRun before s).count := ht.follows.exactCount_eq ▸ ht.follows.inBounds.count_pos
  have hstep : exactRun (before ++ [b]) s = _ := (exactRun_concat before b s).trans (exactStep_eq_iterate _ hcount b)
  rw [← ht.obase_eq, ← ht.olimit_eq] at hnarrow
  obtain ⟨c, hc, hfollows, hrange'⟩ | ⟨hfull, hroom⟩ := hnarrow.renorm
  · have hbounds := hfollows.inBounds
    refine .inl ⟨c, encodeBool_of_renorm_ok hactive ht.bacOk hp.1 hc, ht.obase_eq, ht.olimit_eq, ?_, ?_⟩
    · exact State.bacOk_withCoder hbounds hrange' hlimit
    · rw [t.coder_withCoder hbounds, hstep, ← ht.obase_eq, ← ht.olimit_eq]
      exact hfollows
  · refine .inr ⟨encodeBool_of_renorm_error hactive ht.bacOk hp.1 hfull, ?_⟩
    rw [← Bool.not_eq_true, hasRoom_iff, exactRun_concat, exactStep_shifts, ← ht.olimit_eq]
    exact Nat.not_le.2 hroom

/-! ## Runs of bools -/

/-- The probabilities are those a bool can be coded with (40_bool_coder.md R122). -/
def ValidBools (bools : List (Bool × Nat)) : Prop := ∀ b ∈ bools, 1 ≤ b.2 ∧ b.2 ≤ 255

/-- `u` is the state in which coding `bools` from `t` meets a full window: those ahead of the one without room are coded,
and the coder is inactive. -/
def State.StoppedIn (s : State) (before bools : List (Bool × Nat)) (t u : State) : Prop :=
  ∃ coded b rest c, bools = coded ++ b :: rest ∧ s.Coded (before ++ coded) (t.withCoder c) ∧
    hasRoom (before ++ coded ++ [b]) s = false ∧ u = { t.withCoder c with bcActive := 0 }

/-- A run of bools is coded to its end or stopped by a full window. -/
theorem encodeBools_cases {s t : State} {before bools : List (Bool × Nat)} (ht : s.Coded before t)
    (hactive : t.bcActive = 1) (hbools : ValidBools bools) :
    (∃ c, encodeBools bools t = .done (t.withCoder c) ∧ s.Coded (before ++ bools) (t.withCoder c)) ∨
    ∃ u, encodeBools bools t = .raised .obufFull u ∧ s.StoppedIn before bools t u := by
  induction bools generalizing before t with
  | nil => exact .inl ⟨t.coder, by rw [t.withCoder_coder]; rfl, by rwa [t.withCoder_coder, List.append_nil]⟩
  | cons b rest ih =>
    obtain ⟨hb, hrest⟩ := List.forall_mem_cons.1 hbools
    obtain ⟨bit, p⟩ := b
    rw [encodeBools_cons]
    obtain ⟨c, hc, hcoded⟩ | ⟨hfull, hroom⟩ := encodeBool_coded ht hactive hb
    · rw [hc]
      obtain ⟨c', hc', hcoded'⟩ | ⟨u, hu, coded, b', rest', c', rfl, hcoded', hroom', rfl⟩ := ih hcoded hactive hrest
      · exact .inl ⟨c', hc', by rwa [List.append_cons]⟩
      · refine .inr ⟨_, hu, (bit, p) :: coded, b', rest', c', rfl, ?_, ?_, rfl⟩
        · rwa [List.append_cons]
        · rwa [List.append_cons before]
    · refine .inr ⟨_, by rw [hfull], [], (bit, p), rest, t.coder, rfl, ?_, ?_, ?_⟩
      · rwa [t.withCoder_coder, List.append_nil]
      · rwa [List.append_nil]
      · rw [t.withCoder_coder]

theorem State.StoppedIn.hasRoom_eq_false {s t u : State} {before bools : List (Bool × Nat)}
    (h : s.StoppedIn before bools t u) : hasRoom (before ++ bools) s = false := by
  obtain ⟨coded, b, rest, c, rfl, -, hroom, -⟩ := h
  refine Bool.eq_false_iff.2 fun hall => Bool.eq_false_iff.1 hroom (hasRoom_of_append (ys := rest) ?_)
  simpa using hall

/-- A run of bools with room for its bytes is coded to its end. -/
theorem encodeBools_of_hasRoom {s t : State} {before bools : List (Bool × Nat)} (ht : s.Coded before t)
    (hactive : t.bcActive = 1) (hbools : ValidBools bools) (hroom : hasRoom (before ++ bools) s = true) :
    ∃ c, encodeBools bools t = .done (t.withCoder c) ∧ s.Coded (before ++ bools) (t.withCoder c) := by
  obtain hdone | ⟨u, -, hstopped⟩ := encodeBools_cases ht hactive hbools
  · exact hdone
  · exact absurd hroom (Bool.eq_false_iff.1 hstopped.hasRoom_eq_false)

/-- A run of bools without room for its bytes is stopped by the full window. -/
theorem encodeBools_of_full {s t : State} {before bools : List (Bool × Nat)} (ht : s.Coded before t)
    (hactive : t.bcActive = 1) (hbools : ValidBools bools) (hfull : hasRoom (before ++ bools) s = false) :
    ∃ u, encodeBools bools t = .raised .obufFull u ∧ s.StoppedIn before bools t u := by
  obtain ⟨c, -, hcoded⟩ | hstopped := encodeBools_cases ht hactive hbools
  · exact absurd hcoded.hasRoom (Bool.eq_false_iff.1 hfull)
  · exact hstopped

/-! ## The commands as runs of bools -/

theorem encodeBools_singleton (b : Bool × Nat) (s : State) : encodeBools [b] s = encodeBool b.1 b.2 s := by
  obtain ⟨bit, p⟩ := b
  rw [encodeBools_cons]
  cases encodeBool bit p s <;> rfl

theorem exec_bbool (bit : BitVec 1) (prob : BitVec 8) (s : State) :
    exec (.bbool bit prob) s = finish (.bbool bit prob) (encodeBools [(bit == 1, prob.toNat)] s) := by
  rw [encodeBools_singleton]
  rfl

theorem validBools_bbool (bit : BitVec 1) {prob : BitVec 8} (hprob : prob ≠ 0) :
    ValidBools [(bit == 1, prob.toNat)] := by
  have hpos : prob.toNat ≠ 0 := fun h => hprob (BitVec.eq_of_toNat_eq h)
  have hlt : prob.toNat < 2 ^ 8 := prob.isLt
  intro b hb
  obtain rfl := List.mem_singleton.1 hb
  constructor
  · exact Nat.pos_of_ne_zero hpos
  · exact Nat.le_of_lt_succ hlt

/-- Bit `k` of a literal from its most significant one on (40_bool_coder.md R127). -/
theorem eq_literalBools {n : Nat} {v : BitVec 16} {bits : List (Bool × Nat)} (hlength : bits.length = n)
    (hbits : ∀ k (hk : k < bits.length), bits[k] = (v.getLsbD (n - 1 - k), 128)) : bits = literalBools n v := by
  refine List.ext_getElem (by simp [literalBools, hlength]) fun k hk _ => ?_
  simp [literalBools, hbits k hk]

theorem validBools_literalBools (n : Nat) (v : BitVec 16) : ValidBools (literalBools n v) := by
  intro b hb
  obtain ⟨k, -, rfl⟩ := List.mem_map.1 hb
  exact (by decide : 1 ≤ 128 ∧ 128 ≤ 255)

theorem exec_blit {n : BitVec 5} (hn : n.toNat ≤ 16) (v : BitVec 16) (s : State) :
    exec (.blit n v) s = finish (.blit n v) (encodeBools (literalBools n.toNat v) s) := by
  change execBlit n v s = _
  rw [execBlit, if_neg (by omega)]

theorem validBools_flushBools : ValidBools flushBools := by
  intro b hb
  obtain ⟨-, rfl⟩ := List.mem_replicate.1 hb
  decide

/-- A flush that is coded to its end. -/
theorem exec_bstop_done {s t : State} (hactive : s.bcActive = 1) (h : encodeBools flushBools s = .done t) :
    exec .bstop s = .next t.stopCoder := by
  change execBstop s = _
  rw [execBstop, if_neg (by simp [s.active_iff.2 hactive]), h]
  rfl

/-- A flush that a fault stops. -/
theorem exec_bstop_raised {s t : State} {code : FaultCode} (hactive : s.bcActive = 1)
    (h : encodeBools flushBools s = .raised code t) : exec .bstop s = finish .bstop (.raised code t) := by
  change execBstop s = _
  rw [execBstop, if_neg (by simp [s.active_iff.2 hactive]), h]

theorem exec_bstart (s : State) :
    exec .bstart s = finish .bstart
      (if s.obase.toNat ≤ s.olimit.toNat ∧ s.olimit.toNat ≤ s.cfg.nobuf then .done s.startCoder else .raised .window s) :=
  rfl

/-! ## The flush -/

/-- A zero bool at probability 128 takes half the range; from a range below 255 it is doubled once, and stays below 255
(40_bool_coder.md R128). -/
theorem exactStep_zeroBool {e : Exact} (hrange : 128 ≤ e.range) (hle : e.range ≤ 254) :
    (exactStep e (false, 128)).shifts = e.shifts + 1 ∧ 128 ≤ (exactStep e (false, 128)).range ∧
      (exactStep e (false, 128)).range ≤ 254 := by
  have hsplit : splitOf e.range 128 = 1 + (e.range - 1) / 2 := by unfold splitOf; omega
  have hnorm : normShift (splitOf e.range 128) = 1 := by
    rw [normShift_of_lt (by omega) (by omega), normShift_of_le (by omega)]
  change e.shifts + normShift (splitOf e.range 128) = e.shifts + 1 ∧
    128 ≤ splitOf e.range 128 * 2 ^ normShift (splitOf e.range 128) ∧
      splitOf e.range 128 * 2 ^ normShift (splitOf e.range 128) ≤ 254
  rw [hnorm]
  omega

/-- From a range of 255 a zero bool at probability 128 leaves 128, and no doubling is due. -/
theorem exactStep_zeroBool_of_full {e : Exact} (hrange : e.range = 255) :
    (exactStep e (false, 128)).shifts = e.shifts ∧ (exactStep e (false, 128)).range = 128 := by
  have hsplit : splitOf e.range 128 = 128 := by rw [hrange]; rfl
  have hnorm : normShift (splitOf e.range 128) = 0 := normShift_of_le (by omega)
  change e.shifts + normShift (splitOf e.range 128) = e.shifts ∧
    splitOf e.range 128 * 2 ^ normShift (splitOf e.range 128) = 128
  rw [hnorm]
  omega

theorem foldl_zeroBools_shifts (n : Nat) {e : Exact} (hrange : 128 ≤ e.range) (hle : e.range ≤ 254) :
    ((List.replicate n (false, 128)).foldl exactStep e).shifts = e.shifts + n := by
  induction n generalizing e with
  | zero => rfl
  | succ n ih =>
    obtain ⟨hshifts, hrange', hle'⟩ := exactStep_zeroBool hrange hle
    rw [List.replicate_succ, List.foldl_cons, ih hrange' hle', hshifts]
    omega

/-- A flush makes 31 doublings from a range of 255 and 32 otherwise (40_bool_coder.md R128). -/
theorem exactRun_flushBools_shifts {s : State} (hs : s.bacOk = true) :
    (exactRun flushBools s).shifts = if s.bcRange = 255 then 31 else 32 := by
  obtain ⟨hrange, hbounds, -⟩ := s.bacOk_iff.1 hs
  have hle : s.bcRange.toNat ≤ 255 := hbounds.range_le
  change ((List.replicate 32 (false, 128)).foldl exactStep (exactRun [] s)).shifts = _
  split
  next hfull =>
    obtain ⟨hshifts, hrange'⟩ := exactStep_zeroBool_of_full (e := exactRun [] s) (congrArg BitVec.toNat hfull)
    rw [List.replicate_succ, List.foldl_cons, foldl_zeroBools_shifts 31 (by omega) (by omega), hshifts]
    rfl
  next hfull =>
    have hne : s.bcRange.toNat ≠ 255 := fun h => hfull (BitVec.eq_of_toNat_eq h)
    exact (foldl_zeroBools_shifts 32 hrange (by change s.bcRange.toNat ≤ 254; omega)).trans (Nat.zero_add 32)

/-- The bytes of a flush (40_bool_coder.md R128). -/
theorem bytesOut_flushBools {s : State} (hs : s.bacOk = true) :
    bytesOut s.bcCount.toNat (exactRun flushBools s).shifts =
      1 + ((if s.bcRange = 255 then 31 else 32) - s.bcCount.toNat) / 8 := by
  obtain ⟨-, hbounds, -⟩ := s.bacOk_iff.1 hs
  have hcount : s.bcCount.toNat ≤ 24 := hbounds.count_le
  rw [exactRun_flushBools_shifts hs]
  exact if_neg (by split <;> omega)

end Sys2Proof.Machine

namespace Sys2Proof.Proofs

open Sys2Proof.Machine

/-- Settles O44: one bool with room for its byte is coded exactly. -/
theorem bboolIsExactArithmetic : Obligations.BboolIsExactArithmetic := by
  intro bit prob s hactive hprob hs hroom
  obtain ⟨c, hc, hcoded⟩ := encodeBools_of_hasRoom (State.coded_nil hs) hactive (validBools_bbool bit hprob) hroom
  exact ⟨s.withCoder c, by rw [exec_bbool, hc]; rfl, hcoded.codedAs, rfl⟩

/-- Settles O46: a literal is a run of its bits. -/
theorem blitCodesItsBitsExactly : Obligations.BlitCodesItsBitsExactly := by
  refine ⟨fun v s => rfl, fun n v s bits hn hactive hs hlength hbits hroom => ?_⟩
  obtain rfl := eq_literalBools hlength hbits
  obtain ⟨c, hc, hcoded⟩ :=
    encodeBools_of_hasRoom (State.coded_nil hs) hactive (validBools_literalBools n.toNat v) hroom
  exact ⟨s.withCoder c, by rw [exec_blit hn, hc]; rfl, hcoded.codedAs, rfl⟩

/-- Settles O47: a flush is a run of 32 zero bools, whose doublings are known. -/
theorem bstopFlushesTheStream : Obligations.BstopFlushesTheStream := by
  intro s hactive hs shifts bytes hroom
  obtain ⟨hbac, -⟩ := s.carryOk_iff.1 hs
  have hbytes : bytesOut s.bcCount.toNat (exactRun flushBools s).shifts = bytes := bytesOut_flushBools hbac
  obtain ⟨c, hc, hcoded⟩ := encodeBools_of_hasRoom (State.coded_nil hs) hactive validBools_flushBools
    ((hasRoom_iff _ s).2 (hbytes ▸ hroom))
  have hpos : (s.withCoder c).bcPos.toNat = s.bcPos.toNat + bytes := hbytes ▸ hcoded.follows.pos_eq
  have hbase : s.obase.toNat ≤ (s.withCoder c).bcPos.toNat := hcoded.follows.inBounds.base_le
  refine ⟨(s.withCoder c).stopCoder, exec_bstop_done hactive hc, ?_, hpos, ?_, rfl, rfl⟩
  · exact hcoded.codedAs
  · exact BitVec.toNat_sub_of_le hbase

end Sys2Proof.Proofs
end

section
/-! PROOFS. The checks of a coding step and the invariant it keeps (40_bool_coder.md R121 to R126). -/

namespace Sys2Proof.Machine

/-! ## The checks -/

theorem encodeBool_of_inactive {s : State} (hactive : s.bcActive = 0) (bit : Bool) (p : Nat) :
    encodeBool bit p s = .raised .notActive s := if_pos (s.active_eq_false_iff.2 hactive)

theorem encodeBool_of_prob0 {s : State} (hactive : s.bcActive = 1) (bit : Bool) :
    encodeBool bit 0 s = .raised .prob0 s := by
  unfold encodeBool
  rw [if_neg (by simp [s.active_iff.2 hactive]), if_pos rfl]

theorem encodeBool_of_not_bacOk {s : State} (hactive : s.bcActive = 1) {p : Nat} (hp : 1 ≤ p) (hbac : s.bacOk = false)
    (bit : Bool) : encodeBool bit p s = .raised .coderRange s := by
  unfold encodeBool
  rw [if_neg (by simp [s.active_iff.2 hactive]), if_neg (by omega), if_pos hbac]

/-! ## The invariant -/

/-- Where the loop ends, from every tuple in bounds. -/
theorem Coder.InBounds.renorm_ok {base limit : Nat} {c c' : Coder} (hc : c.InBounds base limit)
    (h : c.renorm base limit 7 = .ok c') :
    c'.Advanced base limit c (normShift c.range) ∧ c'.range = c.range * 2 ^ normShift c.range := by
  have hturn (k : Nat) (d d' : Coder) (hd : d.Advanced base limit c k) (hrange : d.range < 128)
      (hshift : d.shift base limit = .ok d') : d'.Advanced base limit c (k + 1) := hd.shift hrange hshift
  obtain ⟨_, hend, hadvanced, hrange⟩ | ⟨j, d, code, hend, -⟩ :=
    Coder.renorm_cases hturn 7 hc.advanced hc.range_pos (normShift_le _)
  · cases h.symm.trans hend
    rw [Nat.zero_add] at hadvanced
    exact ⟨hadvanced, hrange⟩
  · cases h.symm.trans hend

/-- A coding step that takes no fault passed its checks, and leaves the tuple its loop ends with (40_bool_coder.md R123). -/
theorem encodeBool_done {bit : Bool} {p : Nat} {s t : State} (hp : p ≤ 255) (h : encodeBool bit p s = .done t) :
    s.bcActive = 1 ∧ s.bacOk = true ∧ ∃ c, t = s.withCoder c ∧
      c.Advanced s.obase.toNat s.olimit.toNat (s.coder.narrow bit p) (normShift (s.coder.narrow bit p).range) ∧
      c.range = (s.coder.narrow bit p).range * 2 ^ normShift (s.coder.narrow bit p).range := by
  obtain ⟨-, he⟩ | ⟨-, -, he⟩ | ⟨-, -, -, he⟩ | ⟨hactive, -, hbac, ⟨c, hc, he⟩ | ⟨-, he⟩ | ⟨code, -, -, he⟩⟩ :=
    encodeBool_cases bit p s
  case inr.inr.inr.inl =>
    obtain ⟨hrange, hbounds, -⟩ := s.bacOk_iff.1 hbac
    cases h.symm.trans he
    exact ⟨s.active_iff.1 hactive, hbac, c, rfl, (hbounds.narrow hrange hp bit).renorm_ok hc⟩
  all_goals cases h.symm.trans he

/-- The range of a sub-range, doubled, is that of `BacOk` (40_bool_coder.md R124 (a)). -/
theorem State.narrow_range_bounds {s : State} (hs : s.bacOk = true) {p : Nat} (hp : p ≤ 255) (bit : Bool) :
    128 ≤ (s.coder.narrow bit p).range * 2 ^ normShift (s.coder.narrow bit p).range ∧
      (s.coder.narrow bit p).range * 2 ^ normShift (s.coder.narrow bit p).range ≤ 255 := by
  obtain ⟨hrange, hbounds, -⟩ := s.bacOk_iff.1 hs
  have hnarrow := hbounds.narrow hrange hp bit
  exact le_mul_two_pow_normShift hnarrow.range_pos hnarrow.range_le

theorem encodeBool_keeps_bacOk {bit : Bool} {p : Nat} {s t : State} (hp : p ≤ 255) (h : encodeBool bit p s = .done t) :
    t.bacOk = true ∧ t.bcActive = 1 := by
  obtain ⟨hactive, hbac, c, rfl, hadvanced, hrange⟩ := encodeBool_done hp h
  obtain ⟨-, -, hlimit⟩ := s.bacOk_iff.1 hbac
  exact ⟨State.bacOk_withCoder hadvanced.inBounds (hrange ▸ (State.narrow_range_bounds hbac hp bit).1) hlimit, hactive⟩

/-- Seven doublings complete at most one byte (40_bool_coder.md R124 (b)). -/
theorem bytesOut_le_one {count shifts : Nat} (hcount : 1 ≤ count) (hshifts : shifts ≤ 7) :
    bytesOut count shifts ≤ 1 := by
  unfold bytesOut
  split <;> omega

/-- `BacOk` bound by bound (40_bool_coder.md R121). -/
theorem State.bacOk_iff_bounds (s : State) :
    s.bacOk = true ↔ 128 ≤ s.bcRange.toNat ∧ s.bcRange.toNat ≤ 255 ∧ 1 ≤ s.bcCount.toNat ∧ s.bcCount.toNat ≤ 24 ∧
      s.obase.toNat ≤ s.bcPos.toNat ∧ s.bcPos.toNat ≤ s.olimit.toNat ∧ s.olimit.toNat ≤ s.cfg.nobuf := by
  simp only [State.bacOk, Bool.and_eq_true, decide_eq_true_eq, and_assoc]

/-! ## The start of a partition -/

theorem State.startCoder_carryOk {s : State} (hbase : s.obase.toNat ≤ s.olimit.toNat)
    (hlimit : s.olimit.toNat ≤ s.cfg.nobuf) : s.startCoder.carryOk = true := by
  have hbac : s.startCoder.bacOk = true := by simp [State.bacOk, hbase, hlimit]
  refine (State.carryOk_iff _).2 ⟨hbac, ⟨?_, ?_⟩⟩
  · simp [Coder.value, Coder.written, State.coder, State.startCoder]
  · exact (by decide : 0 + 255 ≤ 2 ^ 9)

theorem exec_bstart_done {s : State} (hbase : s.obase.toNat ≤ s.olimit.toNat) (hlimit : s.olimit.toNat ≤ s.cfg.nobuf) :
    exec .bstart s = .next s.startCoder := by
  rw [exec_bstart, if_pos ⟨hbase, hlimit⟩]
  rfl

/-- With the coded value below 1 a coding step can fail by a full window only (40_bool_coder.md R124 (c)). -/
theorem encodeBool_raised_of_carryOk {bit : Bool} {p : Nat} {s t : State} {code : FaultCode} (hs : s.carryOk = true)
    (hactive : s.bcActive = 1) (hp : 1 ≤ p ∧ p ≤ 255) (h : encodeBool bit p s = .raised code t) : code = .obufFull := by
  obtain ⟨c, hc, -⟩ | ⟨hfull, -⟩ := encodeBool_coded (b := (bit, p)) (State.coded_nil hs) hactive hp
  · cases h.symm.trans hc
  · cases h.symm.trans hfull
    rfl

theorem encodeBool_keeps_carryOk {bit : Bool} {p : Nat} {s t : State} (hs : s.carryOk = true) (hactive : s.bcActive = 1)
    (hp : 1 ≤ p ∧ p ≤ 255) (h : encodeBool bit p s = .done t) : t.carryOk = true ∧ t.bcActive = 1 := by
  obtain ⟨c, hc, hcoded⟩ | ⟨hfull, -⟩ := encodeBool_coded (b := (bit, p)) (State.coded_nil hs) hactive hp
  · cases h.symm.trans hc
    exact ⟨hcoded.carryOk, hactive⟩
  · cases h.symm.trans hfull

/-- So can a run of bools, but for a probability 0. -/
theorem encodeBools_raised_of_carryOk {bools : List (Bool × Nat)} {s t : State} {code : FaultCode} (hs : s.carryOk = true)
    (hactive : s.bcActive = 1) (hbools : ∀ b ∈ bools, b.2 ≤ 255) (h : encodeBools bools s = .raised code t) :
    code = .obufFull ∨ code = .prob0 := by
  induction bools generalizing s with
  | nil => cases h
  | cons b rest ih =>
    obtain ⟨hb, hrest⟩ := List.forall_mem_cons.1 hbools
    obtain ⟨bit, p⟩ := b
    rw [encodeBools_cons] at h
    by_cases hp : p = 0
    · subst hp
      rw [encodeBool_of_prob0 hactive] at h
      cases h
      exact .inr rfl
    · have hvalid : 1 ≤ p ∧ p ≤ 255 := ⟨Nat.pos_of_ne_zero hp, hb⟩
      cases hstep : encodeBool bit p s with
      | done next =>
        obtain ⟨hnext, hactive'⟩ := encodeBool_keeps_carryOk hs hactive hvalid hstep
        rw [hstep] at h
        exact ih hnext hactive' hrest h
      | raised code' u =>
        rw [hstep] at h
        cases h
        exact .inl (encodeBool_raised_of_carryOk hs hactive hvalid hstep)

/-! ## Host accesses to registers -/

theorem State.hostRead_csr (s : State) {addr : Word} (haligned : addr.toNat % 4 = 0) (hlt : addr.toNat < 0x4C) :
    (s.hostRead addr).2 = s.csrWords.getD (addr.toNat / 4) 0 := by
  simp only [State.hostRead, portTarget_csr s.cfg haligned hlt]
  rfl

theorem State.hostWrite_csr (s : State) (d : Word) {addr : Word} (haligned : addr.toNat % 4 = 0)
    (hlt : addr.toNat < 0x4C) : s.hostWrite addr d = s.writeCsr addr.toNat d := by
  simp only [State.hostWrite, portTarget_csr s.cfg haligned hlt]
  rfl

/-- A register narrower than a word gets its bits back from the word it reads as. -/
theorem extractLsb'_setWidth {n : Nat} (x : BitVec n) (h : n ≤ 32) : (x.setWidth 32).extractLsb' 0 n = x := by
  ext i hi
  simp [hi]
  omega

end Sys2Proof.Machine

namespace Sys2Proof.Proofs

open Sys2Proof.Machine

/-- Settles O40. -/
theorem bstartOpensTheWindow : Obligations.BstartOpensTheWindow := by
  refine fun s => ⟨fun ⟨hbase, hlimit⟩ => exec_bstart_done hbase hlimit, fun h => ?_⟩
  rw [exec_bstart, if_neg h]
  rfl

/-- Settles O42: the loop ends with a tuple in bounds and a range of 128 or more. -/
theorem coderInvariantIsPreserved : Obligations.CoderInvariantIsPreserved := by
  have hok (s : State) := s.bacOk_iff_bounds
  refine ⟨fun s => ⟨hok s, s.active_iff⟩, fun s hbase hlimit => ?_, fun bit p s t hp h => ?_⟩
  · obtain ⟨hbac, -⟩ := (State.carryOk_iff _).1 (State.startCoder_carryOk hbase hlimit)
    exact ⟨s.startCoder, exec_bstart_done hbase hlimit, (hok _).1 hbac, rfl⟩
  · exact (encodeBool_keeps_bacOk hp h).imp_left (hok t).1

/-- Settles O43: at most 7 doublings complete at most one byte. -/
theorem splitLeavesBothSubRanges : Obligations.SplitLeavesBothSubRanges := by
  intro bit p s hs hp hp'
  obtain ⟨hrange, hbounds, -⟩ := s.bacOk_iff.1 hs
  obtain ⟨hsplit, hsplit'⟩ := splitOf_bounds hrange hbounds.range_le hp'
  obtain ⟨hlow, hhigh⟩ := State.narrow_range_bounds hs hp' bit
  refine ⟨hsplit, hsplit', ⟨hlow, hhigh, normShift_le _⟩, fun t h => ?_⟩
  obtain ⟨-, -, c, rfl, hadvanced, hrange'⟩ := encodeBool_done hp' h
  have hcoder := s.coder_withCoder hadvanced.inBounds
  refine ⟨(congrArg Coder.range hcoder).trans hrange', ?_⟩
  have hbytes := bytesOut_le_one (hbounds.narrow hrange hp' bit).count_pos (normShift_le (s.coder.narrow bit p).range)
  have hpos : c.pos = s.bcPos.toNat + _ := hadvanced.pos_eq.trans (congrArg (· + _) (s.coder.narrow_pos bit p))
  have hpos' : (s.withCoder c).bcPos = BitVec.ofNat 32 c.pos := rfl
  generalize bytesOut _ _ = n at hbytes hpos
  interval_cases n
  · exact .inl (by rw [hpos', hpos]; simp)
  · exact .inr (by rw [hpos', hpos]; simp [BitVec.ofNat_add])

/-- Settles O45: `BSTART` leaves the coded value 0, and every step keeps it below 1. -/
theorem carryNeverFailsAfterStart : Obligations.CarryNeverFailsAfterStart := by
  refine ⟨fun s hbase hlimit => ?_, fun bit p s hs hactive hp hp' => ?_, fun s t bools code hbase hlimit hbools h => ?_⟩
  · exact ⟨exec_bstart_done hbase hlimit, State.startCoder_carryOk hbase hlimit⟩
  · exact ⟨fun _ _ h => encodeBool_raised_of_carryOk hs hactive ⟨hp, hp'⟩ h,
      fun _ h => encodeBool_keeps_carryOk hs hactive ⟨hp, hp'⟩ h⟩
  · exact encodeBools_raised_of_carryOk (State.startCoder_carryOk hbase hlimit) rfl hbools h

/-- Settles O20: each of the seven registers takes back the bits it reads as. -/
theorem coderContextRestores : Obligations.CoderContextRestores := by
  intro s u
  simp only [List.foldl_cons, List.foldl_nil]
  simp (disch := decide) only [State.hostWrite_csr, State.hostRead_csr]
  simp [State.csrWords, State.writeCsr, extractLsb'_setWidth]

end Sys2Proof.Proofs
end

section
/-! PROOFS. The renormalisation loop turn by turn, from every tuple in bounds and whatever the bytes of the stream
(40_bool_coder.md R123). -/

namespace Sys2Proof.Machine

/-! ## What a turn does -/

theorem carryStuck_iff {base limit : Nat} {c : Coder} (hc : c.InBounds base limit) :
    carryStuck base c ↔ c.low.testBit 31 = true ∧ carryInto base (c.pos - base) c.mem = none := by
  rw [carryStuck, testBit_carry_iff hc.low_lt, carryInto_none]
  refine and_congr_right fun _ => ⟨fun h j hj => h (base + j) (by omega) (by omega), fun h y hy hpos => ?_⟩
  have hbyte := h (y - base) (by omega)
  rwa [Nat.add_sub_cancel' hy] at hbyte

/-- A carry that finds a byte to take it, by the bytes it leaves. -/
theorem carryTaken_of_carryInto {base limit : Nat} {c : Coder} (hc : c.InBounds base limit) (hlow : 2 ^ 31 ≤ c.low)
    {m : Memory} (h : carryInto base (c.pos - base) c.mem = some m) : carryTaken base c m := by
  obtain ⟨k, hk, hne, hff, hinc, hzero, hother⟩ := carryInto_some base _ c.mem m h
  have hbase := hc.base_le
  rw [carryTaken, if_neg (Nat.not_lt.2 hlow)]
  refine ⟨base + k, by omega, by omega, hne, fun y hky hy => ?_, fun a => ?_⟩
  · have hbyte := hff (y - base) (by omega) (by omega)
    rwa [Nat.add_sub_cancel' (by omega)] at hbyte
  · by_cases hsame : a = obufAddr (base + k)
    · rw [if_pos hsame, hsame]
      exact hinc
    · rw [if_neg hsame]
      by_cases hafter : obufAddr (base + k) < a ∧ a < obufAddr c.pos
      · rw [if_pos hafter]
        simp only [obufAddr] at hafter
        have hbyte := hzero (a - obufAddr base) (by simp only [obufAddr]; omega) (by simp only [obufAddr]; omega)
        rw [Memory.obuf, show obufAddr (base + (a - obufAddr base)) = a by simp only [obufAddr]; omega] at hbyte
        exact hbyte
      · rw [if_neg hafter]
        exact hother a (by simp only [obufAddr] at hsame hafter ⊢; omega)

theorem carryTaken_of_carried {base limit : Nat} {c : Coder} (hc : c.InBounds base limit) {m : Memory}
    (h : (if c.low.testBit 31 then carryInto base (c.pos - base) c.mem else some c.mem) = some m) :
    carryTaken base c m := by
  split at h
  next hbit => exact carryTaken_of_carryInto hc ((testBit_carry_iff hc.low_lt).1 hbit) h
  next hbit =>
    cases h
    rw [carryTaken, if_pos (Nat.lt_of_not_le (mt (testBit_carry_iff hc.low_lt).2 hbit))]
    exact fun _ => rfl

theorem Coder.InBounds.turnDone {base limit : Nat} {c c' : Coder} (hc : c.InBounds base limit)
    (h : c.shift base limit = .ok c') : turnDone base limit c c' := by
  have hcount := hc.count_pos
  obtain ⟨m, hcarry, hrange, hturn⟩ := Coder.shift_ok base limit c c' h
  refine ⟨m, carryTaken_of_carried hc hcarry, hrange.trans (Nat.mul_comm _ _), ?_⟩
  obtain ⟨hmore, hlow, hcnt, hpos, hmem⟩ | ⟨hlast, hroom, hlow, hcnt, hpos, hmem⟩ := hturn
  · rw [if_neg (by omega)]
    exact ⟨by omega, hcnt, hpos, fun a => by rw [hmem]⟩
  · have hbyte : BitVec.ofNat 8 (c.low * 2 % 2 ^ 32 / 2 ^ 24) = BitVec.ofNat 8 (2 * c.low / 2 ^ 24) := by
      apply BitVec.eq_of_toNat_eq
      simp only [BitVec.toNat_ofNat]
      omega
    rw [if_pos (by omega)]
    exact ⟨hroom, by omega, hcnt, hpos, fun a => by rw [hmem, Memory.read_write, hbyte]⟩

theorem Coder.InBounds.turnFaults {base limit : Nat} {c : Coder} (hc : c.InBounds base limit) {code : FaultCode}
    (h : c.shift base limit = .error code) : turnFaults base limit c code := by
  by_cases hstuck : carryStuck base c
  · obtain ⟨hbit, hnone⟩ := (carryStuck_iff hc).1 hstuck
    simp only [Coder.shift, hbit, hnone, if_true, Except.error.injEq] at h
    exact .inl ⟨h.symm, hstuck⟩
  · obtain ⟨-, hbit, hnone⟩ | ⟨hcode, hlast, hpos⟩ := Coder.shift_error base limit c code h
    · exact absurd ((carryStuck_iff hc).2 ⟨hbit, hnone⟩) hstuck
    · exact .inr ⟨hcode, hstuck, by have := hc.count_pos; omega, hpos⟩

/-- The loop is a sequence of turns. -/
theorem Coder.InBounds.turns_renorm {base limit : Nat} (fuel : Nat) {c : Coder} (hc : c.InBounds base limit)
    (hfuel : normShift c.range ≤ fuel) : Turns base limit c (c.renorm base limit fuel) := by
  induction fuel generalizing c with
  | zero =>
    refine .enough (Nat.le_of_not_lt fun hlt => ?_)
    have hnorm := normShift_of_lt hc.range_pos hlt
    omega
  | succ fuel ih =>
    unfold Coder.renorm
    by_cases hrange : c.range < 128
    · rw [if_pos hrange]
      cases hshift : c.shift base limit with
      | error code => exact .fault hrange (hc.turnFaults hshift)
      | ok next =>
        obtain ⟨-, -, hdouble, -⟩ := Coder.shift_ok base limit c next hshift
        have hnorm := normShift_of_lt hc.range_pos hrange
        rw [← hdouble] at hnorm
        exact .again hrange (hc.turnDone hshift) (ih (hc.shift hrange hshift) (by omega))
    · rw [if_neg hrange]
      exact .enough (Nat.not_lt.1 hrange)

/-! ## The turns determine the end -/

/-- The same tuple, and the same bytes in the memories. -/
structure Coder.Agree (c d : Coder) : Prop where
  range_eq : c.range = d.range
  low_eq : c.low = d.low
  count_eq : c.count = d.count
  pos_eq : c.pos = d.pos
  read_eq : ∀ a, c.mem.read a = d.mem.read a

theorem Coder.Agree.refl (c : Coder) : c.Agree c := ⟨rfl, rfl, rfl, rfl, fun _ => rfl⟩

theorem Coder.Agree.obuf_eq {c d : Coder} (h : c.Agree d) (k : Nat) : c.mem.obuf k = d.mem.obuf k := h.read_eq _

/-- A carry due and taken leaves bytes that the bytes before determine. -/
theorem carryTaken_unique {base : Nat} {c d : Coder} (hcd : c.Agree d) {m m' : Memory} (h : carryTaken base c m)
    (h' : carryTaken base d m') (a : Nat) : m.read a = m'.read a := by
  unfold carryTaken at h h'
  rw [← hcd.low_eq] at h'
  split at h
  next hlow =>
    rw [if_pos hlow] at h'
    rw [h, h', hcd.read_eq]
  next hlow =>
    rw [if_neg hlow] at h'
    obtain ⟨x, -, hx, hne, hff, hread⟩ := h
    obtain ⟨x', -, hx', hne', hff', hread'⟩ := h'
    obtain rfl : x = x' := by
      obtain hlt | heq | hlt := Nat.lt_trichotomy x x'
      · exact absurd ((hcd.obuf_eq x').symm.trans (hff x' hlt (hcd.pos_eq ▸ hx'))) hne'
      · exact heq
      · exact absurd ((hcd.obuf_eq x).trans (hff' x hlt (hcd.pos_eq ▸ hx))) hne
    rw [hread, hread', hcd.obuf_eq, hcd.pos_eq, hcd.read_eq]

theorem turnDone_unique {base limit : Nat} {c d c' d' : Coder} (hcd : c.Agree d) (h : turnDone base limit c c')
    (h' : turnDone base limit d d') : c'.Agree d' := by
  obtain ⟨m, hcarry, hrange, hturn⟩ := h
  obtain ⟨m', hcarry', hrange', hturn'⟩ := h'
  have hread := carryTaken_unique hcd hcarry hcarry'
  have hrange_eq : c'.range = d'.range := by rw [hrange, hrange', hcd.range_eq]
  rw [← hcd.count_eq, ← hcd.low_eq, ← hcd.pos_eq] at hturn'
  split at hturn
  next hlast =>
    rw [if_pos hlast] at hturn'
    obtain ⟨-, hlow, hcnt, hpos, hmem⟩ := hturn
    obtain ⟨-, hlow', hcnt', hpos', hmem'⟩ := hturn'
    exact ⟨hrange_eq, hlow.trans hlow'.symm, hcnt.trans hcnt'.symm, hpos.trans hpos'.symm, fun a => by
      rw [hmem, hmem', hread]⟩
  next hmore =>
    rw [if_neg hmore] at hturn'
    obtain ⟨hlow, hcnt, hpos, hmem⟩ := hturn
    obtain ⟨hlow', hcnt', hpos', hmem'⟩ := hturn'
    exact ⟨hrange_eq, hlow.trans hlow'.symm, hcnt.trans hcnt'.symm, hpos.trans hpos'.symm, fun a => by
      rw [hmem, hmem', hread]⟩

theorem Coder.Agree.carryStuck {base : Nat} {c d : Coder} (hcd : c.Agree d) (h : carryStuck base c) : carryStuck base d :=
  ⟨hcd.low_eq ▸ h.1, fun y hy hpos => (hcd.obuf_eq y).symm.trans (h.2 y hy (hcd.pos_eq ▸ hpos))⟩

theorem Coder.Agree.symm {c d : Coder} (h : c.Agree d) : d.Agree c :=
  ⟨h.range_eq.symm, h.low_eq.symm, h.count_eq.symm, h.pos_eq.symm, fun a => (h.read_eq a).symm⟩

/-- A carry that is taken is not stuck. -/
theorem not_carryStuck_of_carryTaken {base : Nat} {c : Coder} {m : Memory} (h : carryTaken base c m) :
    ¬carryStuck base c := by
  rintro ⟨hlow, hff⟩
  rw [carryTaken, if_neg (Nat.not_lt.2 hlow)] at h
  obtain ⟨x, hbase, hx, hne, -⟩ := h
  exact hne (hff x hbase hx)

/-- A turn that is done takes no fault. -/
theorem not_turnFaults_of_turnDone {base limit : Nat} {c d c' : Coder} {code : FaultCode} (hcd : c.Agree d)
    (h : turnDone base limit c c') : ¬turnFaults base limit d code := by
  obtain ⟨m, hcarry, -, hturn⟩ := h
  rintro (⟨-, hstuck⟩ | ⟨-, -, hlast, hpos⟩)
  · exact not_carryStuck_of_carryTaken hcarry (hcd.symm.carryStuck hstuck)
  · rw [if_pos (hcd.count_eq.trans hlast)] at hturn
    exact hturn.1 (hcd.pos_eq.trans hpos)

/-- A turn takes one fault. -/
theorem turnFaults_unique {base limit : Nat} {c d : Coder} {code code' : FaultCode} (hcd : c.Agree d)
    (h : turnFaults base limit c code) (h' : turnFaults base limit d code') : code = code' := by
  obtain ⟨rfl, hstuck⟩ | ⟨rfl, hstuck, -⟩ := h
  all_goals obtain ⟨rfl, hstuck'⟩ | ⟨rfl, hstuck', -⟩ := h'
  · rfl
  · exact absurd (hcd.carryStuck hstuck) hstuck'
  · exact absurd (hcd.symm.carryStuck hstuck') hstuck
  · rfl

/-- Two ends of the loop are the same: the same fault, or tuples that agree. -/
def EndsAgree : Except FaultCode Coder → Except FaultCode Coder → Prop
  | .ok c, .ok d => c.Agree d
  | .error code, .error code' => code = code'
  | _, _ => False

theorem turns_unique {base limit : Nat} {c d : Coder} {r r' : Except FaultCode Coder} (hcd : c.Agree d)
    (h : Turns base limit c r) (h' : Turns base limit d r') : EndsAgree r r' := by
  induction h generalizing d with
  | enough hrange =>
    cases h' with
    | enough => exact hcd
    | fault hlt => have := hcd.range_eq; omega
    | again hlt => have := hcd.range_eq; omega
  | fault hlt hf =>
    cases h' with
    | enough hrange => have := hcd.range_eq; omega
    | fault _ hf' => exact turnFaults_unique hcd hf hf'
    | again _ hd' => exact absurd hf (not_turnFaults_of_turnDone hcd.symm hd')
  | again hlt hd _ ih =>
    cases h' with
    | enough hrange => have := hcd.range_eq; omega
    | fault _ hf' => exact absurd hf' (not_turnFaults_of_turnDone hcd hd)
    | again _ hd' hr' => exact ih (turnDone_unique hcd hd hd') hr'

/-- The loop faults for a carry with no byte to take it or a byte with no room. -/
theorem turns_error {base limit : Nat} {c : Coder} {code : FaultCode} (h : Turns base limit c (.error code)) :
    code = .carry ∨ code = .obufFull := by
  generalize hr : Except.error code = r at h
  induction h with
  | enough => cases hr
  | fault _ hf =>
    cases hr
    exact hf.imp And.left And.left
  | again _ _ _ ih => exact ih hr

/-! ## The loop of a coding step -/

theorem State.turns_narrow {s : State} (hs : s.bacOk = true) {p : Nat} (hp : p ≤ 255) (bit : Bool) :
    Turns s.obase.toNat s.olimit.toNat (s.coder.narrow bit p)
      ((s.coder.narrow bit p).renorm s.obase.toNat s.olimit.toNat 7) := by
  obtain ⟨hrange, hbounds, -⟩ := s.bacOk_iff.1 hs
  exact (hbounds.narrow hrange hp bit).turns_renorm 7 (normShift_le _)

/-- Turns that end with a tuple, and the loop. -/
theorem State.renorm_of_turns_ok {s : State} (hs : s.bacOk = true) {p : Nat} (hp : p ≤ 255) {bit : Bool} {c : Coder}
    (h : Turns s.obase.toNat s.olimit.toNat (s.coder.narrow bit p) (.ok c)) :
    ∃ c', (s.coder.narrow bit p).renorm s.obase.toNat s.olimit.toNat 7 = .ok c' ∧ c'.Agree c := by
  have hunique := turns_unique (Coder.Agree.refl _) (State.turns_narrow hs hp bit) h
  cases hr : (s.coder.narrow bit p).renorm s.obase.toNat s.olimit.toNat 7 with
  | ok c' => exact ⟨c', rfl, by rwa [hr] at hunique⟩
  | error code => rw [hr] at hunique; exact hunique.elim

/-- Turns that end with a fault, and the loop. -/
theorem State.renorm_of_turns_error {s : State} (hs : s.bacOk = true) {p : Nat} (hp : p ≤ 255) {bit : Bool}
    {code : FaultCode} (h : Turns s.obase.toNat s.olimit.toNat (s.coder.narrow bit p) (.error code)) :
    (s.coder.narrow bit p).renorm s.obase.toNat s.olimit.toNat 7 = .error code := by
  have hunique := turns_unique (Coder.Agree.refl _) (State.turns_narrow hs hp bit) h
  cases hr : (s.coder.narrow bit p).renorm s.obase.toNat s.olimit.toNat 7 with
  | ok c' => rw [hr] at hunique; exact hunique.elim
  | error code' => rw [hr] at hunique; exact congrArg _ hunique

/-- The three ends of the loop of a coding step. -/
theorem State.renorm_cases {s : State} (hs : s.bacOk = true) {p : Nat} (hp : p ≤ 255) (bit : Bool) :
    (∃ c, (s.coder.narrow bit p).renorm s.obase.toNat s.olimit.toNat 7 = .ok c) ∨
    (s.coder.narrow bit p).renorm s.obase.toNat s.olimit.toNat 7 = .error .carry ∨
    (s.coder.narrow bit p).renorm s.obase.toNat s.olimit.toNat 7 = .error .obufFull := by
  have hturns := State.turns_narrow hs hp bit
  cases hr : (s.coder.narrow bit p).renorm s.obase.toNat s.olimit.toNat 7 with
  | ok c => exact .inl ⟨c, rfl⟩
  | error code =>
    rw [hr] at hturns
    obtain rfl | rfl := turns_error hturns
    · exact .inr (.inl rfl)
    · exact .inr (.inr rfl)

end Sys2Proof.Machine

namespace Sys2Proof.Proofs

open Sys2Proof.Machine

/-- Settles O41: the checks of `EncodeBool` in their order, and its loop as the turns, which determine its end. -/
theorem bboolFaultsInOrderAndPrecisely : Obligations.BboolFaultsInOrderAndPrecisely := by
  refine ⟨fun bit prob s => ?checks, fun bit p s hactive hp hp' hs => ?loop⟩
  case checks =>
    have hexec : exec (.bbool bit prob) s = finish (.bbool bit prob) (encodeBool (bit == 1) prob.toNat s) := rfl
    have hle : prob.toNat ≤ 255 := Nat.le_of_lt_succ prob.isLt
    have hpos (h : prob ≠ 0) : 1 ≤ prob.toNat := Nat.pos_of_ne_zero fun h0 => h (BitVec.eq_of_toNat_eq h0)
    refine ⟨fun hactive => ?_, fun hactive hprob => ?_, fun hactive hprob hbac => ?_, fun hactive hprob hbac => ?_,
      fun t h => ?_, fun code t h => ?_⟩
    · rw [hexec, encodeBool_of_inactive hactive]
      rfl
    · subst hprob
      rw [hexec]
      exact congrArg (finish _) (encodeBool_of_prob0 hactive _)
    · rw [hexec, encodeBool_of_not_bacOk hactive (hpos hprob) hbac]
      rfl
    · rw [hexec]
      obtain ⟨c, hr⟩ | hr | hr := State.renorm_cases hbac hle (bit == 1)
      · exact .inl ⟨c, hr, by rw [encodeBool_of_renorm_ok hactive hbac (hpos hprob) hr]; rfl⟩
      · exact .inr (.inl (by rw [encodeBool_of_renorm_error hactive hbac (hpos hprob) hr]; rfl))
      · exact .inr (.inr (by rw [encodeBool_of_renorm_error hactive hbac (hpos hprob) hr]; rfl))
    · rw [hexec, h]
      rfl
    · rw [hexec, h]
      rfl
  case loop =>
    intro split start ends
    have hstart : s.coder.narrow bit p = start := by
      have hsplit : splitOf s.bcRange.toNat p = split := by
        change 1 + _ / 2 ^ 8 = 1 + _ >>> 8
        rw [Nat.shiftRight_eq_div_pow]
      cases bit <;> simp [Coder.narrow, State.coder, hsplit, start]
    have hturns : ends ((s.coder.narrow bit p).renorm s.obase.toNat s.olimit.toNat 7) :=
      hstart ▸ State.turns_narrow hs hp' bit
    refine ⟨?_, fun c h => ?_, fun h => ?_, fun h => ?_⟩
    · obtain ⟨c, hr⟩ | hr | hr := State.renorm_cases hs hp' bit
      · exact .inl ⟨c, hr ▸ hturns⟩
      · exact .inr (.inl (hr ▸ hturns))
      · exact .inr (.inr (hr ▸ hturns))
    · obtain ⟨c', hr, hagree⟩ := State.renorm_of_turns_ok hs hp' (bit := bit) (by rw [hstart]; exact h)
      obtain ⟨hrange, hbounds, -⟩ := s.bacOk_iff.1 hs
      have hcoder := s.coder_withCoder ((hbounds.narrow hrange hp' bit).renorm_ok hr).1.inBounds
      exact ⟨s.withCoder c', encodeBool_of_renorm_ok hactive hs hp hr,
        (congrArg Coder.range hcoder).trans hagree.range_eq, (congrArg Coder.low hcoder).trans hagree.low_eq,
        (congrArg Coder.count hcoder).trans hagree.count_eq, (congrArg Coder.pos hcoder).trans hagree.pos_eq,
        hagree.read_eq, rfl⟩
    · exact encodeBool_of_renorm_error hactive hs hp (State.renorm_of_turns_error hs hp' (by rw [hstart]; exact h))
    · exact encodeBool_of_renorm_error hactive hs hp (State.renorm_of_turns_error hs hp' (by rw [hstart]; exact h))

end Sys2Proof.Proofs
end

section
/-! PROOFS. Commands stopped by a full window: the bools ahead of the one without room stay coded (60_exceptions.md R214,
R215). -/

namespace Sys2Proof.Machine

/-! ## A run of bools that a full window stops -/

/-- The fault of a run of bools, recorded: the run started where `before` was coded, with `TKRP` at `tkrp`. -/
theorem stoppedFull_of_stoppedIn {s t u : State} {before bools : List (Bool × Nat)} {tkrp : Word} (hfstat : s.fstat = 0)
    (ht : ∃ c, t = State.withCoder { s with tkrp := tkrp } c) (h : s.StoppedIn before bools t u) (i : Instr) :
    ∃ v, finish i (.raised .obufFull u) = .next v ∧ stoppedFull i before bools tkrp s v := by
  obtain ⟨c₀, rfl⟩ := ht
  obtain ⟨coded, b, rest, c, hbools, hcoded, hroom, rfl⟩ := h
  exact ⟨_, finish_raised (by exact hfstat) i .obufFull, coded, b, rest, hbools, hcoded.hasRoom, hroom,
    hcoded.codedAs, rfl⟩

theorem State.withCoder_self (s : State) : ∃ c, s = State.withCoder { s with tkrp := s.tkrp } c :=
  ⟨s.coder, s.withCoder_coder.symm⟩

/-- A command that is one run of bools, without room for them. -/
theorem finish_encodeBools_full {s : State} (hs : s.carryOk = true) (hactive : s.bcActive = 1) (hfstat : s.fstat = 0)
    {bools : List (Bool × Nat)} (hbools : ValidBools bools) (hfull : hasRoom bools s = false) (i : Instr) :
    ∃ t, finish i (encodeBools bools s) = .next t ∧ stoppedFull i [] bools s.tkrp s t := by
  obtain ⟨u, hu, hstopped⟩ := encodeBools_of_full (State.coded_nil hs) hactive hbools hfull
  rw [hu]
  exact stoppedFull_of_stoppedIn hfstat s.withCoder_self hstopped i

/-! ## The bools of a path in a tree -/

theorem exec_twrite {tb pb v : BitVec 8} {s : State} {path : Path}
    (h : checkedPath s.mem tb.toNat pb.toNat v.toNat = .ok path) :
    exec (.twrite tb pb v) s =
      finish (.twrite tb pb v) (encodeBools (pathBools (fun k => s.mem.probm (pb.toNat + k)) path) s) := by
  change execTwrite tb pb v s = _
  rw [execTwrite, h]

/-- A probability read from a memory that is not 0 is one a bool can be coded with. -/
theorem validBools_pathBools {prob : Nat → Nat} {path : Path} (hlt : ∀ k, prob k < 256)
    (h : ∀ node ∈ path, prob (node.1 / 2) ≠ 0) : ValidBools (pathBools prob path) := by
  intro b hb
  obtain ⟨node, hnode, rfl⟩ := List.mem_map.1 hb
  have hle : prob (node.1 / 2) < 256 := hlt _
  exact ⟨Nat.pos_of_ne_zero (h node hnode), Nat.le_of_lt_succ hle⟩

/-- The nodes of a path found lie inside the table (41_tree_coder.md R142). -/
theorem walk_found_inTable {entry : Nat → Int} {size tb v : Nat} (fuel : Nat) {i : Nat} {visited : List Nat} {path : Path}
    (h : walk entry size tb v fuel i visited = .found path) : ∀ node ∈ path, tb + node.1 + 1 ≤ size - 1 := by
  have hchild {down : Nat → List Nat → Search}
      (hdown : ∀ {i visited path}, down i visited = .found path → ∀ node ∈ path, tb + node.1 + 1 ≤ size - 1)
      {i : Nat} (hi : tb + i + 1 ≤ size - 1) {bit : Bool} {e : Int} {visited : List Nat} {path : Path}
      (h : searchChild down v i bit e visited = .found path) : ∀ node ∈ path, tb + node.1 + 1 ≤ size - 1 := by
    unfold searchChild at h
    split at h
    · split at h
      · cases h
        simpa using hi
      · cases h
    · split at h
      · cases h
      · split at h
        next tail htail =>
          cases h
          exact List.forall_mem_cons.2 ⟨hi, hdown htail⟩
        next hother => exact (hother _ h).elim
  induction fuel generalizing i visited path with
  | zero => cases h
  | succ fuel ih =>
    unfold walk at h
    split at h
    · cases h
    · split at h
      · cases h
      next hin =>
        split at h
        · exact hchild ih (by omega) h
        · exact hchild ih (by omega) h

theorem findPath_inTable {entry : Nat → Int} {size tb v start : Nat} {path : Path}
    (h : findPath entry size tb v start = .ok path) : ∀ node ∈ path, tb + node.1 + 1 ≤ size - 1 := by
  obtain ⟨found, hwalk, hfound⟩ | herror := findPath_cases entry size tb v start
  · cases h.symm.trans hfound
    exact walk_found_inTable _ hwalk
  · cases h.symm.trans herror

/-! ## The bools of a token -/

/-- A record is ready when it is valid, its path is found, and no probability on the path is 0 (44_tokenizer.md R197). -/
theorem tokenReady_iff (m : Memory) (k : Token) :
    tokenReady m k = true ↔
      tokenValid k = true ∧ ∃ path, tokenPath k = .ok path ∧ ∀ node ∈ path, tokenProb m k (node.1 / 2) ≠ 0 := by
  unfold tokenReady
  cases tokenPath k with
  | ok path => simp
  | error code => simp

theorem tokenBools_of_path {k : Token} {path : Path} (h : tokenPath k = .ok path) (m : Memory) :
    tokenBools m k = pathBools (tokenProb m k) path ++ extraBools k ++ signBools k := by
  unfold tokenBools
  rw [h]

/-- The fixed probabilities of the extra bits are 1 to 255 (44_tokenizer.md R196). -/
theorem extraProbs_valid :
    ∀ id < 16, ∀ j < tokenBits id, 1 ≤ (extraProbs id).getD j 0 ∧ (extraProbs id).getD j 0 ≤ 255 := by
  decide

theorem validBools_extraBools (k : Token) : ValidBools (extraBools k) := by
  intro b hb
  obtain ⟨j, hj, rfl⟩ := List.mem_map.1 hb
  exact extraProbs_valid _ k.id.isLt j (List.mem_range.1 hj)

theorem validBools_signBools (k : Token) : ValidBools (signBools k) := by
  unfold signBools
  split
  · intro b hb
    obtain rfl := List.mem_singleton.1 hb
    exact (by decide : 1 ≤ 128 ∧ 128 ≤ 255)
  · exact fun _ hb => absurd hb List.not_mem_nil

theorem validBools_tokenBools {m : Memory} {k : Token} (h : tokenReady m k = true) : ValidBools (tokenBools m k) := by
  obtain ⟨-, path, hpath, hprobs⟩ := (tokenReady_iff m k).1 h
  rw [tokenBools_of_path hpath]
  intro b hb
  obtain (hb | hb) | hb := (List.mem_append.1 hb).imp_left List.mem_append.1
  · exact validBools_pathBools (fun n => (m.read _).isLt) hprobs b hb
  · exact validBools_extraBools k b hb
  · exact validBools_signBools k b hb

/-- The probabilities of a token stand in `CPROB`, below `OBUF`. -/
theorem tokenProb_congr {m m' : Memory} (h : ∀ a < 0x20000, m'.read a = m.read a) (k : Token) {path : Path}
    (hpath : tokenPath k = .ok path) : ∀ node ∈ path, tokenProb m' k (node.1 / 2) = tokenProb m k (node.1 / 2) := by
  intro node hnode
  have hin := findPath_inTable hpath node hnode
  have htype := k.type.isLt
  have hband := k.band.isLt
  have hctx := k.ctx.isLt
  refine congrArg BitVec.toNat (h _ ?_)
  unfold cprobAddr
  omega

/-- Whether a record is ready, and its bools, do not depend on the bytes of `OBUF`. -/
theorem tokenReady_congr {m m' : Memory} (h : ∀ a < 0x20000, m'.read a = m.read a) {k : Token}
    (hk : tokenReady m k = true) : tokenReady m' k = true ∧ tokenBools m' k = tokenBools m k := by
  obtain ⟨hvalid, path, hpath, hprobs⟩ := (tokenReady_iff m k).1 hk
  have hprob := tokenProb_congr h k hpath
  constructor
  · exact (tokenReady_iff m' k).2 ⟨hvalid, path, hpath, fun node hnode => hprob node hnode ▸ hprobs node hnode⟩
  · rw [tokenBools_of_path hpath, tokenBools_of_path hpath]
    have hpathBools : pathBools (tokenProb m' k) path = pathBools (tokenProb m k) path :=
      List.map_congr_left fun node hnode => congrArg (node.2, ·) (hprob node hnode)
    rw [hpathBools]

/-- A token record stands in `TOKM`, below `OBUF`. -/
theorem tokm_congr {m m' : Memory} (h : ∀ a < 0x20000, m'.read a = m.read a) {k : Nat} (hk : k < 16384) :
    m'.tokm k = m.tokm k :=
  Memory.readWord_congr m m' _ fun b _ hb => h b (by simp only [tokmAddr] at hb; omega)

/-! ## The tokens of PUTTOK -/

/-- The record of the `j`-th token of a PUTTOK (44_tokenizer.md R197). -/
def State.record (s : State) (j : Nat) : Token := unpackToken (s.mem.tokm (s.tkrp.toNat + j))

/-- The bools of the first `j` tokens of a PUTTOK. -/
def State.tokensBools (s : State) (j : Nat) : List (Bool × Nat) :=
  (List.range j).flatMap fun k => tokenBools s.mem (s.record k)

theorem State.tokensBools_succ (s : State) (j : Nat) :
    s.tokensBools (j + 1) = s.tokensBools j ++ tokenBools s.mem (s.record j) := by
  simp [State.tokensBools, List.range_succ]

/-- How a token ends whose bools end as `r`: `TKRP` is past it when they are all coded. -/
def Run.advanceTkrp : Run → Run
  | .raised code s => .raised code s
  | .done s => .done { s with tkrp := BitVec.ofNat 32 (s.tkrp.toNat + 1) }

/-- A token that is ready is the run of its bools. -/
theorem putToken_of_ready {s : State} (hready : tokenReady s.mem (unpackToken (s.mem.tokm s.tkrp.toNat)) = true) :
    putToken s = (encodeBools (tokenBools s.mem (unpackToken (s.mem.tokm s.tkrp.toNat))) s).advanceTkrp := by
  obtain ⟨hvalid, path, hpath, hprobs⟩ := (tokenReady_iff _ _).1 hready
  have hnone : (path.any fun node =>
      tokenProb s.mem (unpackToken (s.mem.tokm s.tkrp.toNat)) (node.1 / 2) == 0) = false :=
    List.any_eq_false.2 fun node hnode => by simpa using hprobs node hnode
  rw [tokenBools_of_path hpath]
  unfold putToken
  simp only [hpath]
  rw [if_neg (by simp [hvalid]), if_neg (by simp [hnone])]
  cases encodeBools _ s <;> rfl

theorem putTokens_succ_of_done {n : Nat} {s t : State} (h : putToken s = .done t) :
    putTokens (n + 1) s = putTokens n t := by
  rw [putTokens, h]

theorem putTokens_succ_of_raised {n : Nat} {s t : State} {code : FaultCode} (h : putToken s = .raised code t) :
    putTokens (n + 1) s = .raised code t := by
  rw [putTokens, h]

/-- Tokens in turn: the first ones, then the others. -/
theorem putTokens_add {m n : Nat} {s t : State} (h : putTokens m s = .done t) :
    putTokens (m + n) s = putTokens n t := by
  induction m generalizing s with
  | zero =>
    cases h
    rw [Nat.zero_add]
  | succ m ih =>
    rw [Nat.add_right_comm]
    cases hput : putToken s with
    | done s' =>
      rw [putTokens_succ_of_done hput] at h ⊢
      exact ih h
    | raised code s' => cases (putTokens_succ_of_raised hput).symm.trans h

/-- The bytes below `OBUF` are as before a run of bools. -/
theorem State.Coded.read_below {s t : State} {bools : List (Bool × Nat)} (h : s.Coded bools t) :
    ∀ a < 0x20000, t.mem.read a = s.mem.read a :=
  fun a ha => h.follows.read_other a (.inl (by simp only [obufAddr]; omega))

/-- `t` is `s` with the first `j` tokens of a PUTTOK written, and `TKRP` past them. -/
def State.TokensWritten (s : State) (j : Nat) (t : State) : Prop :=
  s.Coded (s.tokensBools j) t ∧ ∃ c, t = State.withCoder { s with tkrp := BitVec.ofNat 32 (s.tkrp.toNat + j) } c

/-- The next record after `j` tokens, and its bools, are those that stood there before the first. -/
theorem State.TokensWritten.next {s t : State} {j : Nat} (h : s.TokensWritten j t) (hj : s.tkrp.toNat + j < 16384)
    (hready : tokenReady s.mem (s.record j) = true) :
    tokenReady t.mem (unpackToken (t.mem.tokm t.tkrp.toNat)) = true ∧
      tokenBools t.mem (unpackToken (t.mem.tokm t.tkrp.toNat)) = tokenBools s.mem (s.record j) := by
  obtain ⟨hcoded, c, rfl⟩ := h
  have hbelow := hcoded.read_below
  have htkrp : (BitVec.ofNat 32 (s.tkrp.toNat + j)).toNat = s.tkrp.toNat + j := Nat.mod_eq_of_lt (by omega)
  have hnext : unpackToken (c.mem.tokm (BitVec.ofNat 32 (s.tkrp.toNat + j)).toNat) = s.record j := by
    rw [htkrp]
    exact congrArg unpackToken (tokm_congr hbelow hj)
  have hcongr := tokenReady_congr hbelow hready
  change tokenReady c.mem (unpackToken (c.mem.tokm (BitVec.ofNat 32 (s.tkrp.toNat + j)).toNat)) = true ∧
    tokenBools c.mem (unpackToken (c.mem.tokm (BitVec.ofNat 32 (s.tkrp.toNat + j)).toNat)) = _
  rw [hnext]
  exact hcongr

/-- Tokens that are ready, with room for their bytes, are written in turn. -/
theorem putTokens_of_hasRoom {s : State} (hs : s.carryOk = true) (hactive : s.bcActive = 1) {j : Nat}
    (hj : s.tkrp.toNat + j ≤ 16384) (hready : ∀ k < j, tokenReady s.mem (s.record k) = true)
    (hroom : hasRoom (s.tokensBools j) s = true) : ∃ t, putTokens j s = .done t ∧ s.TokensWritten j t := by
  induction j with
  | zero =>
    refine ⟨s, rfl, State.coded_nil hs, s.coder, ?_⟩
    simp [State.withCoder, State.coder]
  | succ j ih =>
    rw [State.tokensBools_succ] at hroom
    obtain ⟨t, ht, hwritten⟩ := ih (by omega) (fun k hk => hready k (by omega)) (hasRoom_of_append hroom)
    obtain ⟨hready', hbools⟩ := hwritten.next (by omega) (hready j (Nat.lt_succ_self j))
    have hvalid := validBools_tokenBools (hready j (Nat.lt_succ_self j))
    obtain ⟨hcoded, c₀, rfl⟩ := hwritten
    obtain ⟨c, hc, hcoded'⟩ := encodeBools_of_hasRoom hcoded hactive hvalid hroom
    have hput := putToken_of_ready hready'
    rw [hbools, hc] at hput
    refine ⟨_, (putTokens_add ht).trans (putTokens_succ_of_done hput), ?_, c, ?_⟩
    · rw [State.tokensBools_succ]
      exact ⟨hcoded'.obase_eq, hcoded'.olimit_eq, hcoded'.bacOk, hcoded'.follows⟩
    · have htkrp : (BitVec.ofNat 32 (s.tkrp.toNat + j)).toNat = s.tkrp.toNat + j := Nat.mod_eq_of_lt (by omega)
      simp [State.withCoder, htkrp, Nat.add_assoc]

theorem exec_puttok {count : BitVec 16} {s : State} (hactive : s.bcActive = 1)
    (hcount : s.tkrp.toNat + count.toNat ≤ s.tkwp.toNat) (htkwp : s.tkwp.toNat ≤ s.cfg.ntok) :
    exec (.puttok count) s = finish (.puttok count) (putTokens count.toNat s) := by
  change execPuttok count s = _
  rw [execPuttok, if_neg (not_not.2 ⟨hcount, htkwp⟩), if_neg (by simp [s.active_iff.2 hactive])]

/-- A PUTTOK whose token `j` has no room stops there. -/
theorem putTokens_of_full {s : State} (hs : s.carryOk = true) (hactive : s.bcActive = 1) {count j : Nat} (hj : j < count)
    (hcount : s.tkrp.toNat + count ≤ 16384) (hready : ∀ k ≤ j, tokenReady s.mem (s.record k) = true)
    (hroom : hasRoom (s.tokensBools j) s = true)
    (hfull : hasRoom (s.tokensBools j ++ tokenBools s.mem (s.record j)) s = false) :
    ∃ t u, s.TokensWritten j t ∧ putTokens count s = .raised .obufFull u ∧
      s.StoppedIn (s.tokensBools j) (tokenBools s.mem (s.record j)) t u := by
  obtain ⟨t, ht, hwritten⟩ := putTokens_of_hasRoom hs hactive (by omega) (fun k hk => hready k (by omega)) hroom
  obtain ⟨hready', hbools⟩ := hwritten.next (by omega) (hready j (Nat.le_refl j))
  have hactive' : t.bcActive = 1 := by
    obtain ⟨-, c, rfl⟩ := hwritten
    exact hactive
  obtain ⟨u, hu, hstopped⟩ :=
    encodeBools_of_full hwritten.1 hactive' (validBools_tokenBools (hready j (Nat.le_refl j))) hfull
  refine ⟨t, u, hwritten, ?_, hstopped⟩
  obtain ⟨rest, rfl⟩ : ∃ rest, count = j + (rest + 1) := ⟨count - j - 1, by omega⟩
  have hput := putToken_of_ready hready'
  rw [hbools, hu] at hput
  rw [putTokens_add ht]
  exact putTokens_succ_of_raised hput

end Sys2Proof.Machine

namespace Sys2Proof.Proofs

open Sys2Proof.Machine

/-- Settles O48: each command is a run of bools, PUTTOK one run for each token, and a run without room is stopped. -/
theorem fullWindowStopsTheCoder : Obligations.FullWindowStopsTheCoder := by
  intro s hactive hs hfstat full
  have hrun (i : Instr) {bools : List (Bool × Nat)} (hvalid : ValidBools bools) (hfull : hasRoom bools s = false)
      (hexec : exec i s = finish i (encodeBools bools s)) : full i bools := by
    obtain ⟨t, ht, hstopped⟩ := finish_encodeBools_full hs hactive hfstat hvalid hfull i
    exact ⟨t, hexec.trans ht, hstopped⟩
  refine ⟨fun bit prob hprob hfull => ?bbool, fun n v bits hn hlength hbits hfull => ?blit, fun hfull => ?bstop, ?twrite,
    ?puttok⟩
  case bbool => exact hrun _ (validBools_bbool bit hprob) hfull (exec_bbool bit prob s)
  case blit =>
    obtain rfl := eq_literalBools hlength hbits
    exact hrun _ (validBools_literalBools n.toNat v) hfull (exec_blit hn v s)
  case bstop =>
    obtain ⟨u, hu, hstopped⟩ := encodeBools_of_full (State.coded_nil hs) hactive validBools_flushBools hfull
    obtain ⟨t, ht, hfull'⟩ := stoppedFull_of_stoppedIn hfstat s.withCoder_self hstopped .bstop
    exact ⟨t, (exec_bstop_raised hactive hu).trans ht, hfull'⟩
  case twrite =>
    intro tb pb v path hpath hprobs bools hfull
    have hchecked := (checkedPath_ok s.mem tb.toNat pb.toNat v.toNat path).2 ⟨hpath, (checkProbs_none _ _ _).2 hprobs⟩
    have hvalid : ValidBools bools :=
      validBools_pathBools (prob := fun k => s.mem.probm (pb.toNat + k)) (fun k => (s.mem.read _).isLt)
        fun node hnode => (hprobs node hnode).2
    exact hrun _ hvalid hfull (exec_twrite hchecked)
  case puttok =>
    intro count j hwf hcount htkwp hj record written hready hroom hfull
    obtain ⟨hntok, -⟩ := (config_wf_iff s.cfg).1 hwf
    obtain ⟨t, u, ⟨-, hframe⟩, hput, hstopped⟩ := putTokens_of_full hs hactive hj (by omega) hready hroom hfull
    obtain ⟨v, hv, hfull'⟩ := stoppedFull_of_stoppedIn hfstat hframe hstopped (.puttok count)
    exact ⟨v, by rw [exec_puttok hactive hcount htkwp, hput]; exact hv, hfull'⟩

end Sys2Proof.Proofs
end

section
/-! PROOFS. TWRITE is the run of the bools of its path. -/

namespace Sys2Proof.Proofs

open Sys2Proof.Machine

/-- Settles O51: TWRITE on a path whose probabilities pass is a run of bools. -/
theorem twriteCodesThePath : Obligations.TwriteCodesThePath := by
  intro tb pb v s path _ hpath hprobs hactive hs bools hroom
  have hchecked := (checkedPath_ok s.mem tb.toNat pb.toNat v.toNat path).2 ⟨hpath, (checkProbs_none _ _ _).2 hprobs⟩
  have hvalid : ValidBools bools :=
    validBools_pathBools (prob := fun k => s.mem.probm (pb.toNat + k)) (fun k => (s.mem.read _).isLt)
      fun node hnode => (hprobs node hnode).2
  obtain ⟨c, hc, hcoded⟩ := encodeBools_of_hasRoom (State.coded_nil hs) hactive hvalid hroom
  have hrun : encodeBools (pathBools (fun k => s.mem.probm (pb.toNat + k)) path) s = .done (s.withCoder c) := hc
  exact ⟨s.withCoder c, by rw [exec_twrite hchecked, hrun]; rfl, hcoded.codedAs, rfl⟩

end Sys2Proof.Proofs
end

section
/-! PROOFS. The preorder of a tree: the strings of bits in lexicographic order, the paths they name, and the malformations they
lead to (41_tree_coder.md R140 to R142). -/

namespace Sys2Proof.Machine

open Sys2Proof.Laws (follow_cons follow_append leafAt_of_isTreePath)

/-! ## Preorder -/

/-- What a traversal in preorder has behind it when it leaves `p`: the strings before `p`, and those that extend it. -/
def Past (p q : List Bool) : Prop := q < p ∨ p <+: q

/-- The strings before `p ++ r` are those before `p`, and those that extend `p` by less than `r`. -/
theorem lt_append_iff (p q r : List Bool) : q < p ++ r ↔ q < p ∨ ∃ q' < r, q = p ++ q' := by
  induction p generalizing q with
  | nil => simp
  | cons a p ih =>
    cases q with
    | nil => simp
    | cons b q =>
      simp only [List.cons_append, List.cons_lt_cons_iff, ih, List.cons.injEq]
      tauto

theorem lt_singleton_false (q : List Bool) : q < [false] ↔ q = [] := by
  cases q with
  | nil => simp
  | cons b q => cases b <;> simp [List.cons_lt_cons_iff]

theorem lt_singleton_true (q : List Bool) : q < [true] ↔ q = [] ∨ [false] <+: q := by
  cases q with
  | nil => simp
  | cons b q => cases b <;> simp [List.cons_lt_cons_iff]

theorem lt_concat_false (p q : List Bool) : q < p ++ [false] ↔ q < p ∨ q = p := by
  simp [lt_append_iff, lt_singleton_false]

/-- Before the second child of `p` comes all up to the first child, and what extends that. -/
theorem lt_concat_true (p : List Bool) : (· < p ++ [true]) = Past (p ++ [false]) := by
  funext q
  simp only [Past, lt_concat_false, lt_append_iff p q [true], lt_singleton_true, or_and_right, exists_or, exists_eq_left,
    List.append_nil, ← or_assoc]
  refine propext (or_congr_right ⟨?_, ?_⟩)
  · rintro ⟨-, ⟨r, rfl⟩, rfl⟩
    exact ⟨r, List.append_assoc _ _ _⟩
  · rintro ⟨r, rfl⟩
    exact ⟨[false] ++ r, ⟨r, rfl⟩, List.append_assoc _ _ _⟩

/-- What extends `p` is `p`, or extends one of its children. -/
theorem isPrefix_iff_concat (p q : List Bool) : p <+: q ↔ q = p ∨ p ++ [false] <+: q ∨ p ++ [true] <+: q := by
  constructor
  · rintro ⟨r, rfl⟩
    cases r with
    | nil => simp
    | cons b r => cases b <;> simp
  · rintro (rfl | h | h)
    · exact List.prefix_rfl
    · exact (List.prefix_append p _).trans h
    · exact (List.prefix_append p _).trans h

theorem past_concat_true (p : List Bool) : Past (p ++ [true]) = Past p := by
  funext q
  have hlt : q < p ++ [true] ↔ Past (p ++ [false]) q := iff_of_eq (congrFun (lt_concat_true p) q)
  simp only [Past, hlt, lt_concat_false, isPrefix_iff_concat p q, or_assoc]

theorem lt_append_of_ne_nil (p : List Bool) {r : List Bool} (h : r ≠ []) : p < p ++ r := by
  induction p with
  | nil =>
    cases r with
    | nil => exact absurd rfl h
    | cons b r => simp
  | cons b p ih => exact List.cons_lt_cons_iff.2 (.inr ⟨rfl, ih⟩)

theorem take_lt_of_lt_length {p : List Bool} {k : Nat} (h : k < p.length) : p.take k < p := by
  have hdrop : p.drop k ≠ [] := by simpa using h
  simpa using lt_append_of_ne_nil (p.take k) hdrop

theorem take_lt_take {p : List Bool} {j k : Nat} (hjk : j < k) (hk : k ≤ p.length) : p.take j < p.take k := by
  have h := take_lt_of_lt_length (p := p.take k) (k := j) (by rw [List.length_take]; omega)
  rwa [List.take_take, Nat.min_eq_left (Nat.le_of_lt hjk)] at h

/-! ## Nodes and paths -/

section Paths

variable {entry : Nat → Int} {tb : Nat}

theorem follow_concat {start i : Nat} {p : List Bool} (h : follow entry tb start p = some i) (bit : Bool) :
    follow entry tb start (p ++ [bit]) =
      if 0 < entry (tb + i + bit.toNat) then some (entry (tb + i + bit.toNat)).toNat else none := by
  rw [follow_append, h]
  rfl

theorem follow_eq_none_of_prefix {start : Nat} {p q : List Bool} (h : follow entry tb start p = none) (hpq : p <+: q) :
    follow entry tb start q = none := by
  obtain ⟨r, rfl⟩ := hpq
  rw [follow_append, h, Option.bind_none]

theorem exists_follow_of_prefix {start i : Nat} {p q : List Bool} (hp : follow entry tb start p = some i) (hqp : q <+: p) :
    ∃ j, follow entry tb start q = some j := by
  refine Option.ne_none_iff_exists'.1 fun hnone => ?_
  cases (follow_eq_none_of_prefix hnone hqp).symm.trans hp

/-- Below a leaf there is no other leaf. -/
theorem leafAt_of_leaf_prefix {start v i : Nat} {p q : List Bool} {bit : Bool} (hp : follow entry tb start p = some i)
    (hleaf : entry (tb + i + bit.toNat) ≤ 0) (hpq : p ++ [bit] <+: q) (hq : leafAt entry tb start v q) :
    q = p ++ [bit] ∧ entry (tb + i + bit.toNat) = -(v : Int) := by
  obtain ⟨nodeBits, last, j, rfl, hj, hentry⟩ := hq
  obtain heq | hprefix := List.prefix_concat_iff.1 hpq
  · obtain ⟨rfl, hlast⟩ := List.append_inj' heq rfl
    obtain rfl := List.singleton_inj.1 hlast
    cases hp.symm.trans hj
    exact ⟨rfl, hentry⟩
  · have hnone := follow_eq_none_of_prefix (by rw [follow_concat hp, if_neg (by omega)]) hprefix
    cases hnone.symm.trans hj

/-- The path leads from one node to another, by positive even links. -/
def leadsTo (entry : Nat → Int) (tb : Nat) : Nat → Path → Nat → Prop
  | i, [], j => i = j
  | i, (k, bit) :: rest, j =>
    k = i ∧ 0 < entry (tb + i + bit.toNat) ∧ entry (tb + i + bit.toNat) % 2 = 0 ∧
      leadsTo entry tb (entry (tb + i + bit.toNat)).toNat rest j

/-- A tree path leads to a node and takes a leaf of it. -/
theorem isTreePath_concat {v start i : Nat} {path : Path} {bit : Bool} :
    isTreePath entry tb v start (path ++ [(i, bit)]) ↔
      leadsTo entry tb start path i ∧ entry (tb + i + bit.toNat) = -(v : Int) := by
  induction path generalizing start with
  | nil =>
    simp only [List.nil_append, isTreePath, leadsTo]
    constructor
    · rintro ⟨rfl, h⟩
      exact ⟨rfl, h⟩
    · rintro ⟨rfl, h⟩
      exact ⟨rfl, h⟩
  | cons node rest ih =>
    obtain ⟨k, b⟩ := node
    have hstep : isTreePath entry tb v start ((k, b) :: (rest ++ [(i, bit)])) ↔
        k = start ∧ 0 < entry (tb + start + b.toNat) ∧ entry (tb + start + b.toNat) % 2 = 0 ∧
          isTreePath entry tb v (entry (tb + start + b.toNat)).toNat (rest ++ [(i, bit)]) := by
      cases rest <;> rfl
    rw [List.cons_append, hstep, ih]
    simp only [leadsTo, and_assoc]

theorem leadsTo_concat {start i : Nat} {path : Path} (h : leadsTo entry tb start path i) {bit : Bool}
    (hpos : 0 < entry (tb + i + bit.toNat)) (heven : entry (tb + i + bit.toNat) % 2 = 0) :
    leadsTo entry tb start (path ++ [(i, bit)]) (entry (tb + i + bit.toNat)).toNat := by
  induction path generalizing start with
  | nil =>
    obtain rfl : start = i := h
    exact ⟨rfl, hpos, heven, rfl⟩
  | cons node rest ih =>
    obtain ⟨hk, hpos', heven', hrest⟩ := h
    exact ⟨hk, hpos', heven', ih hrest⟩

theorem follow_of_leadsTo {start i : Nat} {path : Path} (h : leadsTo entry tb start path i) :
    follow entry tb start (path.map Prod.snd) = some i := by
  induction path generalizing start with
  | nil => exact congrArg some h
  | cons node rest ih =>
    obtain ⟨-, hpos, -, hrest⟩ := h
    rw [List.map_cons, follow_cons, if_pos hpos]
    exact ih hrest

/-- The bits determine the nodes. -/
theorem leadsTo_unique {start i j : Nat} {path path' : Path} (h : leadsTo entry tb start path i)
    (h' : leadsTo entry tb start path' j) (hbits : path.map Prod.snd = path'.map Prod.snd) : path = path' := by
  induction path generalizing start path' with
  | nil => exact (List.map_eq_nil_iff.1 hbits.symm).symm
  | cons node rest ih =>
    cases path' with
    | nil => cases hbits
    | cons node' rest' =>
      obtain ⟨k, bit⟩ := node
      obtain ⟨k', bit'⟩ := node'
      obtain ⟨rfl, hrest⟩ := List.cons.inj hbits
      obtain ⟨rfl, -, -, h⟩ := h
      obtain ⟨rfl, -, -, h'⟩ := h'
      rw [ih h h' hrest]

/-- A tree path leads to its last node. -/
theorem exists_concat_of_isTreePath {v start : Nat} {path : Path} (h : isTreePath entry tb v start path) :
    ∃ front i bit, path = front ++ [(i, bit)] ∧ leadsTo entry tb start front i ∧
      entry (tb + i + bit.toNat) = -(v : Int) := by
  obtain rfl | ⟨front, ⟨i, bit⟩, rfl⟩ := List.eq_nil_or_concat path
  · exact h.elim
  · rw [List.concat_eq_append] at h ⊢
    obtain ⟨hfront, hleaf⟩ := isTreePath_concat.1 h
    exact ⟨front, i, bit, rfl, hfront, hleaf⟩

/-- The bits determine a tree path. -/
theorem isTreePath_unique {v w start : Nat} {path path' : Path} (h : isTreePath entry tb v start path)
    (h' : isTreePath entry tb w start path') (hbits : path.map Prod.snd = path'.map Prod.snd) : path = path' := by
  obtain ⟨front, i, bit, rfl, hfront, -⟩ := exists_concat_of_isTreePath h
  obtain ⟨front', i', bit', rfl, hfront', -⟩ := exists_concat_of_isTreePath h'
  rw [List.map_append, List.map_append] at hbits
  obtain ⟨hfrontBits, hlast⟩ := List.append_inj' hbits rfl
  obtain rfl : bit = bit' := List.singleton_inj.1 hlast
  obtain rfl := leadsTo_unique hfront hfront' hfrontBits
  cases (follow_of_leadsTo hfront).symm.trans (follow_of_leadsTo hfront')
  rfl

/-- Each node of a tree path is the one the bits before it lead to. -/
theorem follow_take_of_isTreePath {v start : Nat} {path : Path} (h : isTreePath entry tb v start path) {k : Nat}
    (hk : k < path.length) : follow entry tb start ((path.map Prod.snd).take k) = some path[k].1 := by
  induction path generalizing start k with
  | nil => exact h.elim
  | cons node rest ih =>
    cases k with
    | zero =>
      cases rest with
      | nil => exact congrArg some h.1.symm
      | cons next rest => exact congrArg some h.1.symm
    | succ k =>
      cases rest with
      | nil => exact absurd hk (by simp)
      | cons next rest =>
        obtain ⟨-, hpos, -, hrest⟩ := h
        rw [List.map_cons, List.take_succ_cons, follow_cons, if_pos hpos]
        exact ih hrest (Nat.lt_of_succ_lt_succ hk)

/-- Where bits lead to a leaf, they lead to no node. -/
theorem follow_eq_none_of_leafAt {v start : Nat} {bits : List Bool} (h : leafAt entry tb start v bits) :
    follow entry tb start bits = none := by
  obtain ⟨nodeBits, last, i, rfl, hi, hleaf⟩ := h
  rw [follow_concat hi, if_neg (by omega)]

end Paths

/-! ## Malformations -/

section Malformations

variable {entry : Nat → Int} {size tb start : Nat}

theorem inTable_of_not_malformedAt {p : List Bool} {i : Nat} (h : ¬malformedAt entry size tb start p)
    (hp : follow entry tb start p = some i) : tb + i + 1 ≤ size - 1 :=
  Nat.le_of_not_lt fun hout => h ⟨i, hp, .inl hout⟩

/-- Every node entered but a malformed one has an even number, the start node being even. -/
theorem even_of_not_malformedAt (hstart : start % 2 = 0) {p : List Bool} {i : Nat}
    (h : ¬malformedAt entry size tb start p) (hp : follow entry tb start p = some i) : i % 2 = 0 := by
  cases p with
  | nil =>
    obtain rfl : start = i := Option.some.inj hp
    exact hstart
  | cons bit rest =>
    refine (Nat.mod_two_eq_zero_or_one i).resolve_right fun hodd => h ⟨i, hp, .inr (.inl ⟨?_, hodd⟩)⟩
    exact List.cons_ne_nil bit rest

/-- Two strings lead to the same node only if the later one is a malformation. -/
theorem follow_ne_of_lt {p q : List Bool} {i : Nat} (hpq : p < q) (h : ¬malformedAt entry size tb start q)
    (hq : follow entry tb start q = some i) : follow entry tb start p ≠ some i :=
  fun hp => h ⟨i, hq, .inr (.inr ⟨p, hpq, hp⟩)⟩

/-- A table of at most 256 entries has at most 128 even nodes, so a node below 128 others is a malformation, if none of these
is (41_tree_coder.md R142). -/
theorem malformedAt_of_length (hsize : size ≤ 256) (hstart : start % 2 = 0) {p : List Bool}
    (hbefore : ∀ q < p, ¬malformedAt entry size tb start q) {i : Nat} (hp : follow entry tb start p = some i)
    (hlength : 128 ≤ p.length) : malformedAt entry size tb start p := by
  by_contra hwell
  have hsound (k : Nat) : ¬malformedAt entry size tb start (p.take k) := by
    by_cases hk : k < p.length
    · exact hbefore _ (take_lt_of_lt_length hk)
    · rwa [List.take_of_length_le (Nat.le_of_not_lt hk)]
  choose node hfollow using fun k => exists_follow_of_prefix hp (List.take_prefix k p)
  have heven (k : Nat) : node k % 2 = 0 := even_of_not_malformedAt hstart (hsound k) (hfollow k)
  have hin (k : Nat) : node k / 2 < 128 := by
    have htable := inTable_of_not_malformedAt (hsound k) (hfollow k)
    omega
  have hinj : Function.Injective fun k : Fin (p.length + 1) => (⟨node k / 2, hin k⟩ : Fin 128) := by
    refine Function.Injective.of_lt_imp_ne fun j k hjk heq => ?_
    have hnode : node j = node k := by
      have hhalf : node j / 2 = node k / 2 := congrArg Fin.val heq
      have hj := heven j
      have hk := heven k
      omega
    have hlt := take_lt_take hjk (Nat.le_of_lt_succ k.isLt)
    exact follow_ne_of_lt hlt (hsound k) (hfollow k) (hnode ▸ hfollow j)
  have hcard := Fintype.card_le_of_injective _ hinj
  simp only [Fintype.card_fin] at hcard
  omega

end Malformations

end Sys2Proof.Machine
end

section
/-! PROOFS. The path search and the collection of all leaves as traversals in preorder: what each has scanned at every node, and
what its result says (41_tree_coder.md R142, R151). -/

namespace Sys2Proof.Machine

open Sys2Proof.Laws (leafAt_of_isTreePath)

/-! ## What a traversal has scanned -/

section Scanned

variable {entry : Nat → Int} {size tb start : Nat}

/-- A traversal has scanned the strings of bits in `done`: none is a malformation, and the nodes they lead to are those
visited. -/
structure Scanned (entry : Nat → Int) (size tb start : Nat) (done : List Bool → Prop) (visited : List Nat) : Prop where
  sound : ∀ q, done q → ¬malformedAt entry size tb start q
  mem_iff : ∀ n, n ∈ visited ↔ ∃ q, done q ∧ follow entry tb start q = some n

theorem scanned_nil : Scanned entry size tb start (· < []) [] :=
  ⟨fun q hq => absurd hq (List.not_lt_nil q), fun n => by simp⟩

/-- A node met before is a malformation (41_tree_coder.md R141). -/
theorem Scanned.malformedAt_of_visited {p : List Bool} {visited : List Nat}
    (hs : Scanned entry size tb start (· < p) visited) {i : Nat} (hp : follow entry tb start p = some i)
    (hmet : visited.contains i = true) : malformedAt entry size tb start p :=
  ⟨i, hp, .inr (.inr ((hs.mem_iff i).1 (List.contains_iff_mem.1 hmet)))⟩

/-- A node outside the table is a malformation (41_tree_coder.md R141). -/
theorem malformedAt_of_outside {p : List Bool} {i : Nat} (hp : follow entry tb start p = some i)
    (hout : size - 1 < tb + i + 1) : malformedAt entry size tb start p :=
  ⟨i, hp, .inl hout⟩

/-- A node that passes the checks of a traversal is no malformation. -/
theorem Scanned.not_malformedAt {p : List Bool} {visited : List Nat}
    (hs : Scanned entry size tb start (· < p) visited) {i : Nat} (hp : follow entry tb start p = some i)
    (heven : p ≠ [] → i % 2 = 0) (hnew : ¬visited.contains i = true) (hin : ¬size - 1 < tb + i + 1) :
    ¬malformedAt entry size tb start p := by
  rintro ⟨j, hj, hmal⟩
  cases hj.symm.trans hp
  obtain hout | ⟨hne, hodd⟩ | hmet := hmal
  · exact hin hout
  · exact absurd (heven hne) (by omega)
  · exact hnew (List.contains_iff_mem.2 ((hs.mem_iff i).2 hmet))

/-- Entering a node. -/
theorem Scanned.enter {p : List Bool} {visited : List Nat} (hs : Scanned entry size tb start (· < p) visited) {i : Nat}
    (hp : follow entry tb start p = some i) (hwell : ¬malformedAt entry size tb start p) :
    Scanned entry size tb start (· < p ++ [false]) (i :: visited) := by
  refine ⟨fun q hq => ?_, fun n => ?_⟩
  · obtain hq | rfl := (lt_concat_false p q).1 hq
    · exact hs.sound q hq
    · exact hwell
  · simp only [List.mem_cons, hs.mem_iff, lt_concat_false, or_and_right, exists_or, exists_eq_left, hp,
      Option.some.injEq]
    rw [or_comm, eq_comm]

/-- Passing a leaf, or a string below one. -/
theorem Scanned.pass {p : List Bool} {visited : List Nat} (hs : Scanned entry size tb start (· < p) visited)
    (hp : follow entry tb start p = none) : Scanned entry size tb start (Past p) visited := by
  have hnone {q : List Bool} (hpq : p <+: q) := follow_eq_none_of_prefix hp hpq
  refine ⟨?_, fun n => (hs.mem_iff n).trans ⟨?_, ?_⟩⟩
  · rintro q (hq | hpq) ⟨i, hi, hmal⟩
    · exact hs.sound q hq ⟨i, hi, hmal⟩
    · cases (hnone hpq).symm.trans hi
  · rintro ⟨q, hq, hn⟩
    exact ⟨q, .inl hq, hn⟩
  · rintro ⟨q, hq | hpq, hn⟩
    · exact ⟨q, hq, hn⟩
    · cases (hnone hpq).symm.trans hn

/-- An odd link is a malformation (41_tree_coder.md R142). -/
theorem malformedAt_of_odd {p : List Bool} {i : Nat} (hp : follow entry tb start p = some i) {bit : Bool}
    (hpos : 0 < entry (tb + i + bit.toNat)) (hodd : entry (tb + i + bit.toNat) % 2 = 1) :
    malformedAt entry size tb start (p ++ [bit]) := by
  refine ⟨(entry (tb + i + bit.toNat)).toNat, ?_, .inr (.inl ⟨by simp, by omega⟩)⟩
  rw [follow_concat hp, if_pos hpos]

end Scanned

/-! ## The path search -/

section Search

variable {entry : Nat → Int} {size tb start v : Nat}

/-- A search has scanned the strings in `done` and met no leaf of its value. -/
structure Searched (entry : Nat → Int) (size tb start v : Nat) (done : List Bool → Prop) (visited : List Nat) : Prop
    extends Scanned entry size tb start done visited where
  noLeaf : ∀ q, done q → ¬leafAt entry tb start v q

/-- What the result of a search at the node `p` leads to says, when the search has `done` behind it if it met nothing: the path
found is the first leaf of the value, ahead of any malformation, or a malformation comes ahead of any such leaf, in a table
of at most 256 entries. -/
def Search.Explained (entry : Nat → Int) (size tb start v : Nat) (p : List Bool) (done : List Bool → Prop) : Search → Prop
  | .found path => ∀ q < p ++ path.map Prod.snd, ¬leafAt entry tb start v q ∧ ¬malformedAt entry size tb start q
  | .absent visited => Searched entry size tb start v done visited
  | .malformed => size ≤ 256 → start % 2 = 0 →
    ∃ q, malformedAt entry size tb start q ∧ ∀ q' < q, ¬leafAt entry tb start v q'

theorem Searched.enter {p : List Bool} {visited : List Nat} (hs : Searched entry size tb start v (· < p) visited) {i : Nat}
    (hp : follow entry tb start p = some i) (hwell : ¬malformedAt entry size tb start p) :
    Searched entry size tb start v (· < p ++ [false]) (i :: visited) := by
  refine ⟨hs.toScanned.enter hp hwell, fun q hq hleaf => ?_⟩
  obtain hq | rfl := (lt_concat_false p q).1 hq
  · exact hs.noLeaf q hq hleaf
  · cases (follow_eq_none_of_leafAt hleaf).symm.trans hp

theorem Searched.explained_malformed {p : List Bool} {visited : List Nat}
    (hs : Searched entry size tb start v (· < p) visited) (hmal : malformedAt entry size tb start p) (q : List Bool)
    (done : List Bool → Prop) : Search.Explained entry size tb start v q done .malformed :=
  fun _ _ => ⟨p, hmal, hs.noLeaf⟩

/-- One child of a node is a leaf of the value, another leaf, an odd link, or a node explained by the search below it. -/
theorem searchChild_explained {down : Nat → List Nat → Search} {p : List Bool} {i : Nat} {bit : Bool}
    (hdown : ∀ {j visited}, Searched entry size tb start v (· < p ++ [bit]) visited →
      follow entry tb start (p ++ [bit]) = some j → j % 2 = 0 →
      (down j visited).Explained entry size tb start v (p ++ [bit]) (Past (p ++ [bit])))
    {visited : List Nat} (hs : Searched entry size tb start v (· < p ++ [bit]) visited)
    (hp : follow entry tb start p = some i) :
    (searchChild down v i bit (entry (tb + i + bit.toNat)) visited).Explained entry size tb start v p
      (Past (p ++ [bit])) := by
  unfold searchChild
  split
  next hleaf =>
    split
    next => exact fun q hq => ⟨hs.noLeaf q hq, hs.sound q hq⟩
    next hne =>
      refine ⟨hs.toScanned.pass (by rw [follow_concat hp, if_neg (by omega)]), ?_⟩
      rintro q (hq | hpq) hv
      · exact hs.noLeaf q hq hv
      · obtain ⟨-, hentry⟩ := leafAt_of_leaf_prefix hp hleaf hpq hv
        exact hne (by omega)
  next hlink =>
    have hpos : 0 < entry (tb + i + bit.toNat) := by omega
    split
    next hodd => exact hs.explained_malformed (malformedAt_of_odd hp hpos hodd) _ _
    next heven =>
      have hbelow := hdown hs (by rw [follow_concat hp, if_pos hpos]) (by omega)
      cases hresult : down (entry (tb + i + bit.toNat)).toNat visited with
      | found path =>
        rw [hresult] at hbelow
        simpa [Search.Explained] using hbelow
      | absent visited' =>
        rw [hresult] at hbelow
        exact hbelow
      | malformed =>
        rw [hresult] at hbelow
        exact hbelow

theorem walk_explained (fuel : Nat) {p : List Bool} {i : Nat} {visited : List Nat}
    (hs : Searched entry size tb start v (· < p) visited) (hp : follow entry tb start p = some i)
    (heven : p ≠ [] → i % 2 = 0) (hfuel : 128 ≤ fuel + p.length) :
    (walk entry size tb v fuel i visited).Explained entry size tb start v p (Past p) := by
  induction fuel generalizing p i visited with
  | zero =>
    intro hsize hstart
    exact ⟨p, malformedAt_of_length hsize hstart hs.sound hp (by omega), hs.noLeaf⟩
  | succ fuel ih =>
    have hchild (bit : Bool) {visited : List Nat} (hs : Searched entry size tb start v (· < p ++ [bit]) visited) :=
      searchChild_explained (down := walk entry size tb v fuel)
        (fun hs' hj hj' => ih hs' hj (fun _ => hj') (by rw [List.length_append, List.length_singleton]; omega)) hs hp
    unfold walk
    split
    next hmet => exact hs.explained_malformed (hs.malformedAt_of_visited hp hmet) _ _
    next hnew =>
      split
      next hout => exact hs.explained_malformed (malformedAt_of_outside hp hout) _ _
      next hin =>
        have hleft := hchild false (hs.enter hp (hs.not_malformedAt hp heven hnew hin))
        change Search.Explained _ _ _ _ _ _ _ (searchChild _ v i false (entry (tb + i)) (i :: visited)) at hleft
        cases hresult : searchChild (walk entry size tb v fuel) v i false (entry (tb + i)) (i :: visited) with
        | found path =>
          rw [hresult] at hleft
          exact hleft
        | malformed =>
          rw [hresult] at hleft
          exact hleft
        | absent visited' =>
          rw [hresult] at hleft
          have hright := hchild true (lt_concat_true p ▸ hleft)
          rwa [past_concat_true] at hright

end Search

/-! ## The collection of all leaves -/

section Collect

variable {entry : Nat → Int} {size tb start : Nat}

/-- A collection has scanned the strings in `done`, and `leaves` are the leaves among them, in preorder. -/
structure Collected (entry : Nat → Int) (size tb start : Nat) (done : List Bool → Prop) (visited : List Nat)
    (leaves : List Leaf) : Prop extends Scanned entry size tb start done visited where
  sorted : leaves.Pairwise fun a b => a.2.map Prod.snd < b.2.map Prod.snd
  mem_leaves_iff : ∀ v path, (v, path) ∈ leaves ↔ isTreePath entry tb v start path ∧ done (path.map Prod.snd)

/-- The result of a collection that has `done` behind it when it succeeds; it fails at a malformation only, in a table of at
most 256 entries. -/
def CollectExplained (entry : Nat → Int) (size tb start : Nat) (done : List Bool → Prop) :
    Option (List Nat × List Leaf) → Prop
  | some (visited, leaves) => Collected entry size tb start done visited leaves
  | none => size ≤ 256 → start % 2 = 0 → ∃ q, malformedAt entry size tb start q

theorem Collected.enter {p : List Bool} {visited : List Nat} {leaves : List Leaf}
    (hs : Collected entry size tb start (· < p) visited leaves) {i : Nat} (hp : follow entry tb start p = some i)
    (hwell : ¬malformedAt entry size tb start p) :
    Collected entry size tb start (· < p ++ [false]) (i :: visited) leaves := by
  refine ⟨hs.toScanned.enter hp hwell, hs.sorted, fun v path => ?_⟩
  rw [hs.mem_leaves_iff, lt_concat_false]
  refine and_congr_right fun htree => (or_iff_left fun hnode => ?_).symm
  cases (follow_eq_none_of_leafAt (leafAt_of_isTreePath _ _ _ _ _ htree)).symm.trans (hnode ▸ hp)

/-- A leaf is appended to those that come before it. -/
theorem Collected.leaf {path : Path} {i : Nat} {bit : Bool} {visited : List Nat} {leaves : List Leaf}
    (hs : Collected entry size tb start (· < path.map Prod.snd ++ [bit]) visited leaves)
    (hpath : leadsTo entry tb start path i) (hleaf : entry (tb + i + bit.toNat) ≤ 0) :
    Collected entry size tb start (Past (path.map Prod.snd ++ [bit])) visited
      (leaves ++ [((entry (tb + i + bit.toNat)).natAbs, path ++ [(i, bit)])]) := by
  have hp := follow_of_leadsTo hpath
  have htree : isTreePath entry tb (entry (tb + i + bit.toNat)).natAbs start (path ++ [(i, bit)]) :=
    isTreePath_concat.2 ⟨hpath, by omega⟩
  have hbits : (path ++ [(i, bit)]).map Prod.snd = path.map Prod.snd ++ [bit] := List.map_append
  refine ⟨hs.toScanned.pass (by rw [follow_concat hp, if_neg (by omega)]), ?_, fun v path' => ?_⟩
  · refine List.pairwise_append.2 ⟨hs.sorted, List.pairwise_singleton _ _, fun old hold new hnew => ?_⟩
    obtain rfl := List.mem_singleton.1 hnew
    exact hbits ▸ ((hs.mem_leaves_iff _ _).1 hold).2
  · rw [List.mem_append, List.mem_singleton, hs.mem_leaves_iff, Prod.mk.injEq]
    constructor
    · rintro (⟨htree', hlt⟩ | ⟨rfl, rfl⟩)
      · exact ⟨htree', .inl hlt⟩
      · exact ⟨htree, .inr (hbits ▸ List.prefix_rfl)⟩
    · rintro ⟨htree', hlt | hprefix⟩
      · exact .inl ⟨htree', hlt⟩
      · obtain ⟨heq, hentry⟩ :=
          leafAt_of_leaf_prefix hp hleaf hprefix (leafAt_of_isTreePath _ _ _ _ _ htree')
        exact .inr ⟨by omega, isTreePath_unique htree' htree (heq.trans hbits.symm)⟩

/-- One child of a node is a leaf, an odd link, or a node explained by the collection below it. -/
theorem collectChild_explained {down : Nat → Path → List Nat → List Leaf → Option (List Nat × List Leaf)} {path : Path}
    {i : Nat} {bit : Bool}
    (hdown : ∀ {path' j visited leaves}, path'.map Prod.snd = path.map Prod.snd ++ [bit] →
      Collected entry size tb start (· < path'.map Prod.snd) visited leaves → leadsTo entry tb start path' j → j % 2 = 0 →
      CollectExplained entry size tb start (Past (path'.map Prod.snd)) (down j path' visited leaves))
    {visited : List Nat} {leaves : List Leaf}
    (hs : Collected entry size tb start (· < path.map Prod.snd ++ [bit]) visited leaves)
    (hpath : leadsTo entry tb start path i) :
    CollectExplained entry size tb start (Past (path.map Prod.snd ++ [bit]))
      (collectChild down i bit (entry (tb + i + bit.toNat)) path visited leaves) := by
  unfold collectChild
  split
  next hleaf => exact hs.leaf hpath hleaf
  next hlink =>
    have hpos : 0 < entry (tb + i + bit.toNat) := by omega
    split
    next hodd => exact fun _ _ => ⟨_, malformedAt_of_odd (follow_of_leadsTo hpath) hpos hodd⟩
    next heven =>
      have hbits : (path ++ [(i, bit)]).map Prod.snd = path.map Prod.snd ++ [bit] := List.map_append
      have hbelow := hdown hbits (hbits.symm ▸ hs) (leadsTo_concat hpath hpos (by omega)) (by omega)
      rwa [hbits] at hbelow

theorem collect_explained (fuel : Nat) {path : Path} {i : Nat} {visited : List Nat} {leaves : List Leaf}
    (hs : Collected entry size tb start (· < path.map Prod.snd) visited leaves) (hpath : leadsTo entry tb start path i)
    (heven : path.map Prod.snd ≠ [] → i % 2 = 0) (hfuel : 128 ≤ fuel + (path.map Prod.snd).length) :
    CollectExplained entry size tb start (Past (path.map Prod.snd)) (collect entry size tb fuel i path visited leaves) := by
  have hp := follow_of_leadsTo hpath
  induction fuel generalizing path i visited leaves with
  | zero => exact fun hsize hstart => ⟨_, malformedAt_of_length hsize hstart hs.sound hp (by omega)⟩
  | succ fuel ih =>
    have hchild (bit : Bool) {visited : List Nat} {leaves : List Leaf}
        (hs : Collected entry size tb start (· < path.map Prod.snd ++ [bit]) visited leaves) :=
      collectChild_explained (down := collect entry size tb fuel)
        (fun hbits hs' hpath' hj => ih hs' hpath' (fun _ => hj)
          (by rw [hbits, List.length_append, List.length_singleton]; omega) (follow_of_leadsTo hpath')) hs hpath
    unfold collect
    split
    next hmet => exact fun _ _ => ⟨_, hs.malformedAt_of_visited hp hmet⟩
    next hnew =>
      split
      next hout => exact fun _ _ => ⟨_, malformedAt_of_outside hp hout⟩
      next hin =>
        have hleft := hchild false (hs.enter hp (hs.not_malformedAt hp heven hnew hin))
        change CollectExplained _ _ _ _ _ (collectChild _ i false (entry (tb + i)) path (i :: visited) leaves) at hleft
        cases hresult : collectChild (collect entry size tb fuel) i false (entry (tb + i)) path (i :: visited) leaves with
        | none =>
          rw [hresult] at hleft
          exact hleft
        | some r =>
          obtain ⟨visited', leaves'⟩ := r
          rw [hresult] at hleft
          have hright := hchild true (lt_concat_true _ ▸ hleft)
          rwa [past_concat_true] at hright

end Collect

end Sys2Proof.Machine
end

section
/-! PROOFS. The path search finds the first leaf of the value, and the collection lists every leaf (41_tree_coder.md R142,
R151). -/

namespace Sys2Proof.Machine

open Sys2Proof.Laws (leafAt_of_isTreePath)

section Found

variable {entry : Nat → Int} {size tb v start : Nat}

/-- A child that ends a search with a path is the leaf sought, or a link to a node that does. -/
theorem searchChild_found {down : Nat → List Nat → Search} {i : Nat} {bit : Bool} {e : Int} {visited : List Nat}
    {path : Path} (h : searchChild down v i bit e visited = .found path) :
    (e = -(v : Int) ∧ path = [(i, bit)]) ∨
      (0 < e ∧ e % 2 = 0 ∧ ∃ tail, down e.toNat visited = .found tail ∧ path = (i, bit) :: tail) := by
  unfold searchChild at h
  split at h
  next hleaf =>
    split at h
    next hv =>
      cases h
      exact .inl ⟨by omega, rfl⟩
    next => cases h
  next hlink =>
    split at h
    next => cases h
    next heven =>
      split at h
      next tail htail =>
        cases h
        exact .inr ⟨by omega, by omega, tail, htail, rfl⟩
      next hother => exact (hother path h).elim

/-- A path found at a node is found at one of its children. -/
theorem walk_found {fuel i : Nat} {visited : List Nat} {path : Path}
    (h : walk entry size tb v (fuel + 1) i visited = .found path) :
    ∃ bit visited', searchChild (walk entry size tb v fuel) v i bit (entry (tb + i + bit.toNat)) visited' = .found path := by
  unfold walk at h
  split at h
  · cases h
  · split at h
    · cases h
    · split at h
      · exact ⟨true, _, h⟩
      · exact ⟨false, _, h⟩

theorem isTreePath_cons {i : Nat} {bit : Bool} {tail : Path} (hpos : 0 < entry (tb + i + bit.toNat))
    (heven : entry (tb + i + bit.toNat) % 2 = 0)
    (h : isTreePath entry tb v (entry (tb + i + bit.toNat)).toNat tail) :
    isTreePath entry tb v i ((i, bit) :: tail) := by
  cases tail with
  | nil => exact h.elim
  | cons next rest => exact ⟨rfl, hpos, heven, h⟩

/-- A path found follows the tree, and is no longer than the depth of the search. -/
theorem isTreePath_of_walk_found (fuel : Nat) {i : Nat} {visited : List Nat} {path : Path}
    (h : walk entry size tb v fuel i visited = .found path) : isTreePath entry tb v i path ∧ path.length ≤ fuel := by
  induction fuel generalizing i visited path with
  | zero => cases h
  | succ fuel ih =>
    obtain ⟨bit, visited', hchild⟩ := walk_found h
    obtain ⟨hleaf, rfl⟩ | ⟨hpos, heven, tail, htail, rfl⟩ := searchChild_found hchild
    · exact ⟨⟨rfl, hleaf⟩, Nat.le_add_left 1 fuel⟩
    · obtain ⟨htree, hlength⟩ := ih htail
      exact ⟨isTreePath_cons hpos heven htree, Nat.succ_le_succ hlength⟩

theorem past_nil (q : List Bool) : Past [] q := .inr List.nil_prefix

/-- The search from the start node is explained. -/
theorem walk_start_explained (entry : Nat → Int) (size tb v start : Nat) :
    (walk entry size tb v walkFuel start []).Explained entry size tb start v [] (Past []) :=
  walk_explained walkFuel ⟨scanned_nil, fun q hq => absurd hq (List.not_lt_nil q)⟩ rfl (absurd rfl) (Nat.le_refl _)

/-- A path found is a tree path, and neither a leaf of the value nor a malformation comes ahead of it. -/
theorem findPath_ok {path : Path} (h : findPath entry size tb v start = .ok path) :
    isTreePath entry tb v start path ∧ path.length ≤ 128 ∧
      ∀ q < path.map Prod.snd, ¬leafAt entry tb start v q ∧ ¬malformedAt entry size tb start q := by
  obtain ⟨found, hwalk, hfound⟩ | herror := findPath_cases entry size tb v start
  · cases h.symm.trans hfound
    obtain ⟨htree, hlength⟩ := isTreePath_of_walk_found walkFuel hwalk
    have hfirst := walk_start_explained entry size tb v start
    rw [hwalk] at hfirst
    exact ⟨htree, hlength, hfirst⟩
  · cases h.symm.trans herror

theorem findPath_error {code : FaultCode} (h : findPath entry size tb v start = .error code) : code = .tree := by
  obtain ⟨found, -, hfound⟩ | herror := findPath_cases entry size tb v start
  · cases h.symm.trans hfound
  · exact Except.error.inj (h.symm.trans herror)

/-- No node stands twice on a tree path ahead of which there is no malformation. -/
theorem nodup_of_sound {path : Path} (htree : isTreePath entry tb v start path)
    (hsound : ∀ q < path.map Prod.snd, ¬malformedAt entry size tb start q) : (path.map Prod.fst).Nodup := by
  refine List.pairwise_iff_getElem.2 fun j k hj hk hjk heq => ?_
  rw [List.getElem_map, List.getElem_map] at heq
  rw [List.length_map] at hj hk
  have hlength : (path.map Prod.snd).length = path.length := List.length_map _
  refine follow_ne_of_lt (take_lt_take hjk (by omega)) (hsound _ (take_lt_of_lt_length (by omega)))
    (follow_take_of_isTreePath htree hk) ?_
  rw [follow_take_of_isTreePath htree hj, heq]

/-- A tree path is found when neither a leaf of the value nor a malformation comes ahead of it. -/
theorem findPath_of_first (hsize : size ≤ 256) (hstart : start % 2 = 0) {path : Path}
    (htree : isTreePath entry tb v start path)
    (hfirst : ∀ q < path.map Prod.snd, ¬leafAt entry tb start v q ∧ ¬malformedAt entry size tb start q) :
    findPath entry size tb v start = .ok path := by
  have hleaf := leafAt_of_isTreePath _ _ _ _ _ htree
  have hresult := walk_start_explained entry size tb v start
  unfold findPath
  cases hwalk : walk entry size tb v walkFuel start [] with
  | found found =>
    rw [hwalk] at hresult
    obtain ⟨hfound, -⟩ := isTreePath_of_walk_found walkFuel hwalk
    have hbits : found.map Prod.snd = path.map Prod.snd := by
      obtain hlt | heq | hlt := lt_trichotomy (found.map Prod.snd) (path.map Prod.snd)
      · exact absurd (leafAt_of_isTreePath _ _ _ _ _ hfound) (hfirst _ hlt).1
      · exact heq
      · exact absurd hleaf (hresult _ hlt).1
    exact congrArg Except.ok (isTreePath_unique hfound htree hbits)
  | absent visited =>
    rw [hwalk] at hresult
    exact absurd hleaf (hresult.noLeaf _ (past_nil _))
  | malformed =>
    rw [hwalk] at hresult
    obtain ⟨q, hmal, hbefore⟩ := hresult hsize hstart
    obtain hlt | rfl | hlt := lt_trichotomy q (path.map Prod.snd)
    · exact absurd hmal (hfirst _ hlt).2
    · obtain ⟨i, hi, -⟩ := hmal
      cases (follow_eq_none_of_leafAt hleaf).symm.trans hi
    · exact absurd hleaf (hbefore _ hlt)

/-- The leaves of a tree, or a malformation of it. -/
theorem treeLeaves_cases (m : Memory) (tb : Nat) :
    (treeLeaves m tb = none ∧ ∃ q, malformedAt m.treem 256 tb 0 q) ∨
    ∃ leaves, treeLeaves m tb = some leaves ∧ (∀ q, ¬malformedAt m.treem 256 tb 0 q) ∧
      leaves.Pairwise (fun a b => a.2.map Prod.snd < b.2.map Prod.snd) ∧
      ∀ v path, (v, path) ∈ leaves ↔ isTreePath m.treem tb v 0 path := by
  have hresult := collect_explained (entry := m.treem) (size := 256) (tb := tb) (start := 0) walkFuel (path := [])
    (leaves := []) ⟨scanned_nil, .nil, fun v path => by simp⟩ rfl (absurd rfl) (Nat.le_refl _)
  unfold treeLeaves
  cases hcollect : collect m.treem 256 tb walkFuel 0 [] [] [] with
  | none =>
    rw [hcollect] at hresult
    exact .inl ⟨rfl, hresult (Nat.le_refl _) rfl⟩
  | some r =>
    obtain ⟨visited, leaves⟩ := r
    rw [hcollect] at hresult
    refine .inr ⟨leaves, rfl, fun q => hresult.sound q (past_nil q), hresult.sorted, fun v path => ?_⟩
    exact (hresult.mem_leaves_iff v path).trans (and_iff_left (past_nil _))

end Found

end Sys2Proof.Machine

namespace Sys2Proof.Proofs

open Sys2Proof.Machine

/-- Settles O50: what the search and the collection return is explained by the preorder of the strings of bits. -/
theorem foundPathsFollowTheTree : Obligations.FoundPathsFollowTheTree := by
  refine ⟨fun entry size tb v start path h => ?_, fun entry size tb v start hsize hstart => ⟨fun path => ?_, ?_⟩,
    fun m tb => ?_⟩
  · obtain ⟨htree, hlength, hfirst⟩ := findPath_ok h
    refine ⟨htree, ?_, hlength, nodup_of_sound htree fun q hq => (hfirst q hq).2, findPath_inTable h⟩
    exact List.length_pos_iff.2 fun hnil => (hnil ▸ htree : isTreePath entry tb v start [])
  · constructor
    · intro h
      obtain ⟨htree, -, hfirst⟩ := findPath_ok h
      exact ⟨htree, hfirst⟩
    · rintro ⟨htree, hfirst⟩
      exact findPath_of_first hsize hstart htree hfirst
  · exact fun code => findPath_error
  · obtain ⟨hnone, hmal⟩ | ⟨leaves, hsome, hwell, hsorted, hmem⟩ := treeLeaves_cases m tb
    · exact ⟨iff_of_true hnone hmal, fun leaves h => nomatch hnone.symm.trans h⟩
    · refine ⟨iff_of_false (hsome ▸ Option.some_ne_none leaves) fun ⟨q, hq⟩ => hwell q hq, fun leaves' h => ?_⟩
      cases hsome.symm.trans h
      exact ⟨hsorted, hmem⟩

end Sys2Proof.Proofs
end

section
/-! PROOFS. The cost of a path: the cost table and the sum of the costs of the bits (41_tree_coder.md R147, R148). -/

namespace Sys2Proof.Machine

/-! ## The cost table -/

theorem costEntry_of_standard {c : Config} (h : c.costtab = .standard) (p : Nat) :
    costEntry c p = costStandard.getD p 0 := by
  unfold costEntry
  rw [h]

/-- An entry of a substituted table, inside it. -/
theorem costEntry_of_custom {c : Config} {entries : List (BitVec 16)} (h : c.costtab = .custom entries) {p : Nat}
    (hp : p < entries.length) : costEntry c p = entries[p].toNat := by
  unfold costEntry
  rw [h]
  simp only [List.getElem?_eq_getElem hp, Option.map_some, Option.getD_some]

theorem costStandard_length : costStandard.length = 256 := by decide +kernel

/-- The default table is the function of its entries. -/
theorem map_costEntry_of_standard {c : Config} (h : c.costtab = .standard) :
    (List.range 256).map (costEntry c) = costStandard := by
  refine List.ext_getElem (by simp [costStandard_length]) fun p _ hp => ?_
  rw [List.getElem_map, List.getElem_range, costEntry_of_standard h, List.getElem_eq_getD 0]

theorem costStandard_le : ∀ cost ∈ costStandard, cost ≤ 2048 := by decide +kernel

/-- Each default entry is `256 * log2(256 / p)` rounded to the nearest (41_tree_coder.md R147): doubled and with the
logarithm taken away, `2 * cost - 4096 + 512 * log2 p` is within 1 of 0. -/
theorem costStandard_rounded : ∀ p < 256, 1 ≤ p →
    2 ^ (2 * costStandard.getD p 0) * p ^ 512 ≤ 2 * 2 ^ 4096 ∧
      2 ^ 4096 < 2 * (2 ^ (2 * costStandard.getD p 0) * p ^ 512) := by
  decide +kernel

/-- An entry of either table is at most 16 bits wide. -/
theorem costEntry_lt (c : Config) (p : Nat) : costEntry c p < 2 ^ 16 := by
  have hdefault : costStandard.getD p 0 < 2 ^ 16 := by
    rw [List.getD_eq_getElem?_getD]
    cases h : costStandard[p]? with
    | none => decide
    | some cost => exact Nat.lt_of_le_of_lt (costStandard_le cost (List.mem_of_getElem? h)) (by decide)
  unfold costEntry
  split
  · exact hdefault
  next entries _ =>
    cases entries[p]? with
    | none => exact hdefault
    | some entry => exact entry.isLt

/-! ## The cost of a path -/

theorem bitCost_eq (c : Config) (bit : Bool) (p : Nat) : bitCost c bit p = costEntry c (if bit then 256 - p else p) := by
  cases bit <;> rfl

theorem pathCost_eq (c : Config) (m : Memory) (pb : Nat) (path : Path) :
    pathCost c m pb path = (path.map fun node =>
      costEntry c (if node.2 then 256 - m.probm (pb + node.1 / 2) else m.probm (pb + node.1 / 2))).sum := by
  simp only [pathCost, bitCost_eq]

/-- The cost of a path of at most 128 nodes fits a word (41_tree_coder.md R148). -/
theorem pathCost_lt (c : Config) (m : Memory) (pb : Nat) {path : Path} (h : path.length ≤ 128) :
    pathCost c m pb path < 2 ^ 32 := by
  have hsum : pathCost c m pb path ≤ path.length * 2 ^ 16 := by
    rw [pathCost_eq, ← List.length_map (as := path), ← smul_eq_mul]
    refine List.sum_le_card_nsmul _ _ fun cost hcost => ?_
    obtain ⟨node, -, rfl⟩ := List.mem_map.1 hcost
    exact (costEntry_lt c _).le
  omega

theorem exec_tcost {tb pb v : BitVec 8} {s : State} {path : Path}
    (h : checkedPath s.mem tb.toNat pb.toNat v.toNat = .ok path) :
    exec (.tcost tb pb v) s = .next { s with cost := BitVec.ofNat 32 (pathCost s.cfg s.mem pb.toNat path) } := by
  change execTcost tb pb v s = _
  rw [execTcost, h]
  rfl

end Sys2Proof.Machine

namespace Sys2Proof.Proofs

open Sys2Proof.Machine

/-- Settles O52: the sum fits `COST`, and each table is read entry by entry. -/
theorem tcostSumsThePath : Obligations.TcostSumsThePath := by
  refine ⟨fun tb pb v s path hpath hprobs => ?_, fun c entries p hp h => costEntry_of_custom h hp, fun c h => ⟨?_, ?_⟩⟩
  · have hchecked := (checkedPath_ok s.mem tb.toNat pb.toNat v.toNat path).2 ⟨hpath, (checkProbs_none _ _ _).2 hprobs⟩
    obtain ⟨-, hlength, -⟩ := findPath_ok hpath
    have hcost := pathCost_lt s.cfg s.mem pb.toNat hlength
    exact ⟨_, exec_tcost hchecked, rfl, (Nat.mod_eq_of_lt hcost).trans (pathCost_eq _ _ _ _)⟩
  · exact map_costEntry_of_standard h
  · intro p hp hp'
    rw [costEntry_of_standard h]
    exact costStandard_rounded p (Nat.lt_succ_of_le hp') hp

end Sys2Proof.Proofs
end

section
/-! PROOFS. The checks of the tree commands, in the order in which they are made (41_tree_coder.md R145, R150, R151). -/

namespace Sys2Proof.Machine

/-! ## The checks along a path -/

/-- The probability of a node stands inside `PROBM` and is not 0 (41_tree_coder.md R145). -/
def ProbOk (m : Memory) (pb : Nat) (node : Nat × Bool) : Prop :=
  pb + node.1 / 2 ≤ 255 ∧ m.probm (pb + node.1 / 2) ≠ 0

theorem checkProbs_code {m : Memory} {pb : Nat} {path : Path} {code : FaultCode} (h : checkProbs m pb path = some code) :
    code = .tree ∨ code = .prob0 := by
  induction path with
  | nil => cases h
  | cons node rest ih =>
    unfold checkProbs at h
    split at h
    · exact .inl (Option.some.inj h).symm
    · split at h
      · exact .inr (Option.some.inj h).symm
      · exact ih h

/-- The first node whose probability fails decides, by its index before its probability (60_exceptions.md R217). -/
theorem checkProbs_of_first_bad {m : Memory} {pb : Nat} {before : Path} {node : Nat × Bool} (after : Path)
    (hbefore : ∀ n ∈ before, ProbOk m pb n) (hbad : ¬ProbOk m pb node) :
    checkProbs m pb (before ++ node :: after) = some (if 255 < pb + node.1 / 2 then .tree else .prob0) := by
  induction before with
  | nil =>
    rw [List.nil_append, checkProbs]
    by_cases hindex : 255 < pb + node.1 / 2
    · rw [if_pos hindex, if_pos hindex]
    · have hzero : m.probm (pb + node.1 / 2) = 0 := not_not.1 fun hne => hbad ⟨Nat.le_of_not_lt hindex, hne⟩
      rw [if_neg hindex, if_pos hzero, if_neg hindex]
  | cons first rest ih =>
    obtain ⟨⟨hindex, hprob⟩, hrest⟩ := List.forall_mem_cons.1 hbefore
    rw [List.cons_append, checkProbs, if_neg (Nat.not_lt.2 hindex), if_neg hprob, ih hrest]

/-! ## The path of a symbol -/

theorem checkedPath_of_findPath_error {m : Memory} {tb pb v : Nat} {code : FaultCode}
    (h : findPath m.treem 256 tb v 0 = .error code) : checkedPath m tb pb v = .error .tree := by
  rw [checkedPath, h, findPath_error h]

theorem checkedPath_of_checkProbs {m : Memory} {tb pb v : Nat} {path : Path} {code : FaultCode}
    (hpath : findPath m.treem 256 tb v 0 = .ok path) (h : checkProbs m pb path = some code) :
    checkedPath m tb pb v = .error code := by
  rw [checkedPath, hpath]
  simp only [h]

theorem checkedPath_code {m : Memory} {tb pb v : Nat} {code : FaultCode} (h : checkedPath m tb pb v = .error code) :
    code = .tree ∨ code = .prob0 := by
  cases hpath : findPath m.treem 256 tb v 0 with
  | error code' =>
    cases h.symm.trans (checkedPath_of_findPath_error hpath)
    exact .inl rfl
  | ok path =>
    cases hprobs : checkProbs m pb path with
    | none => cases h.symm.trans ((checkedPath_ok m tb pb v path).2 ⟨hpath, hprobs⟩)
    | some code' =>
      cases h.symm.trans (checkedPath_of_checkProbs hpath hprobs)
      exact checkProbs_code hprobs

/-- An entry of `TREEM` is at least -128 (10_state.md R34). -/
theorem Memory.le_treem (m : Memory) (k : Nat) : -128 ≤ m.treem k := BitVec.le_toInt (m.read (treemAddr k))

/-- A leaf value is at most 128 (41_tree_coder.md R140). -/
theorem value_le_of_isTreePath {m : Memory} {tb v start : Nat} {path : Path}
    (h : isTreePath m.treem tb v start path) : v ≤ 128 := by
  obtain ⟨-, i, bit, -, -, hleaf⟩ := exists_concat_of_isTreePath h
  have hentry := m.le_treem (tb + i + bit.toNat)
  omega

theorem checkedPath_of_lt {m : Memory} {tb v : Nat} (pb : Nat) (hv : 128 < v) :
    checkedPath m tb pb v = .error .tree := by
  cases hpath : findPath m.treem 256 tb v 0 with
  | error code => exact checkedPath_of_findPath_error hpath
  | ok path =>
    obtain ⟨htree, -⟩ := findPath_ok hpath
    exact absurd (value_le_of_isTreePath htree) (Nat.not_le.2 hv)

/-! ## The leaves of a tree -/

theorem checkedLeaves_of_treeLeaves_none {m : Memory} {tb : Nat} (pb : Nat) (h : treeLeaves m tb = none) :
    checkedLeaves m tb pb = .error .tree := by
  rw [checkedLeaves, h]

theorem checkedLeaves_of_findSome {m : Memory} {tb pb : Nat} {leaves : List Leaf} {code : FaultCode}
    (hleaves : treeLeaves m tb = some leaves)
    (h : (leaves.findSome? fun leaf => checkProbs m pb leaf.2) = some code) :
    checkedLeaves m tb pb = .error code := by
  rw [checkedLeaves, hleaves]
  simp only [h]

theorem checkedLeaves_ok {m : Memory} {tb pb : Nat} {leaves : List Leaf} :
    checkedLeaves m tb pb = .ok leaves ↔
      treeLeaves m tb = some leaves ∧ ∀ leaf ∈ leaves, checkProbs m pb leaf.2 = none := by
  cases hleaves : treeLeaves m tb with
  | none => simp [checkedLeaves_of_treeLeaves_none pb hleaves]
  | some found =>
    rw [← List.findSome?_eq_none_iff, Option.some.injEq]
    cases hprobs : found.findSome? fun leaf => checkProbs m pb leaf.2 with
    | some code =>
      rw [checkedLeaves_of_findSome hleaves hprobs]
      refine iff_of_false (by simp) ?_
      rintro ⟨rfl, hnone⟩
      cases hprobs.symm.trans hnone
    | none =>
      rw [checkedLeaves, hleaves]
      simp only [hprobs, Except.ok.injEq]
      exact (and_iff_left_of_imp (by rintro rfl; exact hprobs)).symm

theorem checkedLeaves_code {m : Memory} {tb pb : Nat} {code : FaultCode} (h : checkedLeaves m tb pb = .error code) :
    code = .tree ∨ code = .prob0 := by
  cases hleaves : treeLeaves m tb with
  | none =>
    cases h.symm.trans (checkedLeaves_of_treeLeaves_none pb hleaves)
    exact .inl rfl
  | some leaves =>
    cases hprobs : leaves.findSome? fun leaf => checkProbs m pb leaf.2 with
    | none =>
      cases h.symm.trans (checkedLeaves_ok.2 ⟨hleaves, List.findSome?_eq_none_iff.1 hprobs⟩)
    | some code' =>
      cases h.symm.trans (checkedLeaves_of_findSome hleaves hprobs)
      obtain ⟨leaf, -, hcode⟩ := List.exists_of_findSome?_eq_some hprobs
      exact checkProbs_code hcode

/-! ## The commands that a check stops -/

theorem exec_twrite_error {tb pb v : BitVec 8} {s : State} {code : FaultCode}
    (h : checkedPath s.mem tb.toNat pb.toNat v.toNat = .error code) :
    exec (.twrite tb pb v) s = .next (s.raise code (encode (.twrite tb pb v))) := by
  change execTwrite tb pb v s = _
  rw [execTwrite, h]
  rfl

theorem exec_tcost_error {tb pb v : BitVec 8} {s : State} {code : FaultCode}
    (h : checkedPath s.mem tb.toNat pb.toNat v.toNat = .error code) :
    exec (.tcost tb pb v) s = .next (s.raise code (encode (.tcost tb pb v))) := by
  change execTcost tb pb v s = _
  rw [execTcost, h]
  rfl

theorem exec_tcosts_error {tb pb : BitVec 8} {s : State} {code : FaultCode}
    (h : checkedLeaves s.mem tb.toNat pb.toNat = .error code) :
    exec (.tcosts tb pb) s = .next (s.raise code (encode (.tcosts tb pb))) := by
  change execTcosts tb pb s = _
  rw [execTcosts, h]
  rfl

end Sys2Proof.Machine

namespace Sys2Proof.Proofs

open Sys2Proof.Machine

/-- Settles O54: the search, then the first probability that fails, decides the code, and the run stops there. -/
theorem treeFaultsArePrecise : Obligations.TreeFaultsArePrecise := by
  intro tb pb v s good
  refine ⟨fun code h => ⟨checkedPath_code h, exec_twrite_error h, exec_tcost_error h⟩,
    fun code h => ⟨checkedLeaves_code h, exec_tcosts_error h⟩, checkedPath_of_lt pb.toNat,
    fun code => checkedPath_of_findPath_error, fun path hpath => ⟨fun hgood => ?_, ?_⟩,
    checkedLeaves_of_treeLeaves_none pb.toNat, fun leaves hleaves => ⟨fun hgood => ?_, ?_⟩⟩
  · exact (checkedPath_ok _ _ _ _ path).2 ⟨hpath, (checkProbs_none _ _ _).2 hgood⟩
  · rintro before node after rfl hbefore hbad
    exact checkedPath_of_checkProbs hpath (checkProbs_of_first_bad after hbefore hbad)
  · exact checkedLeaves_ok.2 ⟨hleaves, fun leaf hleaf => (checkProbs_none _ _ _).2 (hgood leaf hleaf)⟩
  · rintro earlier value before node after later rfl hearlier hbefore hbad
    have hpass : (earlier.findSome? fun leaf => checkProbs s.mem pb.toNat leaf.2) = none :=
      List.findSome?_eq_none_iff.2 fun leaf hleaf => (checkProbs_none _ _ _).2 (hearlier leaf hleaf)
    refine checkedLeaves_of_findSome hleaves ?_
    rw [List.findSome?_append, hpass, Option.none_or, List.findSome?_cons,
      checkProbs_of_first_bad after hbefore hbad]

end Sys2Proof.Proofs
end

section
/-! PROOFS. TCOSTS writes the cost of the first leaf of each value, the one TCOST finds (41_tree_coder.md R150, R151). -/

namespace Sys2Proof.Machine

/-! ## The stores of TCOSTS -/

theorem State.setCostm_costm_same (s : State) (v c : Nat) : (s.setCostm v c).mem.costm v = BitVec.ofNat 32 c :=
  Memory.readWord_writeWord s.mem (costmAddr v) _

theorem State.setCostm_read_other (s : State) (v c : Nat) {a : Nat} (h : a < costmAddr v ∨ costmAddr v + 4 ≤ a) :
    (s.setCostm v c).mem.read a = s.mem.read a :=
  Memory.read_writeWord_other s.mem (costmAddr v) a _ h

/-- The words of `COSTM` do not overlap. -/
theorem State.setCostm_costm_other (s : State) {v w : Nat} (c : Nat) (h : v ≠ w) :
    (s.setCostm v c).mem.costm w = s.mem.costm w :=
  Memory.readWord_congr _ _ _ fun a ha ha' => s.setCostm_read_other v c (by simp only [costmAddr] at ha ha' ⊢; omega)

theorem writeCosts_cons (value cost : Nat) (rest : List (Nat × Nat)) (done : List Nat) (s : State) :
    writeCosts ((value, cost) :: rest) done s =
      if value ∈ done then writeCosts rest done s
      else writeCosts rest (value :: done) (s.setCostm value cost) := by
  simp only [writeCosts, List.contains_iff_mem]

/-- The stores of TCOSTS change memory alone. -/
theorem writeCosts_frame (costs : List (Nat × Nat)) (done : List Nat) (s : State) :
    writeCosts costs done s = { s with mem := (writeCosts costs done s).mem } := by
  induction costs generalizing done s with
  | nil => rfl
  | cons entry rest ih =>
    rw [writeCosts_cons]
    split
    · exact ih done s
    · exact ih _ (s.setCostm entry.1 entry.2)

theorem writeCosts_read_other {costs : List (Nat × Nat)} (done : List Nat) (s : State) {a : Nat}
    (h : ∀ entry ∈ costs, a < costmAddr entry.1 ∨ costmAddr entry.1 + 4 ≤ a) :
    (writeCosts costs done s).mem.read a = s.mem.read a := by
  induction costs generalizing done s with
  | nil => rfl
  | cons entry rest ih =>
    obtain ⟨hentry, hrest⟩ := List.forall_mem_cons.1 h
    rw [writeCosts_cons]
    split
    · exact ih done s hrest
    · exact (ih _ _ hrest).trans (s.setCostm_read_other _ _ hentry)

/-- A value written is not written again. -/
theorem writeCosts_costm_of_done (costs : List (Nat × Nat)) {done : List Nat} (s : State) {v : Nat} (h : v ∈ done) :
    (writeCosts costs done s).mem.costm v = s.mem.costm v := by
  induction costs generalizing done s with
  | nil => rfl
  | cons entry rest ih =>
    rw [writeCosts_cons]
    split
    · exact ih s h
    next hnew =>
      have hne : entry.1 ≠ v := fun heq => hnew (heq ▸ h)
      exact (ih _ (List.mem_cons_of_mem _ h)).trans (s.setCostm_costm_other _ hne)

/-- The first cost of a value is the one written. -/
theorem writeCosts_costm_of_first {before : List (Nat × Nat)} {v : Nat} (cost : Nat) (after : List (Nat × Nat))
    {done : List Nat} (s : State) (hbefore : v ∉ before.map Prod.fst) (hdone : v ∉ done) :
    (writeCosts (before ++ (v, cost) :: after) done s).mem.costm v = BitVec.ofNat 32 cost := by
  induction before generalizing done s with
  | nil =>
    rw [List.nil_append, writeCosts_cons, if_neg hdone, writeCosts_costm_of_done _ _ List.mem_cons_self]
    exact s.setCostm_costm_same v cost
  | cons entry rest ih =>
    obtain ⟨hne, hrest⟩ := not_or.1 (mt List.mem_cons.2 hbefore)
    rw [List.cons_append, writeCosts_cons]
    split
    · exact ih s hrest hdone
    · exact ih _ hrest (mt List.mem_cons.1 (not_or.2 ⟨hne, hdone⟩))

/-! ## The first leaf of a value -/

/-- In a well-formed tree every node bits lead to is reached by a path. -/
theorem exists_leadsTo {entry : Nat → Int} {size tb start : Nat} (hstart : start % 2 = 0)
    (hwell : ∀ q, ¬malformedAt entry size tb start q) {p : List Bool} {i : Nat}
    (hp : follow entry tb start p = some i) : ∃ path, leadsTo entry tb start path i ∧ path.map Prod.snd = p := by
  induction p using List.reverseRecOn generalizing i with
  | nil => exact ⟨[], Option.some.inj hp, rfl⟩
  | append_singleton p bit ih =>
    obtain ⟨j, hj⟩ := exists_follow_of_prefix hp (List.prefix_append p [bit])
    obtain ⟨path, hpath, rfl⟩ := ih hj
    have heven := even_of_not_malformedAt hstart (hwell _) hp
    rw [follow_concat hj] at hp
    split at hp
    next hpos =>
      cases hp
      exact ⟨path ++ [(j, bit)], leadsTo_concat hpath hpos (by omega), List.map_append⟩
    next => cases hp

theorem exists_isTreePath_of_leafAt {entry : Nat → Int} {size tb start v : Nat} (hstart : start % 2 = 0)
    (hwell : ∀ q, ¬malformedAt entry size tb start q) {p : List Bool} (hp : leafAt entry tb start v p) :
    ∃ path, isTreePath entry tb v start path ∧ path.map Prod.snd = p := by
  obtain ⟨nodeBits, last, i, rfl, hi, hleaf⟩ := hp
  obtain ⟨path, hpath, rfl⟩ := exists_leadsTo hstart hwell hi
  exact ⟨path ++ [(i, last)], isTreePath_concat.2 ⟨hpath, hleaf⟩, List.map_append⟩

/-- The first leaf of a value in the collection is the one the search finds. -/
theorem findPath_of_treeLeaves {m : Memory} {tb v : Nat} {before after : List Leaf} {path : Path}
    (h : treeLeaves m tb = some (before ++ (v, path) :: after)) (hfirst : v ∉ before.map Prod.fst) :
    findPath m.treem 256 tb v 0 = .ok path := by
  obtain ⟨hnone, -⟩ | ⟨leaves, hsome, hwell, hsorted, hmem⟩ := treeLeaves_cases m tb
  · cases hnone.symm.trans h
  cases hsome.symm.trans h
  refine findPath_of_first (Nat.le_refl _) rfl ((hmem v path).1 (by simp)) fun q hq => ⟨fun hleaf => ?_, hwell q⟩
  obtain ⟨path', htree, rfl⟩ := exists_isTreePath_of_leafAt rfl hwell hleaf
  obtain ⟨-, hrest, -⟩ := List.pairwise_append.1 hsorted
  obtain ⟨hafter, -⟩ := List.pairwise_cons.1 hrest
  obtain hold | hnew := List.mem_append.1 ((hmem v path').2 htree)
  · exact hfirst (List.mem_map_of_mem hold)
  · obtain heq | hlate := List.mem_cons.1 hnew
    · cases heq
      exact lt_irrefl _ hq
    · exact lt_asymm hq (hafter _ hlate)

/-- A leaf value stands first somewhere in the collection. -/
theorem exists_first_leaf {leaves : List Leaf} {v : Nat} (h : v ∈ leaves.map Prod.fst) :
    ∃ before path after, leaves = before ++ (v, path) :: after ∧ v ∉ before.map Prod.fst := by
  obtain ⟨values, values', heq, hfirst⟩ := List.eq_append_cons_of_mem h
  obtain ⟨before, rest, rfl, rfl, hrest⟩ := List.map_eq_append_iff.1 heq
  obtain ⟨⟨_, path⟩, after, rfl, rfl, -⟩ := List.map_eq_cons_iff.1 hrest
  exact ⟨before, path, after, rfl, hfirst⟩

theorem leafCosts_fst (c : Config) (m : Memory) (pb : Nat) (leaves : List Leaf) :
    (leafCosts c m pb leaves).map Prod.fst = leaves.map Prod.fst := by
  simp [leafCosts]

/-- What TCOSTS writes for a leaf value is what TCOST computes. -/
theorem exec_tcost_of_checkedLeaves {tb pb v : BitVec 8} {s : State} {leaves : List Leaf}
    (h : checkedLeaves s.mem tb.toNat pb.toNat = .ok leaves) (hv : v.toNat ∈ leaves.map Prod.fst) :
    exec (.tcost tb pb v) s =
      .next { s with cost := (writeCosts (leafCosts s.cfg s.mem pb.toNat leaves) [] s).mem.costm v.toNat } := by
  obtain ⟨hleaves, hprobs⟩ := checkedLeaves_ok.1 h
  obtain ⟨before, path, after, rfl, hfirst⟩ := exists_first_leaf hv
  have hpath := findPath_of_treeLeaves hleaves hfirst
  have hcosts : leafCosts s.cfg s.mem pb.toNat (before ++ (v.toNat, path) :: after) =
      leafCosts s.cfg s.mem pb.toNat before ++
        (v.toNat, pathCost s.cfg s.mem pb.toNat path) :: leafCosts s.cfg s.mem pb.toNat after := by
    simp [leafCosts]
  rw [exec_tcost ((checkedPath_ok _ _ _ _ path).2 ⟨hpath, hprobs (v.toNat, path) (by simp)⟩), hcosts,
    writeCosts_costm_of_first _ _ s (leafCosts_fst s.cfg s.mem pb.toNat before ▸ hfirst) List.not_mem_nil]

theorem exec_tcosts {tb pb : BitVec 8} {s : State} {leaves : List Leaf}
    (h : checkedLeaves s.mem tb.toNat pb.toNat = .ok leaves) :
    exec (.tcosts tb pb) s = .next (writeCosts (leafCosts s.cfg s.mem pb.toNat leaves) [] s) := by
  change execTcosts tb pb s = _
  rw [execTcosts, h]
  rfl

/-- The values of the leaves collected are at most 128. -/
theorem value_le_of_treeLeaves {m : Memory} {tb : Nat} {leaves : List Leaf} (h : treeLeaves m tb = some leaves) :
    ∀ v ∈ leaves.map Prod.fst, v ≤ 128 := by
  intro v hv
  obtain ⟨hnone, -⟩ | ⟨found, hsome, -, -, hmem⟩ := treeLeaves_cases m tb
  · cases hnone.symm.trans h
  cases hsome.symm.trans h
  obtain ⟨leaf, hleaf, rfl⟩ := List.mem_map.1 hv
  exact value_le_of_isTreePath ((hmem leaf.1 leaf.2).1 hleaf)

end Sys2Proof.Machine

namespace Sys2Proof.Proofs

open Sys2Proof.Machine

/-- Settles O53: for each value the first leaf of the collection is the one written and the one the search finds. -/
theorem tcostsAgreesWithTcost : Obligations.TcostsAgreesWithTcost := by
  intro tb pb s leaves h
  obtain ⟨hleaves, -⟩ := checkedLeaves_ok.1 h
  refine ⟨_, exec_tcosts h, writeCosts_frame _ _ _, fun v hv => exec_tcost_of_checkedLeaves h hv,
    value_le_of_treeLeaves hleaves, fun a ha => writeCosts_read_other _ _ fun entry hentry => ?_⟩
  exact ha entry.1 (leafCosts_fst s.cfg s.mem pb.toNat leaves ▸ List.mem_map_of_mem hentry)

end Sys2Proof.Proofs
end

section
/-! PROOFS. The forward DCT, the forward WHT and the gathering of the DC lanes (42_transform.md). -/

namespace Sys2Proof.Machine

/-! ## Lanes of a block -/

theorem le_trunc16 (v : Int) : -32768 ≤ trunc16 v := BitVec.le_toInt (BitVec.ofInt 16 v)

theorem trunc16_le (v : Int) : trunc16 v ≤ 32767 := Int.le_of_lt_add_one (BitVec.toInt_lt (x := BitVec.ofInt 16 v))

theorem trunc16_eq_bmod (v : Int) : trunc16 v = v.bmod 65536 := BitVec.toInt_ofInt v

theorem trunc16_sub_emod (v : Int) : (trunc16 v - v) % 65536 = 0 := by
  rw [trunc16_eq_bmod]
  exact Int.emod_eq_emod_iff_emod_sub_eq_zero.1 Int.bmod_emod

/-- A value that fits in 16 bits does not wrap. -/
theorem trunc16_eq_self {v : Int} (h : -32768 ≤ v ∧ v ≤ 32767) : trunc16 v = v := by
  have hle := le_trunc16 v
  have hge := trunc16_le v
  have hmod := trunc16_sub_emod v
  omega

/-- The lanes of a block row by row. -/
theorem forall_lane_iff_rows {P : Nat → Prop} :
    (∀ j < 16, P j) ↔ ∀ r < 4, P (4 * r) ∧ P (4 * r + 1) ∧ P (4 * r + 2) ∧ P (4 * r + 3) := by
  refine ⟨fun h r hr => ⟨h _ (by omega), h _ (by omega), h _ (by omega), h _ (by omega)⟩, fun h j hj => ?_⟩
  obtain ⟨h0, h1, h2, h3⟩ := h (j / 4) (by omega)
  obtain hk | hk | hk | hk : j % 4 = 0 ∨ j % 4 = 1 ∨ j % 4 = 2 ∨ j % 4 = 3 := by omega
  · exact (show 4 * (j / 4) = j by omega) ▸ h0
  · exact (show 4 * (j / 4) + 1 = j by omega) ▸ h1
  · exact (show 4 * (j / 4) + 2 = j by omega) ▸ h2
  · exact (show 4 * (j / 4) + 3 = j by omega) ▸ h3

/-- The lanes of a block column by column. -/
theorem forall_lane_iff_columns {P : Nat → Prop} :
    (∀ j < 16, P j) ↔ ∀ c < 4, P c ∧ P (4 + c) ∧ P (8 + c) ∧ P (12 + c) := by
  refine ⟨fun h c hc => ⟨h _ (by omega), h _ (by omega), h _ (by omega), h _ (by omega)⟩, fun h j hj => ?_⟩
  obtain ⟨h0, h1, h2, h3⟩ := h (j % 4) (by omega)
  obtain hk | hk | hk | hk : j / 4 = 0 ∨ j / 4 = 1 ∨ j / 4 = 2 ∨ j / 4 = 3 := by omega
  · exact (show j % 4 = j by omega) ▸ h0
  · exact (show 4 + j % 4 = j by omega) ▸ h1
  · exact (show 8 + j % 4 = j by omega) ▸ h2
  · exact (show 12 + j % 4 = j by omega) ▸ h3

/-! ## Conditions used as numbers -/

theorem bit01_decide (p : Prop) [Decidable p] : bit01 (decide p) = if p then 1 else 0 := by simp [bit01]

theorem bit01_bne_zero (v : Int) : bit01 (v != 0) = if v = 0 then 0 else 1 := by simp [bit01]

/-! ## The commands that write one block register -/

/-- A write of a block register changes nothing but that register. -/
theorem State.setBlock_frame (s : State) (bd : BitVec 5) (b : Block) :
    s.setBlock bd b = { s with br := (s.setBlock bd b).br } ∧ ∀ m, m ≠ bd → (s.setBlock bd b).block m = s.block m :=
  ⟨rfl, fun m hm => s.setBlock_block_other bd m b hm⟩

theorem exec_fdct (bd bs : BitVec 5) (s : State) :
    exec (.fdct bd bs) s = .next (s.setBlock bd (fdctBlock s.cfg.fdctc (s.block bs))) := rfl

theorem exec_fwht (bd bs : BitVec 5) (s : State) :
    exec (.fwht bd bs) s = .next (s.setBlock bd (fwhtBlock (s.block bs))) := rfl

theorem exec_gdc_done {bs : BitVec 5} (h : bs.toNat + 15 ≤ 31) (bd : BitVec 5) (s : State) :
    exec (.gdc bd bs) s = .next (s.setBlock bd (gatherDc s bs)) := by
  change execGdc bd bs s = _
  rw [execGdc, if_neg (by omega), finish_next, Run.settle_done]

theorem exec_gdc_raised {bs : BitVec 5} (h : 31 < bs.toNat + 15) (bd : BitVec 5) (s : State) :
    exec (.gdc bd bs) s = .next (s.raise .regRange (encode (.gdc bd bs))) := by
  change execGdc bd bs s = _
  rw [execGdc, if_pos h, finish_next, Run.settle_raised]

/-! ## The lanes the commands write -/

theorem lane_fdctBlock (k : FdctConsts) (b : Block) {j : Nat} (hj : j < 16) :
    lane (fdctBlock k b) j = trunc16 (fdctColumn k (fdctRow k (lane b)) j) := lane_blockOf _ j hj

theorem lane_fwhtBlock (b : Block) {j : Nat} (hj : j < 16) :
    lane (fwhtBlock b) j = trunc16 (fwhtColumn (fwhtRow (lane b)) j) := lane_blockOf _ j hj

theorem lane_gatherDc (s : State) {bs m : BitVec 5} {k : Nat} (hk : k < 16) (hm : m.toNat = bs.toNat + k) :
    lane (gatherDc s bs) k = lane (s.block m) 0 := by
  have hreg : bs + BitVec.ofNat 5 k = m := BitVec.eq_of_toNat_eq (by simp; omega)
  simp [lane_eq, gatherDc, hk, hreg]

/-! ## The passes of the forward DCT -/

section FdctPasses

variable (k : FdctConsts)

section Row

variable (x : Nat → Int) (r : Nat)

theorem fdctRow_zero : fdctRow k x (4 * r) =
    trunc16 ((x (4 * r) + x (4 * r + 3)) * k.pre + (x (4 * r + 1) + x (4 * r + 2)) * k.pre) := by
  simp [fdctRow]

theorem fdctRow_one : fdctRow k x (4 * r + 1) =
    trunc16 (((x (4 * r + 1) - x (4 * r + 2)) * k.pre * 2217 + (x (4 * r) - x (4 * r + 3)) * k.pre * 5352 + k.ra) /
      2 ^ k.s1) := by
  simp [fdctRow, Nat.mul_add_div, asr, fdctK1, fdctK2]

theorem fdctRow_two : fdctRow k x (4 * r + 2) =
    trunc16 ((x (4 * r) + x (4 * r + 3)) * k.pre - (x (4 * r + 1) + x (4 * r + 2)) * k.pre) := by
  simp [fdctRow, Nat.mul_add_div]

theorem fdctRow_three : fdctRow k x (4 * r + 3) =
    trunc16 (((x (4 * r) - x (4 * r + 3)) * k.pre * 2217 - (x (4 * r + 1) - x (4 * r + 2)) * k.pre * 5352 + k.rb) /
      2 ^ k.s1) := by
  simp [fdctRow, Nat.mul_add_div, asr, fdctK1, fdctK2]

end Row

section Column

variable (t : Nat → Int) {c : Nat} (hc : c < 4)
include hc

theorem fdctColumn_zero : fdctColumn k t c = (t c + t (12 + c) + (t (4 + c) + t (8 + c)) + k.rc) / 2 ^ k.s2 := by
  simp [fdctColumn, Nat.mod_eq_of_lt hc, Nat.div_eq_of_lt hc, asr]

theorem fdctColumn_one : fdctColumn k t (4 + c) =
    ((t (4 + c) - t (8 + c)) * 2217 + (t c - t (12 + c)) * 5352 + k.rd) / 2 ^ k.s3 +
      if t c = t (12 + c) then 0 else 1 := by
  have hdiv : (4 + c) / 4 = 1 := by omega
  simp [fdctColumn, hdiv, Nat.mod_eq_of_lt hc, asr, fdctK1, fdctK2, bit01_bne_zero, Int.sub_eq_zero]

theorem fdctColumn_two : fdctColumn k t (8 + c) =
    (t c + t (12 + c) - (t (4 + c) + t (8 + c)) + k.rc) / 2 ^ k.s2 := by
  have hdiv : (8 + c) / 4 = 2 := by omega
  have hmod : (8 + c) % 4 = c := by omega
  simp [fdctColumn, hdiv, hmod, asr]

theorem fdctColumn_three : fdctColumn k t (12 + c) =
    ((t c - t (12 + c)) * 2217 - (t (4 + c) - t (8 + c)) * 5352 + k.re) / 2 ^ k.s3 := by
  have hdiv : (12 + c) / 4 = 3 := by omega
  have hmod : (12 + c) % 4 = c := by omega
  simp [fdctColumn, hdiv, hmod, asr, fdctK1, fdctK2]

end Column

end FdctPasses

/-! ## The passes of the forward WHT -/

section FwhtRow

variable (x : Nat → Int) (r : Nat)

theorem fwhtRow_zero : fwhtRow x (4 * r) =
    trunc16 ((x (4 * r) + x (4 * r + 2)) * 4 + (x (4 * r + 1) + x (4 * r + 3)) * 4 +
      if (x (4 * r) + x (4 * r + 2)) * 4 = 0 then 0 else 1) := by
  simp only [fwhtRow, Nat.mul_div_right, Nat.mul_mod_right, bit01_bne_zero, Nat.zero_lt_succ]

theorem fwhtRow_one : fwhtRow x (4 * r + 1) =
    trunc16 ((x (4 * r) - x (4 * r + 2)) * 4 + (x (4 * r + 1) - x (4 * r + 3)) * 4) := by
  simp [fwhtRow, Nat.mul_add_div]

theorem fwhtRow_two : fwhtRow x (4 * r + 2) =
    trunc16 ((x (4 * r) - x (4 * r + 2)) * 4 - (x (4 * r + 1) - x (4 * r + 3)) * 4) := by
  simp [fwhtRow, Nat.mul_add_div]

theorem fwhtRow_three : fwhtRow x (4 * r + 3) =
    trunc16 ((x (4 * r) + x (4 * r + 2)) * 4 - (x (4 * r + 1) + x (4 * r + 3)) * 4) := by
  simp [fwhtRow, Nat.mul_add_div]

end FwhtRow

section FwhtColumn

theorem fwhtRound_eq (v : Int) : fwhtRound v = (v + (if v < 0 then 1 else 0) + 3) / 8 := by
  simp [fwhtRound, asr, bit01_decide]

variable (t : Nat → Int) {c : Nat} (hc : c < 4)
include hc

theorem fwhtColumn_zero : fwhtColumn t c = fwhtRound (t c + t (8 + c) + (t (4 + c) + t (12 + c))) := by
  simp [fwhtColumn, Nat.mod_eq_of_lt hc, Nat.div_eq_of_lt hc]

theorem fwhtColumn_one : fwhtColumn t (4 + c) = fwhtRound (t c - t (8 + c) + (t (4 + c) - t (12 + c))) := by
  have hdiv : (4 + c) / 4 = 1 := by omega
  simp [fwhtColumn, hdiv, Nat.mod_eq_of_lt hc]

theorem fwhtColumn_two : fwhtColumn t (8 + c) = fwhtRound (t c - t (8 + c) - (t (4 + c) - t (12 + c))) := by
  have hdiv : (8 + c) / 4 = 2 := by omega
  have hmod : (8 + c) % 4 = c := by omega
  simp [fwhtColumn, hdiv, hmod]

theorem fwhtColumn_three : fwhtColumn t (12 + c) = fwhtRound (t c + t (8 + c) - (t (4 + c) + t (12 + c))) := by
  have hdiv : (12 + c) / 4 = 3 := by omega
  have hmod : (12 + c) % 4 = c := by omega
  simp [fwhtColumn, hdiv, hmod]

end FwhtColumn

end Sys2Proof.Machine

namespace Sys2Proof.Proofs

open Sys2Proof.Machine

/-- Settles O29: the block between the passes is `fdctRow`, and each lane is one output of a butterfly. -/
theorem fdctComputesTheTwoPasses : Obligations.FdctComputesTheTwoPasses := by
  refine ⟨fun v => ⟨le_trunc16 v, trunc16_le v, trunc16_sub_emod v⟩, fun bd bs s => ?_⟩
  obtain ⟨hframe, hother⟩ := s.setBlock_frame bd (fdctBlock s.cfg.fdctc (s.block bs))
  refine ⟨_, exec_fdct bd bs s, hframe, hother, fdctRow s.cfg.fdctc (lane (s.block bs)), fun r _ => ?rows,
    fun c hc => ?columns⟩
  case rows => exact ⟨fdctRow_zero .., fdctRow_two .., fdctRow_one .., fdctRow_three ..⟩
  case columns =>
    rw [State.setBlock_block_same, lane_fdctBlock _ _ (by omega), lane_fdctBlock _ _ (by omega),
      lane_fdctBlock _ _ (by omega), lane_fdctBlock _ _ (by omega), fdctColumn_zero _ _ hc, fdctColumn_one _ _ hc,
      fdctColumn_two _ _ hc, fdctColumn_three _ _ hc]
    exact ⟨rfl, rfl, rfl, rfl⟩

/-- Settles O32: the block between the passes is `fwhtRow`, and each lane is one output of a butterfly. -/
theorem fwhtComputesTheTwoPasses : Obligations.FwhtComputesTheTwoPasses := by
  intro bd bs s
  obtain ⟨hframe, hother⟩ := s.setBlock_frame bd (fwhtBlock (s.block bs))
  refine ⟨_, exec_fwht bd bs s, hframe, hother, fwhtRow (lane (s.block bs)), fun r _ => ?rows, fun c hc => ?columns⟩
  case rows => exact ⟨fwhtRow_zero .., fwhtRow_one .., fwhtRow_two .., fwhtRow_three ..⟩
  case columns =>
    rw [State.setBlock_block_same, lane_fwhtBlock _ (by omega), lane_fwhtBlock _ (by omega),
      lane_fwhtBlock _ (by omega), lane_fwhtBlock _ (by omega), fwhtColumn_zero _ hc, fwhtColumn_one _ hc,
      fwhtColumn_two _ hc, fwhtColumn_three _ hc]
    simp only [fwhtRound_eq, and_self]

/-- Settles O33: the registers named are those from `bs` on, none past b31. -/
theorem gdcGathersLaneZero : Obligations.GdcGathersLaneZero := by
  refine fun bd bs s => ⟨fun h => ?_, fun h => exec_gdc_raised h bd s⟩
  obtain ⟨hframe, hother⟩ := s.setBlock_frame bd (gatherDc s bs)
  refine ⟨_, exec_gdc_done h bd s, hframe, hother, fun k hk m hm => ?_⟩
  rw [State.setBlock_block_same]
  exact lane_gatherDc s hk hm

end Sys2Proof.Proofs
end

section
/-! PROOFS. The forward DCT with the default constants on residuals: nothing wraps, and a block of one value has only its DC
and one rounding lane (42_transform.md R161 to R163). -/

namespace Sys2Proof.Machine

/-- Lanes of differences of pixels. -/
def Residuals (x : Nat → Int) : Prop := ∀ i < 16, -255 ≤ x i ∧ x i ≤ 255

/-! ## The row pass -/

section Row

variable {x : Nat → Int} (hx : Residuals x) {r : Nat} (hr : r < 4)
include hx hr

theorem Residuals.row : (-255 ≤ x (4 * r) ∧ x (4 * r) ≤ 255) ∧ (-255 ≤ x (4 * r + 1) ∧ x (4 * r + 1) ≤ 255) ∧
    (-255 ≤ x (4 * r + 2) ∧ x (4 * r + 2) ≤ 255) ∧ (-255 ≤ x (4 * r + 3) ∧ x (4 * r + 3) ≤ 255) :=
  forall_lane_iff_rows.1 hx r hr

theorem fdctRow_standard_zero :
    fdctRow fdctStandard x (4 * r) = (x (4 * r) + x (4 * r + 3) + x (4 * r + 1) + x (4 * r + 2)) * 8 := by
  obtain ⟨h0, h1, h2, h3⟩ := hx.row hr
  rw [fdctRow_zero, trunc16_eq_self] <;> dsimp only [fdctStandard] <;> omega

theorem fdctRow_standard_one : fdctRow fdctStandard x (4 * r + 1) =
    ((x (4 * r + 1) - x (4 * r + 2)) * 8 * 2217 + (x (4 * r) - x (4 * r + 3)) * 8 * 5352 + 14500) / 4096 := by
  obtain ⟨h0, h1, h2, h3⟩ := hx.row hr
  rw [fdctRow_one, trunc16_eq_self] <;> dsimp only [fdctStandard] <;> omega

theorem fdctRow_standard_two :
    fdctRow fdctStandard x (4 * r + 2) = (x (4 * r) + x (4 * r + 3) - x (4 * r + 1) - x (4 * r + 2)) * 8 := by
  obtain ⟨h0, h1, h2, h3⟩ := hx.row hr
  rw [fdctRow_two, trunc16_eq_self] <;> dsimp only [fdctStandard] <;> omega

theorem fdctRow_standard_three : fdctRow fdctStandard x (4 * r + 3) =
    ((x (4 * r) - x (4 * r + 3)) * 8 * 2217 - (x (4 * r + 1) - x (4 * r + 2)) * 8 * 5352 + 7500) / 4096 := by
  obtain ⟨h0, h1, h2, h3⟩ := hx.row hr
  rw [fdctRow_three, trunc16_eq_self] <;> dsimp only [fdctStandard] <;> omega

end Row

/-- The row pass of residuals stays within 8160, four residuals times 8. -/
theorem fdctRow_natAbs_le {x : Nat → Int} (hx : Residuals x) : ∀ j < 16, (fdctRow fdctStandard x j).natAbs ≤ 8160 := by
  refine forall_lane_iff_rows.2 fun r hr => ?_
  obtain ⟨h0, h1, h2, h3⟩ := hx.row hr
  rw [fdctRow_standard_zero hx hr, fdctRow_standard_one hx hr, fdctRow_standard_two hx hr, fdctRow_standard_three hx hr]
  omega

/-! ## The column pass -/

section Column

variable (t : Nat → Int) {c : Nat} (hc : c < 4)
include hc

theorem fdctColumn_standard_zero :
    fdctColumn fdctStandard t c = (t c + t (12 + c) + t (4 + c) + t (8 + c) + 7) / 16 := by
  rw [fdctColumn_zero _ _ hc]
  dsimp only [fdctStandard]
  omega

theorem fdctColumn_standard_one : fdctColumn fdctStandard t (4 + c) =
    ((t (4 + c) - t (8 + c)) * 2217 + (t c - t (12 + c)) * 5352 + 12000) / 65536 + if t c = t (12 + c) then 0 else 1 :=
  fdctColumn_one _ _ hc

theorem fdctColumn_standard_two :
    fdctColumn fdctStandard t (8 + c) = (t c + t (12 + c) - t (4 + c) - t (8 + c) + 7) / 16 := by
  rw [fdctColumn_two _ _ hc]
  dsimp only [fdctStandard]
  omega

theorem fdctColumn_standard_three : fdctColumn fdctStandard t (12 + c) =
    ((t c - t (12 + c)) * 2217 - (t (4 + c) - t (8 + c)) * 5352 + 51000) / 65536 :=
  fdctColumn_three _ _ hc

/-- A column of one value leaves its first lane alone. -/
theorem fdctColumn_of_constant {w : Int} (h0 : t c = w) (h1 : t (4 + c) = w) (h2 : t (8 + c) = w) (h3 : t (12 + c) = w) :
    fdctColumn fdctStandard t c = (4 * w + 7) / 16 ∧ fdctColumn fdctStandard t (4 + c) = 0 ∧
      fdctColumn fdctStandard t (8 + c) = 0 ∧ fdctColumn fdctStandard t (12 + c) = 0 := by
  rw [fdctColumn_standard_zero t hc, fdctColumn_standard_one t hc, fdctColumn_standard_two t hc,
    fdctColumn_standard_three t hc, h0, h1, h2, h3, if_pos rfl]
  omega

end Column

/-- The column pass of lanes within 8160 stays within 2040, a quarter of it: no lane of the result wraps. -/
theorem fdctColumn_natAbs_le {t : Nat → Int} (ht : ∀ j < 16, (t j).natAbs ≤ 8160) :
    ∀ j < 16, (fdctColumn fdctStandard t j).natAbs ≤ 2040 := by
  refine forall_lane_iff_columns.2 fun c hc => ?_
  obtain ⟨h0, h1, h2, h3⟩ := forall_lane_iff_columns.1 ht c hc
  rw [fdctColumn_standard_zero t hc, fdctColumn_standard_one t hc, fdctColumn_standard_two t hc,
    fdctColumn_standard_three t hc]
  omega

/-! ## Both passes -/

theorem lane_fdctBlock_of_residuals {b : Block} (hb : Residuals (lane b)) {j : Nat} (hj : j < 16) :
    lane (fdctBlock fdctStandard b) j = fdctColumn fdctStandard (fdctRow fdctStandard (lane b)) j := by
  have hbound := fdctColumn_natAbs_le (fdctRow_natAbs_le hb) j hj
  rw [lane_fdctBlock _ _ hj, trunc16_eq_self (by omega)]

/-- A row of a block of the one value `v` after the row pass: `32v`, and the rounding of the other three lanes. -/
def rowOfConstant (v : Int) : Nat → Int
  | 0 => 32 * v
  | 1 => 3
  | 2 => 0
  | _ => 1

theorem fdctRow_of_constant {x : Nat → Int} {v : Int} (hx : Residuals x) (hv : ∀ i < 16, x i = v) :
    ∀ j < 16, fdctRow fdctStandard x j = rowOfConstant v (j % 4) := by
  refine forall_lane_iff_rows.2 fun r hr => ?_
  obtain ⟨h0, h1, h2, h3⟩ := forall_lane_iff_rows.1 hv r hr
  rw [fdctRow_standard_zero hx hr, fdctRow_standard_one hx hr, fdctRow_standard_two hx hr, fdctRow_standard_three hx hr,
    h0, h1, h2, h3]
  simp only [Nat.mul_mod_right, Nat.mul_add_mod, Nat.reduceMod, rowOfConstant]
  omega

/-- The DC and the one lane whose rounding reaches the result. -/
theorem rowOfConstant_rounded (v : Int) {c : Nat} (hc : c < 4) :
    (4 * rowOfConstant v c + 7) / 16 = if c = 0 then 8 * v else if c = 1 then 1 else 0 := by
  obtain rfl | rfl | rfl | rfl : c = 0 ∨ c = 1 ∨ c = 2 ∨ c = 3 := by omega
  · simp only [rowOfConstant, if_true]
    omega
  · rfl
  · rfl
  · rfl

theorem fdctColumn_fdctRow_of_constant {x : Nat → Int} {v : Int} (hx : Residuals x) (hv : ∀ i < 16, x i = v) :
    ∀ j < 16, fdctColumn fdctStandard (fdctRow fdctStandard x) j = if j = 0 then 8 * v else if j = 1 then 1 else 0 := by
  refine forall_lane_iff_columns.2 fun c hc => ?_
  obtain ⟨h0, h1, h2, h3⟩ := forall_lane_iff_columns.1 (fdctRow_of_constant hx hv) c hc
  simp only [Nat.add_mod, Nat.reduceMod, Nat.zero_add, Nat.mod_eq_of_lt hc] at h0 h1 h2 h3
  obtain ⟨y0, y1, y2, y3⟩ := fdctColumn_of_constant _ hc h0 h1 h2 h3
  rw [y0, y1, y2, y3, rowOfConstant_rounded v hc]
  refine ⟨rfl, ?_, ?_, ?_⟩ <;> rw [if_neg (by omega), if_neg (by omega)]

end Sys2Proof.Machine

namespace Sys2Proof.Proofs

open Sys2Proof.Machine

/-- Settles O31: the row pass of residuals is within 8160, and the column pass of such lanes within 2040. -/
theorem fdctOfResidualsNeverWraps : Obligations.FdctOfResidualsNeverWraps := by
  refine ⟨⟨rfl, rfl⟩, fun x hx => ⟨fun r hr => ?rows, fun c hc => ?columns, fun j hj => ?bounds⟩⟩
  case rows =>
    exact ⟨fdctRow_standard_zero hx hr, fdctRow_standard_two hx hr, fdctRow_standard_one hx hr,
      fdctRow_standard_three hx hr⟩
  case columns =>
    exact ⟨fdctColumn_standard_zero _ hc, fdctColumn_standard_two _ hc, fdctColumn_standard_one _ hc,
      fdctColumn_standard_three _ hc⟩
  case bounds =>
    have hrows := fdctRow_natAbs_le hx
    exact ⟨hrows j hj, fdctColumn_natAbs_le hrows j hj⟩

/-- Settles O30: after the row pass every column has one value, 32v, 3, 0 or 1. -/
theorem fdctOfAConstantBlock : Obligations.FdctOfAConstantBlock := by
  intro bd bs s v hk hlow hhigh hv
  have hx : Residuals (lane (s.block bs)) := fun i hi => hv i hi ▸ ⟨hlow, hhigh⟩
  refine ⟨_, exec_fdct bd bs s, fun i hi => ?_⟩
  rw [State.setBlock_block_same, hk, lane_fdctBlock_of_residuals hx hi, fdctColumn_fdctRow_of_constant hx hv i hi]

end Sys2Proof.Proofs
end

section
/-! PROOFS. The quantizer and its EOB tag (43_quantizer.md R172 to R176). -/

namespace Sys2Proof.Machine

/-! ## Magnitudes and lanes -/

/-- The magnitude as the spec writes it, with a shift. -/
theorem quantMag_eq_shiftRight (e : QEntry) (boost a : Nat) : quantMag e boost a =
    if a < e.zbin.toNat + boost then 0 else ((a + e.round.toNat) * e.quant.toNat) >>> 16 := by
  rw [quantMag, Nat.shiftRight_eq_div_pow]

theorem quantMag_of_lt {e : QEntry} {boost a : Nat} (h : a < e.zbin.toNat + boost) : quantMag e boost a = 0 := if_pos h

theorem quantMag_of_le {e : QEntry} {boost a : Nat} (h : e.zbin.toNat + boost ≤ a) :
    quantMag e boost a = (a + e.round.toNat) * e.quant.toNat / 2 ^ 16 := if_neg (Nat.not_lt.2 h)

theorem quantMag_le (e : QEntry) (boost a : Nat) :
    quantMag e boost a ≤ (a + e.round.toNat) * e.quant.toNat / 2 ^ 16 := by
  rcases Nat.lt_or_ge a (e.zbin.toNat + boost) with h | h
  · exact quantMag_of_lt h ▸ Nat.zero_le _
  · exact (quantMag_of_le h).le

theorem quantMag_mono {e : QEntry} {boost a b : Nat} (ha : e.zbin.toNat + boost ≤ a) (hab : a ≤ b) :
    quantMag e boost a ≤ quantMag e boost b := by
  rw [quantMag_of_le ha, quantMag_of_le (ha.trans hab)]
  gcongr

theorem quantMag_zero {e : QEntry} {boost : Nat}
    (h : 0 < e.zbin.toNat + boost ∨ e.round.toNat * e.quant.toNat < 65536) : quantMag e boost 0 = 0 := by
  rcases h with hbin | hround
  · exact quantMag_of_lt hbin
  · have hle := quantMag_le e boost 0
    rwa [Nat.zero_add, Nat.div_eq_of_lt (b := 2 ^ 16) hround, Nat.le_zero] at hle

/-- The sign is applied last, so it passes through. -/
theorem quantLane_neg (e : QEntry) (boost : Nat) {x : Int} (hx : x ≠ 0) :
    quantLane e boost (-x) = -quantLane e boost x := by
  simp only [quantLane, laneOf, Int.natAbs_neg]
  rcases Int.lt_or_gt_of_ne hx with hneg | hpos
  · rw [if_neg (show ¬-x < 0 by omega), if_pos hneg, BitVec.ofInt_neg, BitVec.neg_neg]
  · rw [if_pos (show -x < 0 by omega), if_neg (show ¬x < 0 by omega), BitVec.ofInt_neg]

theorem quantLane_zero {e : QEntry} {boost : Nat} (h : quantMag e boost 0 = 0) : quantLane e boost 0 = 0 := by
  simp [quantLane, laneOf, h]

theorem dequantLane_zero (e : QEntry) : dequantLane e 0 = 0 := by simp [dequantLane, laneOf]

theorem lane_quantBlock (c : Config) (t q boost : Nat) (x : Block) {i : Nat} (hi : i < 16) :
    lane (quantBlock c t q boost x) i = (quantLane (qlutEntry c t q i) boost (lane x i)).toInt := by
  simp [lane_eq, quantBlock, hi]

theorem lane_dequantBlock (c : Config) (t q : Nat) (x : Block) {i : Nat} (hi : i < 16) :
    lane (dequantBlock c t q x) i = trunc16 (lane x i * ((qlutEntry c t q i).dq.toNat : Int)) := by
  simp [lane_eq, dequantBlock, dequantLane, hi]

/-! ## The EOB tag -/

/-- A scan of `0..n-1` that keeps one more than the last position without `P` ends at most at `n`, with `P` from there on and
not just before. -/
theorem lastWithout_spec (P : Nat → Prop) [DecidablePred P] (n : Nat) :
    let last := (List.range n).foldl (fun m k => if P k then m else k + 1) 0
    last ≤ n ∧ (∀ k, last ≤ k → k < n → P k) ∧ (last ≠ 0 → ¬P (last - 1)) := by
  induction n with
  | zero => simp
  | succ n ih =>
    obtain ⟨hle, hfrom, hbefore⟩ := ih
    simp only [List.range_succ, List.foldl_append, List.foldl_cons, List.foldl_nil]
    split
    case isTrue hn =>
      refine ⟨Nat.le_succ_of_le hle, fun k hk hlt => ?_, hbefore⟩
      rcases Nat.lt_succ_iff_lt_or_eq.1 hlt with hlt | rfl
      · exact hfrom k hk hlt
      · exact hn
    case isFalse hn => exact ⟨Nat.le_refl _, fun k hk hlt => absurd hlt (by omega), fun _ => hn⟩

theorem eobOf_le (y : Block) : eobOf y ≤ 16 := (lastWithout_spec (fun k => lane y (zigzag k) = 0) 16).1

theorem lane_zigzag_of_eobOf_le {y : Block} : ∀ k, eobOf y ≤ k → k < 16 → lane y (zigzag k) = 0 :=
  (lastWithout_spec (fun k => lane y (zigzag k) = 0) 16).2.1

theorem lane_zigzag_before_eobOf {y : Block} : eobOf y ≠ 0 → lane y (zigzag (eobOf y - 1)) ≠ 0 :=
  (lastWithout_spec (fun k => lane y (zigzag k) = 0) 16).2.2

theorem zigzag_lt {k : Nat} (hk : k < 16) : zigzag k < 16 := by
  revert k
  decide

theorem exists_zigzag_eq : ∀ i < 16, ∃ k < 16, zigzag k = i := by decide

theorem lane_eq_zero_iff {y : Block} {i : Nat} (hi : i < 16) : lane y i = 0 ↔ y[i] = 0 := by
  rw [lane_eq y i hi, ← BitVec.toInt_zero, BitVec.toInt_inj]
  rfl

/-- The zigzag order meets every lane, so no lane is left to a block whose tag is 0. -/
theorem eobOf_eq_zero_iff (y : Block) : eobOf y = 0 ↔ ∀ i (hi : i < 16), y[i] = 0 := by
  constructor
  · intro h i hi
    obtain ⟨k, hk, rfl⟩ := exists_zigzag_eq i hi
    exact (lane_eq_zero_iff hi).1 (lane_zigzag_of_eobOf_le k (h ▸ Nat.zero_le k) hk)
  · intro h
    by_contra hne
    have hlt := zigzag_lt (show eobOf y - 1 < 16 by have := eobOf_le y; omega)
    exact lane_zigzag_before_eobOf hne ((lane_eq_zero_iff hlt).2 (h _ hlt))

/-! ## The commands -/

@[simp] theorem State.setEobTag_block (s : State) (n v m : BitVec 5) : (s.setEobTag n v).block m = s.block m := rfl

@[simp] theorem State.setBlock_eobTag (s : State) (n m : BitVec 5) (b : Block) : (s.setBlock n b).eobTag m = s.eobTag m := rfl

/-- The block QUANT makes of `BR[bs]`. -/
def State.quantized (s : State) (bs : BitVec 5) (t : BitVec 2) : Block :=
  quantBlock s.cfg t.toNat s.qidx.toNat s.zbinx.toNat (s.block bs)

/-- QUANT writes a block and its tag, and nothing else. -/
theorem exec_quant (bd bs : BitVec 5) (t : BitVec 2) (s : State) : ∃ u, exec (.quant bd bs t) s = .next u ∧
    u = { s with br := u.br, eob := u.eob } ∧ (∀ m, m ≠ bd → u.block m = s.block m ∧ u.eobTag m = s.eobTag m) ∧
    u.block bd = s.quantized bs t ∧ (u.eobTag bd).toNat = eobOf (s.quantized bs t) := by
  refine ⟨(s.setBlock bd (s.quantized bs t)).setEobTag bd (BitVec.ofNat 5 (eobOf (s.quantized bs t))), rfl, rfl,
    fun m hm => ⟨?_, ?_⟩, ?_, ?_⟩
  · rw [State.setEobTag_block, State.setBlock_block_other _ _ _ _ hm]
  · rw [State.setEobTag_eobTag_other _ _ _ _ hm, State.setBlock_eobTag]
  · rw [State.setEobTag_block, State.setBlock_block_same]
  · rw [State.setEobTag_eobTag_same, BitVec.toNat_ofNat]
    exact Nat.mod_eq_of_lt (Nat.lt_of_le_of_lt (eobOf_le _) (by decide))

theorem exec_dequant (bd bs : BitVec 5) (t : BitVec 2) (s : State) : exec (.dequant bd bs t) s =
    .next (s.setBlock bd (dequantBlock s.cfg t.toNat s.qidx.toNat (s.block bs))) := rfl

end Sys2Proof.Machine

namespace Sys2Proof.Proofs

open Sys2Proof.Machine

/-- Settles O34: each lane is `quantLane` of its entry, with the magnitude written as a shift. -/
theorem quantQuantizesEveryLane : Obligations.QuantQuantizesEveryLane := by
  intro bd bs t s
  obtain ⟨u, hexec, hframe, hother, hblock, -⟩ := exec_quant bd bs t s
  refine ⟨u, hexec, hframe, hother, fun i hi => ?_⟩
  rw [hblock, State.quantized, lane_quantBlock _ _ _ _ _ hi, quantLane, quantMag_eq_shiftRight, trunc16_eq_laneOf]

/-- Settles O35: the tag is `eobOf` of the block written, small enough for its five bits. -/
theorem quantTagNamesTheLastCoefficient : Obligations.QuantTagNamesTheLastCoefficient := by
  intro bd bs t s
  obtain ⟨u, hexec, -, -, hblock, htag⟩ := exec_quant bd bs t s
  refine ⟨u, hexec, ?_⟩
  rw [hblock, htag]
  exact ⟨eobOf_le _, lane_zigzag_of_eobOf_le, lane_zigzag_before_eobOf⟩

/-- Settles O36: each lane is `dequantLane` of its entry. -/
theorem dequantMultipliesEveryLane : Obligations.DequantMultipliesEveryLane := by
  intro bd bs t s
  obtain ⟨hframe, hother⟩ := s.setBlock_frame bd (dequantBlock s.cfg t.toNat s.qidx.toNat (s.block bs))
  refine ⟨_, exec_dequant bd bs t s, hframe, hother, fun i hi => ?_⟩
  rw [State.setBlock_block_same, lane_dequantBlock _ _ _ _ hi]

/-- Settles O37: the magnitude is monotone and takes the sign unchanged, and the tag scans every lane. -/
theorem quantizerIsOddAndMonotone : Obligations.QuantizerIsOddAndMonotone :=
  ⟨quantMag_eq_shiftRight, fun e boost _ hx => quantLane_neg e boost hx, fun _ _ h => quantLane_zero (quantMag_zero h),
    fun _ _ _ _ ha hab => quantMag_mono ha hab, eobOf_eq_zero_iff, dequantLane_zero⟩

end Sys2Proof.Proofs
end

section
/-! PROOFS. The default quantizer table: its step sizes, its entries, and the overshoot they bound (43_quantizer.md R178,
R179; 70_reset_and_hazards.md R271). -/

namespace Sys2Proof.Machine

/-! ## Step sizes -/

theorem dcqTable_bounds {q : Nat} (hq : q < 128) : 4 ≤ dcqTable.getD q 0 ∧ dcqTable.getD q 0 ≤ 157 := by
  revert q
  decide

theorem acqTable_bounds {q : Nat} (hq : q < 128) : 4 ≤ acqTable.getD q 0 ∧ acqTable.getD q 0 ≤ 284 := by
  revert q
  decide

/-- The largest step is the last AC step of block type 1, 284 * 155 / 100. -/
theorem quantStep_bounds (t : Nat) {q : Nat} (hq : q < 128) (i : Nat) : 4 ≤ quantStep t q i ∧ quantStep t q i ≤ 440 := by
  have hdc := dcqTable_bounds hq
  have hac := acqTable_bounds hq
  rw [quantStep]
  split
  case isTrue => split_ifs <;> omega
  case isFalse => split_ifs <;> omega

/-! ## Entries -/

theorem qlutEntry_standard {c : Config} (hc : c.qlut = .standard) (t q i : Nat) :
    qlutEntry c t q i = qentryStandard t q i := by rw [qlutEntry, hc]

section Entry

variable (t : Nat) {q : Nat} (hq : q < 128) (i : Nat)
include hq

theorem qentryStandard_round : (qentryStandard t q i).round.toNat = 48 * quantStep t q i / 128 := by
  have hstep := quantStep_bounds t hq i
  exact Nat.mod_eq_of_lt (by omega)

theorem qentryStandard_quant : (qentryStandard t q i).quant.toNat = 65536 / quantStep t q i := by
  have hstep := quantStep_bounds t hq i
  exact Nat.mod_eq_of_lt (Nat.div_lt_self (by decide) (by omega))

theorem qentryStandard_zbin :
    (qentryStandard t q i).zbin.toNat = ((if q < 48 then 84 else 80) * quantStep t q i + 64) / 128 := by
  have hstep := quantStep_bounds t hq i
  refine Nat.mod_eq_of_lt ?_
  split <;> omega

theorem qentryStandard_dq : (qentryStandard t q i).dq.toNat = quantStep t q i := by
  have hstep := quantStep_bounds t hq i
  exact Nat.mod_eq_of_lt (by omega)

end Entry

/-! ## The overshoot -/

/-- A reciprocal rounded down: multiplying by it and by the step again never exceeds the dividend. -/
theorem quantMag_mul_dq_le {e : QEntry} (he : e.quant.toNat = 65536 / e.dq.toNat) (boost a : Nat) :
    quantMag e boost a * e.dq.toNat ≤ a + e.round.toNat := by
  have hrecip : e.quant.toNat * e.dq.toNat ≤ 65536 := he ▸ Nat.div_mul_le_self ..
  calc quantMag e boost a * e.dq.toNat
      ≤ (a + e.round.toNat) * e.quant.toNat / 65536 * e.dq.toNat := Nat.mul_le_mul_right _ (quantMag_le e boost a)
    _ ≤ (a + e.round.toNat) * (e.quant.toNat * e.dq.toNat) / 65536 := by
      rw [← Nat.mul_assoc, Nat.mul_comm, Nat.mul_comm _ e.dq.toNat]
      exact Nat.mul_div_le_mul_div_assoc ..
    _ ≤ (a + e.round.toNat) * 65536 / 65536 := by gcongr
    _ = a + e.round.toNat := Nat.mul_div_cancel _ (by decide)

end Sys2Proof.Machine

namespace Sys2Proof.Proofs

open Sys2Proof.Machine

/-- Settles O39: the step sizes are at most 440, so no field of an entry wraps and `round` is at most 165. -/
theorem quantizeDequantizeOvershootIsBounded : Obligations.QuantizeDequantizeOvershootIsBounded := by
  refine ⟨fun c t q i hc _ hq _ => ?entries, fun t q i boost a _ hq _ => ?overshoot⟩
  case entries =>
    rw [qlutEntry_standard hc]
    exact ⟨qentryStandard_round t hq i, qentryStandard_quant t hq i, qentryStandard_zbin t hq i, qentryStandard_dq t hq i⟩
  case overshoot =>
    have hle := quantMag_mul_dq_le (e := qentryStandard t q i)
      (by rw [qentryStandard_quant t hq, qentryStandard_dq t hq]) boost a
    have hround := qentryStandard_round t hq i
    have hstep := quantStep_bounds t hq i
    exact ⟨hle, fun ha => by omega⟩

/-- Settles O38 by evaluating the rows of the table. -/
theorem defaultTableSampleEntries : Obligations.DefaultTableSampleEntries := by
  unfold Obligations.DefaultTableSampleEntries
  decide

end Sys2Proof.Proofs
end

section
/-! PROOFS. The token record: its word field by field, the conditions of its validation, and its bools (44_tokenizer.md R188,
R195 to R197). -/

namespace Sys2Proof.Machine

/-! ## The word of a record -/

/-- A word is that of a record exactly when its fields are the record's. -/
theorem packToken_eq_iff (k : Token) (w : Word) : packToken k = w ↔ unpackToken w = k := by
  obtain ⟨id, band, ctx, skip, sign, extra, type, reserved⟩ := k
  refine (append_cast_eq_iff (k := 32) (8 + 2 + 11 + 1 + 1 + 2 + 3) 4 rfl _ _ w).trans ?_
  simp only [append_eq_extractLsb'_iff]
  simp only [unpackToken, Token.mk.injEq, Nat.reduceAdd]
  tauto

@[simp] theorem unpackToken_packToken (k : Token) : unpackToken (packToken k) = k := (packToken_eq_iff k _).1 rfl

theorem packToken_unpackToken (w : Word) : packToken (unpackToken w) = w := (packToken_eq_iff _ w).2 rfl

/-- A bit string in two parts as a number. -/
theorem toNat_append_eq_add {m n : Nat} (x : BitVec m) (y : BitVec n) : (x ++ y).toNat = 2 ^ n * x.toNat + y.toNat := by
  rw [BitVec.toNat_append, ← Nat.shiftLeft_add_eq_or_of_lt y.isLt, Nat.shiftLeft_eq, Nat.mul_comm]

theorem packToken_toNat (k : Token) : (packToken k).toNat =
    k.id.toNat + 2 ^ 4 * k.band.toNat + 2 ^ 7 * k.ctx.toNat + 2 ^ 9 * k.skip.toNat + 2 ^ 10 * k.sign.toNat +
      2 ^ 11 * k.extra.toNat + 2 ^ 22 * k.type.toNat + 2 ^ 24 * k.reserved.toNat := by
  simp only [packToken, toNat_append_eq_add]
  omega

/-! ## The validation -/

/-- The six conditions of the validation (44_tokenizer.md R197). -/
theorem tokenValid_iff (k : Token) : tokenValid k = true ↔
    k.reserved = 0 ∧ k.id.toNat ≤ 11 ∧ k.ctx ≠ 3 ∧ ¬(k.id = 11 ∧ k.skip = 1) ∧ ¬((k.id = 0 ∨ k.id = 11) ∧ k.sign = 1) ∧
      k.extra.toNat < 2 ^ tokenBits k.id.toNat := by
  simp only [tokenValid, Bool.and_eq_true, Bool.not_eq_true', bne_iff_ne, beq_iff_eq, decide_eq_true_eq, and_assoc,
    ← Bool.not_eq_true, Bool.or_eq_true]

/-! ## The bools -/

/-- The paths of the ids in the token tree, from its root (44_tokenizer.md R195). -/
def tokenPaths : List Path :=
  [ [(0, true), (2, false)],
    [(0, true), (2, true), (4, false)],
    [(0, true), (2, true), (4, true), (6, false), (8, false)],
    [(0, true), (2, true), (4, true), (6, false), (8, true), (10, false)],
    [(0, true), (2, true), (4, true), (6, false), (8, true), (10, true)],
    [(0, true), (2, true), (4, true), (6, true), (12, false), (14, false)],
    [(0, true), (2, true), (4, true), (6, true), (12, false), (14, true)],
    [(0, true), (2, true), (4, true), (6, true), (12, true), (16, false), (18, false)],
    [(0, true), (2, true), (4, true), (6, true), (12, true), (16, false), (18, true)],
    [(0, true), (2, true), (4, true), (6, true), (12, true), (16, true), (20, false)],
    [(0, true), (2, true), (4, true), (6, true), (12, true), (16, true), (20, true)],
    [(0, false)] ]

/-- The search finds the path of each id from the root. -/
theorem findPath_coefTree {id : Nat} (hid : id ≤ 11) : findPath coefTree 22 0 id 0 = .ok (tokenPaths.getD id []) := by
  interval_cases id <;> rfl

/-- Every path but that of EOB goes through node 2, where the search starts when the EOB branch is skipped. -/
theorem findPath_coefTree_skip {id : Nat} (hid : id ≤ 10) :
    findPath coefTree 22 0 id 2 = .ok ((tokenPaths.getD id []).drop 1) := by
  interval_cases id <;> rfl

theorem tokenPath_of_valid {k : Token} (hk : tokenValid k = true) :
    tokenPath k = .ok ((tokenPaths.getD k.id.toNat []).drop k.skip.toNat) := by
  obtain ⟨-, hid, -, hskip, -, -⟩ := (tokenValid_iff k).1 hk
  unfold tokenPath
  obtain h0 | h1 := BitVec.eq_zero_or_eq_one k.skip
  · rw [h0]
    exact findPath_coefTree hid
  · have hne : k.id.toNat ≠ 11 := fun h => hskip ⟨BitVec.eq_of_toNat_eq h, h1⟩
    rw [h1]
    exact findPath_coefTree_skip (by omega)

/-- Each extra bit of an id has its probability (44_tokenizer.md R189, R196). -/
theorem extraProbs_length : ∀ id < 16, (extraProbs id).length = tokenBits id := by decide

/-- The table of the probabilities, as the spec writes it. -/
theorem extraProbs_eq_getD : ∀ id < 16, extraProbs id =
    ([ [], [], [], [], [], [159], [165, 145], [173, 148, 140], [176, 155, 140, 135], [180, 157, 141, 134, 130],
      [254, 254, 243, 230, 196, 177, 153, 140, 133, 130, 129], [] ] : List (List Nat)).getD id [] := by
  decide

theorem tokenBools_of_valid {k : Token} (hk : tokenValid k = true) (m : Memory) :
    tokenBools m k =
      pathBools (tokenProb m k) ((tokenPaths.getD k.id.toNat []).drop k.skip.toNat) ++ extraBools k ++ signBools k :=
  tokenBools_of_path (tokenPath_of_valid hk) m

/-- A record is ready exactly when it is valid and all its bools can be coded; no fixed probability is 0. -/
theorem tokenReady_iff_bools (m : Memory) (k : Token) :
    tokenReady m k = true ↔ tokenValid k = true ∧ ∀ b ∈ tokenBools m k, b.2 ≠ 0 := by
  constructor
  · intro hready
    obtain ⟨hvalid, -⟩ := (tokenReady_iff m k).1 hready
    exact ⟨hvalid, fun b hb => Nat.one_le_iff_ne_zero.1 (validBools_tokenBools hready b hb).1⟩
  · rintro ⟨hvalid, hbools⟩
    refine (tokenReady_iff m k).2 ⟨hvalid, _, tokenPath_of_valid hvalid, fun node hnode => ?_⟩
    refine hbools (node.2, tokenProb m k (node.1 / 2)) ?_
    rw [tokenBools_of_valid hvalid, List.append_assoc]
    exact List.mem_append_left _ (List.mem_map_of_mem hnode)

end Sys2Proof.Machine

namespace Sys2Proof.Proofs

open Sys2Proof.Machine

/-- Settles O55. -/
theorem tokenRecordRoundTrip : Obligations.TokenRecordRoundTrip :=
  ⟨unpackToken_packToken, packToken_unpackToken, packToken_toNat⟩

end Sys2Proof.Proofs
end

section
/-! PROOFS. PUTTOK writes its tokens in turn and stops ahead of one that is not ready (44_tokenizer.md R197; 60_exceptions.md
R215). -/

namespace Sys2Proof.Machine

/-! ## Tokens written -/

/-- What the tokens written leave outside the coder tuple, `TKRP` and the stream. -/
theorem State.TokensWritten.frame {s t : State} {j : Nat} (h : s.TokensWritten j t) :
    t = { s with
      bcRange := t.bcRange, bcLow := t.bcLow, bcCount := t.bcCount, bcPos := t.bcPos, mem := t.mem, tkrp := t.tkrp } := by
  obtain ⟨-, c, rfl⟩ := h
  rfl

theorem State.TokensWritten.tkrp_toNat {s t : State} {j : Nat} (h : s.TokensWritten j t)
    (hj : s.tkrp.toNat + j ≤ 16384) : t.tkrp.toNat = s.tkrp.toNat + j := by
  obtain ⟨-, c, rfl⟩ := h
  exact Nat.mod_eq_of_lt (by omega)

/-- The record `TKRP` points at after `j` tokens is the one that stood there before the first. -/
theorem State.TokensWritten.record_eq {s t : State} {j : Nat} (h : s.TokensWritten j t)
    (hj : s.tkrp.toNat + j < 16384) : t.record 0 = s.record j := by
  have htkrp := h.tkrp_toNat hj.le
  rw [State.record, State.record, htkrp]
  exact congrArg unpackToken (tokm_congr h.1.read_below hj)

/-- A record that is not ready does not become so by the bytes of `OBUF`. -/
theorem tokenReady_eq_false_congr {m m' : Memory} (h : ∀ a < 0x20000, m'.read a = m.read a) {k : Token}
    (hk : tokenReady m k = false) : tokenReady m' k = false := by
  rw [← Bool.not_eq_true] at hk ⊢
  exact fun hready => hk (tokenReady_congr (fun a ha => (h a ha).symm) hready).1

/-! ## A token that is not ready -/

theorem tokenReady_eq_false_of_not_valid (m : Memory) {k : Token} (hk : tokenValid k = false) :
    tokenReady m k = false := by
  rw [tokenReady, hk, Bool.false_and]

/-- The record is validated before the probabilities (44_tokenizer.md R197). -/
theorem putToken_of_not_ready {s : State} (h : tokenReady s.mem (s.record 0) = false) :
    putToken s = .raised (if tokenValid (s.record 0) then .prob0 else .token) s := by
  have hrecord : unpackToken (s.mem.tokm s.tkrp.toNat) = s.record 0 := rfl
  rw [← Bool.not_eq_true, tokenReady_iff] at h
  rw [putToken, hrecord]
  by_cases hvalid : tokenValid (s.record 0) = true
  · have hpath := tokenPath_of_valid hvalid
    generalize List.drop _ _ = path at hpath
    have hzero : (path.any fun node => tokenProb s.mem (s.record 0) (node.1 / 2) == 0) = true := by
      by_contra hnone
      refine h ⟨hvalid, path, hpath, fun node hnode hp => hnone (List.any_eq_true.2 ⟨node, hnode, ?_⟩)⟩
      exact beq_iff_eq.2 hp
    simp only [hpath]
    rw [if_neg (by simp [hvalid]), if_pos hzero, if_pos hvalid]
  · rw [if_neg hvalid]
    exact if_pos (Bool.not_eq_true _ ▸ hvalid)

theorem putTokens_of_not_ready {s t : State} {count j : Nat} (hj : j < count) (ht : putTokens j s = .done t)
    (h : tokenReady t.mem (t.record 0) = false) :
    putTokens count s = .raised (if tokenValid (t.record 0) then .prob0 else .token) t := by
  obtain ⟨rest, rfl⟩ : ∃ rest, count = j + (rest + 1) := ⟨count - j - 1, by omega⟩
  rw [putTokens_add ht]
  exact putTokens_succ_of_raised (putToken_of_not_ready h)

/-! ## The checks before any token -/

theorem exec_puttok_tokPtr {count : BitVec 16} {s : State}
    (h : ¬(s.tkrp.toNat + count.toNat ≤ s.tkwp.toNat ∧ s.tkwp.toNat ≤ s.cfg.ntok)) :
    exec (.puttok count) s = .next (s.raise .tokPtr (encode (.puttok count))) := by
  change execPuttok count s = _
  rw [execPuttok, if_pos h]
  rfl

theorem exec_puttok_inactive {count : BitVec 16} {s : State} (hcount : s.tkrp.toNat + count.toNat ≤ s.tkwp.toNat)
    (htkwp : s.tkwp.toNat ≤ s.cfg.ntok) (hpos : 0 < count.toNat) (hactive : s.bcActive = 0) :
    exec (.puttok count) s = .next (s.raise .notActive (encode (.puttok count))) := by
  change execPuttok count s = _
  rw [execPuttok, if_neg (not_not.2 ⟨hcount, htkwp⟩), if_pos ⟨hpos, s.active_eq_false_iff.2 hactive⟩]
  rfl

theorem exec_puttok_zero {s : State} (hcount : s.tkrp.toNat ≤ s.tkwp.toNat) (htkwp : s.tkwp.toNat ≤ s.cfg.ntok) :
    exec (.puttok 0) s = .next s := by
  change execPuttok 0 s = _
  rw [execPuttok, if_neg (not_not.2 ⟨hcount, htkwp⟩), if_neg (fun h => Nat.lt_irrefl 0 h.1)]
  rfl

end Sys2Proof.Machine

namespace Sys2Proof.Proofs

open Sys2Proof.Machine

/-- Settles O59: the search in the token tree finds the bools of a valid record, and the tokens are written in turn. -/
theorem puttokCodesItsRecords : Obligations.PuttokCodesItsRecords := by
  refine ⟨?bools, fun count s hwf hcount htkwp => ⟨?zero, ?tokens⟩⟩
  case bools =>
    intro paths extraProbabilities m k hk prob extras
    have hid : k.id.toNat < 16 := k.id.isLt
    have hextras : extras = extraProbs k.id.toNat := (extraProbs_eq_getD _ hid).symm
    rw [tokenBools_of_valid hk, extraBools, hextras, ← extraProbs_length _ hid]
    rfl
  case zero =>
    rintro rfl
    exact exec_puttok_zero hcount htkwp
  case tokens =>
    intro hactive hs record bools hready hroom
    obtain ⟨hntok, -⟩ := (config_wf_iff s.cfg).1 hwf
    obtain ⟨t, ht, hwritten⟩ := putTokens_of_hasRoom hs hactive (by omega) hready hroom
    refine ⟨t, ?_, hwritten.1.codedAs, hwritten.tkrp_toNat (by omega), hwritten.frame⟩
    rw [exec_puttok hactive hcount htkwp, ht]
    rfl

/-- Settles O60: the tokens before the one that is not ready are written, and leave its record as it was. -/
theorem puttokFaultsBeforeATokenArePrecise : Obligations.PuttokFaultsBeforeATokenArePrecise := by
  refine ⟨tokenValid_iff, tokenReady_iff_bools, ?_⟩
  intro count s w record
  refine ⟨exec_puttok_tokPtr, fun hcount htkwp hne => ?_⟩
  have hpos : 0 < count.toNat := Nat.pos_of_ne_zero fun h => hne (BitVec.eq_of_toNat_eq h)
  have hstop {j : Nat} {t : State} (hactive : s.bcActive = 1) (hj : j < count.toNat) (ht : putTokens j s = .done t)
      (hready : tokenReady t.mem (t.record 0) = false) :
      exec (.puttok count) s = .next (t.raise (if tokenValid (t.record 0) then .prob0 else .token) w) := by
    rw [exec_puttok hactive hcount htkwp, putTokens_of_not_ready hj ht hready]
    rfl
  refine ⟨exec_puttok_inactive hcount htkwp hpos, fun hactive hvalid => ?_, fun hactive hvalid hready => ?_, ?_⟩
  · have hfirst := hstop hactive hpos rfl (tokenReady_eq_false_of_not_valid s.mem hvalid)
    rwa [if_neg (by exact Bool.eq_false_iff.1 hvalid)] at hfirst
  · have hfirst := hstop hactive hpos rfl hready
    rwa [if_pos (by exact hvalid)] at hfirst
  · intro j hj hwf hactive hs written hready hroom hlast
    obtain ⟨hntok, -⟩ := (config_wf_iff s.cfg).1 hwf
    obtain ⟨t, ht, hwritten⟩ := putTokens_of_hasRoom hs hactive (by omega) hready hroom
    have hrecord : t.record 0 = record j := hwritten.record_eq (by omega)
    have hlast' : tokenReady t.mem (t.record 0) = false :=
      hrecord ▸ tokenReady_eq_false_congr hwritten.1.read_below hlast
    exact ⟨t, hrecord ▸ hstop hactive hj ht hlast', hwritten.1.codedAs, hwritten.tkrp_toNat (by omega), hwritten.frame⟩

end Sys2Proof.Proofs
end

section
/-! PROOFS. The records TKN makes of a block, position by position (44_tokenizer.md R186 to R191). -/

namespace Sys2Proof.Machine

/-! ## Magnitudes -/

theorem magId_le (m : Nat) : magId m ≤ 10 := by
  unfold magId
  split_ifs <;> omega

theorem magId_of_le {m : Nat} (h : m ≤ 4) : magId m = m := if_pos h

/-- The magnitudes above 4 have the ids of the categories. -/
theorem four_lt_magId {m : Nat} (h : 4 < m) : 4 < magId m := by
  unfold magId
  split_ifs <;> omega

/-- The magnitudes up to 4, and no other, are their own ids. -/
theorem magId_eq_iff {id : Nat} (hid : id ≤ 4) (m : Nat) : magId m = id ↔ m = id := by
  obtain h | h := Nat.lt_or_ge 4 m
  · have hmag := four_lt_magId h
    omega
  · rw [magId_of_le h]

theorem magId_eq_zero_iff (m : Nat) : magId m = 0 ↔ m = 0 := magId_eq_iff (by decide) m

theorem magId_eq_one_iff (m : Nat) : magId m = 1 ↔ m = 1 := magId_eq_iff (by decide) m

theorem magToken_of_magId {m id : Nat} (h : magId m = id) : magToken m = (id, m - catBase id) := by rw [magToken, h]

/-- The ids and extra values of the magnitudes (44_tokenizer.md R189). -/
theorem magToken_ranges (m : Nat) : (m ≤ 4 → magToken m = (m, 0)) ∧ (5 ≤ m → m ≤ 6 → magToken m = (5, m - 5)) ∧
    (7 ≤ m → m ≤ 10 → magToken m = (6, m - 7)) ∧ (11 ≤ m → m ≤ 18 → magToken m = (7, m - 11)) ∧
    (19 ≤ m → m ≤ 34 → magToken m = (8, m - 19)) ∧ (35 ≤ m → m ≤ 66 → magToken m = (9, m - 35)) ∧
    (67 ≤ m → m ≤ 2114 → magToken m = (10, m - 67)) := by
  have hsmall : m ≤ 4 → m - catBase m = 0 := fun h => by interval_cases m <;> rfl
  refine ⟨fun h => ?_, fun h h' => ?_, fun h h' => ?_, fun h h' => ?_, fun h h' => ?_, fun h h' => ?_, fun h h' => ?_⟩
  · rw [magToken_of_magId (magId_of_le h), hsmall h]
  all_goals
    refine magToken_of_magId ?_
    unfold magId
    split_ifs <;> omega

/-- The extra value of a magnitude a token can carry fits its extra bits (44_tokenizer.md R189). -/
theorem magToken_extra_lt {m : Nat} (hm : m ≤ maxMagnitude) : (magToken m).2 < 2 ^ tokenBits (magToken m).1 := by
  have hm' : m ≤ 2114 := hm
  simp only [magToken]
  unfold magId
  split_ifs
  case pos hsmall => interval_cases m <;> decide
  all_goals
    simp only [catBase, tokenBits, List.getD_cons_succ, List.getD_cons_zero]
    omega

theorem tokenBits_le (id : Nat) : tokenBits id ≤ 11 := by
  by_cases h : id < 12
  · interval_cases id <;> decide
  · rw [tokenBits, List.getD_eq_default _ _ (by simpa using h)]
    decide

theorem bandOf_lt (c : Nat) : bandOf c < 8 := by
  by_cases h : c < 16
  · interval_cases c <;> decide
  · rw [bandOf, List.getD_eq_default _ _ (by simpa using h)]
    decide

/-! ## The record of a position -/

/-- The magnitude of the coefficient at a position. -/
def coefMag (x : Block) (c : Nat) : Nat := (lane x (zigzag c)).natAbs

/-- The context of position `c`: that of the command at the first one, then that the coefficient before gives. -/
def ctxAt (x : Block) (c0 : BitVec 2) (first c : Nat) : BitVec 2 :=
  if c = first then c0 else if coefMag x (c - 1) = 0 then 0 else if coefMag x (c - 1) = 1 then 1 else 2

/-- The skip bit of position `c`: set after a coefficient 0. -/
def skipAt (x : Block) (first c : Nat) : BitVec 1 := if c = first then 0 else if coefMag x (c - 1) = 0 then 1 else 0

/-- The record of position `c`: that of its coefficient, and from `stop` on the EOB record. -/
def tokenAt (x : Block) (t c0 : BitVec 2) (first stop c : Nat) : Token :=
  if c < stop then coefToken t (ctxAt x c0 first c) (skipAt x first c) c (lane x (zigzag c))
  else eobToken t (ctxAt x c0 first c) (skipAt x first c) c

theorem ctxAt_first (x : Block) (c0 : BitVec 2) (first : Nat) : ctxAt x c0 first first = c0 := if_pos rfl

theorem skipAt_first (x : Block) (first : Nat) : skipAt x first first = 0 := if_pos rfl

theorem ctxAt_succ (x : Block) (c0 : BitVec 2) {first c : Nat} (hc : first ≤ c) :
    ctxAt x c0 first (c + 1) = nextContext (magToken (coefMag x c)).1 := by
  rw [ctxAt, if_neg (by omega), Nat.add_sub_cancel]
  simp only [nextContext, magToken, magId_eq_zero_iff, magId_eq_one_iff]

theorem skipAt_succ (x : Block) {first c : Nat} (hc : first ≤ c) :
    skipAt x first (c + 1) = if (magToken (coefMag x c)).1 = 0 then 1 else 0 := by
  rw [skipAt, if_neg (by omega), Nat.add_sub_cancel]
  simp only [magToken, magId_eq_zero_iff]

theorem ctxAt_ne_three (x : Block) {c0 : BitVec 2} (hc0 : c0 ≠ 3) (first c : Nat) : ctxAt x c0 first c ≠ 3 := by
  unfold ctxAt
  split_ifs
  · exact hc0
  all_goals decide

theorem ctxAt_toNat (x : Block) (c0 : BitVec 2) (first c : Nat) : (ctxAt x c0 first c).toNat =
    if c = first then c0.toNat else if coefMag x (c - 1) = 0 then 0 else if coefMag x (c - 1) = 1 then 1 else 2 := by
  unfold ctxAt
  split_ifs <;> rfl

theorem skipAt_toNat (x : Block) (first c : Nat) : (skipAt x first c).toNat =
    if c = first then 0 else if coefMag x (c - 1) = 0 then 1 else 0 := by
  unfold skipAt
  split_ifs <;> rfl

theorem coefToken_id_toNat (t ctx : BitVec 2) (skip : BitVec 1) (c : Nat) (v : Int) :
    (coefToken t ctx skip c v).id.toNat = (magToken v.natAbs).1 := by
  have hid := magId_le v.natAbs
  exact Nat.mod_eq_of_lt (by change magId v.natAbs < 16; omega)

theorem coefToken_extra_toNat (t ctx : BitVec 2) (skip : BitVec 1) (c : Nat) {v : Int} (hv : v.natAbs ≤ maxMagnitude) :
    (coefToken t ctx skip c v).extra.toNat = (magToken v.natAbs).2 := by
  refine Nat.mod_eq_of_lt (Nat.lt_of_lt_of_le (magToken_extra_lt hv) ?_)
  exact Nat.pow_le_pow_right Nat.two_pos (tokenBits_le _)

theorem coefToken_sign_toNat (t ctx : BitVec 2) (skip : BitVec 1) (c : Nat) (v : Int) :
    (coefToken t ctx skip c v).sign.toNat = if v < 0 then 1 else 0 := by
  unfold coefToken
  simp only
  split_ifs <;> rfl

theorem bandOf_toNat (c : Nat) : (BitVec.ofNat 3 (bandOf c)).toNat = bandOf c := Nat.mod_eq_of_lt (bandOf_lt c)

theorem recordAt_eq (x : Block) (t c0 : BitVec 2) (first n c : Nat) : recordAt x t c0 first n c =
    (if c < n then
        (magToken (coefMag x c)).1 + 512 * (skipAt x first c).toNat + 1024 * (if lane x (zigzag c) < 0 then 1 else 0) +
          2048 * (magToken (coefMag x c)).2
      else 11) + 16 * bandOf c + 128 * (ctxAt x c0 first c).toNat + 2 ^ 22 * t.toNat := by
  rw [ctxAt_toNat, skipAt_toNat]
  rfl

theorem packToken_coefToken (t ctx : BitVec 2) (skip : BitVec 1) (c : Nat) {v : Int} (hv : v.natAbs ≤ maxMagnitude) :
    (packToken (coefToken t ctx skip c v)).toNat =
      (magToken v.natAbs).1 + 512 * skip.toNat + 1024 * (if v < 0 then 1 else 0) + 2048 * (magToken v.natAbs).2 +
        16 * bandOf c + 128 * ctx.toNat + 2 ^ 22 * t.toNat := by
  rw [packToken_toNat, coefToken_id_toNat, coefToken_extra_toNat _ _ _ _ hv, coefToken_sign_toNat]
  change _ + 2 ^ 4 * (BitVec.ofNat 3 (bandOf c)).toNat + 2 ^ 7 * ctx.toNat + 2 ^ 9 * skip.toNat + _ + _ +
    2 ^ 22 * t.toNat + 2 ^ 24 * 0 = _
  rw [bandOf_toNat]
  omega

theorem packToken_eobToken (t ctx : BitVec 2) (skip : BitVec 1) (c : Nat) :
    (packToken (eobToken t ctx skip c)).toNat =
      11 + 512 * skip.toNat + 16 * bandOf c + 128 * ctx.toNat + 2 ^ 22 * t.toNat := by
  rw [packToken_toNat]
  change 11 + 2 ^ 4 * (BitVec.ofNat 3 (bandOf c)).toNat + 2 ^ 7 * ctx.toNat + 2 ^ 9 * skip.toNat + 2 ^ 10 * 0 +
    2 ^ 11 * 0 + 2 ^ 22 * t.toNat + 2 ^ 24 * 0 = _
  rw [bandOf_toNat]
  omega

/-- The word of a record is the number its fields make, when an EOB record has no skip bit (44_tokenizer.md R188, R190). -/
theorem packToken_tokenAt {x : Block} (t c0 : BitVec 2) {first n c : Nat} (hfirst : first ≤ c)
    (hmag : c < n → coefMag x c ≤ maxMagnitude) (hskip : n ≤ c → skipAt x first c = 0) :
    (packToken (tokenAt x t c0 first (max first n) c)).toNat = recordAt x t c0 first n c := by
  have hstop : c < max first n ↔ c < n := by omega
  simp only [tokenAt, hstop, recordAt_eq]
  by_cases hc : c < n
  · rw [if_pos hc, if_pos hc, packToken_coefToken _ _ _ _ (hmag hc)]
    rfl
  · rw [if_neg hc, if_neg hc, packToken_eobToken, hskip (Nat.le_of_not_lt hc)]
    rfl

/-! ## The records of a block -/

/-- The Block invariant as the spec writes it (44_tokenizer.md R190). -/
theorem eobAgrees_iff (x : Block) (n : Nat) : eobAgrees x n = true ↔
    n ≤ 16 ∧ (1 ≤ n → lane x (zigzag (n - 1)) ≠ 0) ∧ ∀ k, n ≤ k → k < 16 → lane x (zigzag k) = 0 := by
  simp only [eobAgrees, Bool.and_eq_true, decide_eq_true_eq, Bool.not_eq_true', Bool.and_eq_false_imp, beq_eq_false_iff_ne,
    List.all_eq_true, List.mem_range'_1, beq_iff_eq, and_assoc, and_imp]
  refine and_congr_right fun hn => ?_
  rw [Nat.add_sub_cancel' hn]

/-- The coefficient before the EOB record is not 0, so its skip bit is 0 (44_tokenizer.md R190). -/
theorem skipAt_stop {x : Block} {first n : Nat} (hbefore : 1 ≤ n → lane x (zigzag (n - 1)) ≠ 0) :
    skipAt x first (max first n) = 0 := by
  unfold skipAt
  by_cases h : n ≤ first
  · exact if_pos (max_eq_left h)
  · have hmag : coefMag x (n - 1) ≠ 0 := Int.natAbs_ne_zero.2 (hbefore (by omega))
    rw [max_eq_right (by omega), if_neg (by omega), if_neg hmag]

/-- The number of records of a block whose tag is `n` (44_tokenizer.md R190). -/
def tokenCount (first n : Nat) : Nat := max first n - first + if max first n < 16 then 1 else 0

theorem tokenCount_bounds {first n : Nat} (hfirst : first ≤ 1) (hn : n ≤ 16) :
    1 ≤ tokenCount first n ∧ tokenCount first n ≤ 16 := by
  unfold tokenCount
  split <;> omega

theorem firstPosition_le (t : BitVec 2) : firstPosition t ≤ 1 := by
  unfold firstPosition
  split <;> omega

/-- The records of a block whose tag is `n`, position by position. -/
def blockTokens (x : Block) (t c0 : BitVec 2) (first n : Nat) : List Token :=
  (List.range' first (tokenCount first n)).map (tokenAt x t c0 first (max first n))

@[simp] theorem blockTokens_length (x : Block) (t c0 : BitVec 2) (first n : Nat) :
    (blockTokens x t c0 first n).length = tokenCount first n := by
  rw [blockTokens, List.length_map, List.length_range']

theorem blockTokens_getElem (x : Block) (t c0 : BitVec 2) (first n : Nat) {j : Nat}
    (hj : j < (blockTokens x t c0 first n).length) :
    (blockTokens x t c0 first n)[j] = tokenAt x t c0 first (max first n) (first + j) := by
  simp [blockTokens]

/-- The last record is at most that of the tag or of the first position. -/
theorem le_stop_of_lt_length {x : Block} {t c0 : BitVec 2} {first n j : Nat}
    (hj : j < (blockTokens x t c0 first n).length) : first + j ≤ max first n := by
  rw [blockTokens_length, tokenCount] at hj
  split at hj <;> omega

/-- The word of each record is the one the spec gives its position. -/
theorem packToken_blockTokens {x : Block} (t c0 : BitVec 2) {first n j : Nat}
    (hbefore : 1 ≤ n → lane x (zigzag (n - 1)) ≠ 0) (hmag : ∀ k, first ≤ k → k < n → coefMag x k ≤ maxMagnitude)
    (hj : j < (blockTokens x t c0 first n).length) :
    (packToken (blockTokens x t c0 first n)[j]).toNat = recordAt x t c0 first n (first + j) := by
  have hfirst : first ≤ first + j := Nat.le_add_right first j
  rw [blockTokens_getElem]
  refine packToken_tokenAt t c0 hfirst (hmag _ hfirst) fun hend => ?_
  have hlast : first + j = max first n := le_antisymm (le_stop_of_lt_length hj) (max_le hfirst hend)
  rw [hlast, skipAt_stop hbefore]

theorem tokensFrom_cons (x : Block) (t : BitVec 2) (stop c : Nat) (rest : List Nat) (ctx : BitVec 2) (skip : BitVec 1) :
    tokensFrom x t stop (c :: rest) ctx skip =
      if maxMagnitude < coefMag x c then none
      else
        (tokensFrom x t stop rest (nextContext (magToken (coefMag x c)).1)
          (if (magToken (coefMag x c)).1 = 0 then 1 else 0)).map (coefToken t ctx skip c (lane x (zigzag c)) :: ·) := rfl

theorem tokensFrom_eq_none {x : Block} {t : BitVec 2} {stop c : Nat} {positions : List Nat} (hc : c ∈ positions)
    (hmag : maxMagnitude < coefMag x c) (ctx : BitVec 2) (skip : BitVec 1) :
    tokensFrom x t stop positions ctx skip = none := by
  induction positions generalizing ctx skip with
  | nil => exact absurd hc List.not_mem_nil
  | cons c' rest ih =>
    rw [tokensFrom_cons]
    split
    · rfl
    next hle =>
      obtain rfl | hrest := List.mem_cons.1 hc
      · exact absurd hmag hle
      · rw [ih hrest]
        rfl

/-- The context and the skip bit handed on are those of the next position. -/
theorem tokensFrom_range' {x : Block} (t c0 : BitVec 2) {first stop : Nat} (len : Nat) {c : Nat} (hc : first ≤ c)
    (hstop : c + len = stop) (hmag : ∀ k, c ≤ k → k < stop → coefMag x k ≤ maxMagnitude) :
    tokensFrom x t stop (List.range' c len) (ctxAt x c0 first c) (skipAt x first c) =
      some ((List.range' c (len + if stop < 16 then 1 else 0)).map (tokenAt x t c0 first stop)) := by
  induction len generalizing c with
  | zero =>
    obtain rfl : c = stop := hstop
    have heob : tokenAt x t c0 first c c = eobToken t (ctxAt x c0 first c) (skipAt x first c) c := if_neg (lt_irrefl c)
    change some _ = _
    split
    · exact congrArg (fun k => some [k]) heob.symm
    · rfl
  | succ len ih =>
    have hlt : c < stop := by omega
    have hcoef : tokenAt x t c0 first stop c =
        coefToken t (ctxAt x c0 first c) (skipAt x first c) c (lane x (zigzag c)) := if_pos hlt
    have htail := ih (Nat.le_succ_of_le hc) (by omega) fun k hk hk' => hmag k (by omega) hk'
    rw [ctxAt_succ x c0 hc, skipAt_succ x hc] at htail
    rw [List.range'_succ, tokensFrom_cons, if_neg (Nat.not_lt.2 (hmag c le_rfl hlt)), htail, Nat.add_right_comm,
      List.range'_succ, List.map_cons, hcoef]
    rfl

/-- TKN records each position from the first to the tag, and the EOB record below position 16 (44_tokenizer.md R190). -/
theorem tokenize_eq_some {x : Block} {t : BitVec 2} (c0 : BitVec 2) {n : Nat}
    (hmag : ∀ k, firstPosition t ≤ k → k < n → coefMag x k ≤ maxMagnitude) :
    tokenize x t c0 n = some (blockTokens x t c0 (firstPosition t) n) := by
  have hlen : n - firstPosition t = max (firstPosition t) n - firstPosition t := by omega
  have hall := tokensFrom_range' t c0 (stop := max (firstPosition t) n) (n - firstPosition t) le_rfl (by omega)
    fun k hk hk' => hmag k hk (by omega)
  rw [ctxAt_first, skipAt_first] at hall
  rw [blockTokens, tokenCount, ← hlen]
  exact hall

theorem tokenize_eq_none {x : Block} {t : BitVec 2} (c0 : BitVec 2) {n k : Nat} (hfirst : firstPosition t ≤ k)
    (hk : k < n) (hmag : maxMagnitude < coefMag x k) : tokenize x t c0 n = none :=
  tokensFrom_eq_none (List.mem_range'_1.2 ⟨hfirst, by omega⟩) hmag c0 0

/-- Only a block whose recorded magnitudes all have a token is tokenized. -/
theorem eq_of_tokenize_eq_some {x : Block} {t c0 : BitVec 2} {n : Nat} {tokens : List Token}
    (h : tokenize x t c0 n = some tokens) :
    (∀ k, firstPosition t ≤ k → k < n → coefMag x k ≤ maxMagnitude) ∧
      tokens = blockTokens x t c0 (firstPosition t) n := by
  have hmag : ∀ k, firstPosition t ≤ k → k < n → coefMag x k ≤ maxMagnitude := by
    intro k hfirst hk
    by_contra hlarge
    cases h.symm.trans (tokenize_eq_none c0 hfirst hk (Nat.lt_of_not_le hlarge))
  exact ⟨hmag, Option.some.inj (h.symm.trans (tokenize_eq_some c0 hmag))⟩

/-! ## The validation of the records -/

theorem tokenValid_coefToken (t : BitVec 2) {ctx : BitVec 2} (hctx : ctx ≠ 3) (skip : BitVec 1) (c : Nat) {v : Int}
    (hv : v.natAbs ≤ maxMagnitude) : tokenValid (coefToken t ctx skip c v) = true := by
  have hid : (coefToken t ctx skip c v).id.toNat = magId v.natAbs := coefToken_id_toNat t ctx skip c v
  have hle := magId_le v.natAbs
  have hne : (coefToken t ctx skip c v).id ≠ 11 := fun h => by
    have h11 : magId v.natAbs = 11 := hid.symm.trans (congrArg BitVec.toNat h)
    omega
  refine (tokenValid_iff _).2 ⟨rfl, by omega, hctx, fun h => hne h.1, ?_, ?_⟩
  · rintro ⟨h0 | h11, hsign⟩
    · have hzero : v.natAbs = 0 := (magId_eq_zero_iff _).1 (hid.symm.trans (congrArg BitVec.toNat h0))
      have hsign' := (coefToken_sign_toNat t ctx skip c v).symm.trans (congrArg BitVec.toNat hsign)
      rw [if_neg (by omega)] at hsign'
      exact absurd hsign' (by decide)
    · exact hne h11
  · rw [coefToken_extra_toNat _ _ _ _ hv, coefToken_id_toNat]
    exact magToken_extra_lt hv

theorem tokenValid_eobToken (t : BitVec 2) {ctx : BitVec 2} (hctx : ctx ≠ 3) (c : Nat) :
    tokenValid (eobToken t ctx 0 c) = true :=
  have hbit : (0 : BitVec 1) ≠ 1 := by decide
  (tokenValid_iff _).2 ⟨rfl, le_refl 11, hctx, fun h => hbit h.2, fun h => hbit h.2, Nat.two_pow_pos _⟩

/-- The EOB record follows a coefficient that is not 0, so it is valid too. -/
theorem tokenValid_of_mem_blockTokens {x : Block} {t c0 : BitVec 2} (hc0 : c0 ≠ 3) {first n : Nat}
    (hbefore : 1 ≤ n → lane x (zigzag (n - 1)) ≠ 0) (hmag : ∀ k, first ≤ k → k < n → coefMag x k ≤ maxMagnitude)
    {k : Token} (hk : k ∈ blockTokens x t c0 first n) : tokenValid k = true := by
  obtain ⟨j, hj, rfl⟩ := List.mem_iff_getElem.1 hk
  have hle := le_stop_of_lt_length hj
  rw [blockTokens_getElem, tokenAt]
  split
  next hlt => exact tokenValid_coefToken t (ctxAt_ne_three x hc0 first _) _ _ (hmag _ (by omega) (by omega))
  next hend =>
    have hlast : first + j = max first n := le_antisymm hle (Nat.le_of_not_lt hend)
    rw [hlast, skipAt_stop hbefore]
    exact tokenValid_eobToken t (ctxAt_ne_three x hc0 first _) _

end Sys2Proof.Machine

namespace Sys2Proof.Proofs

open Sys2Proof.Machine

/-- Settles O57: the records are those of the positions, which are valid. -/
theorem tknRecordsPassValidation : Obligations.TknRecordsPassValidation := by
  refine ⟨eobAgrees_iff, fun x t c0 n tokens hc0 hagrees htokens => ?_⟩
  obtain ⟨hn, hbefore, -⟩ := (eobAgrees_iff x n).1 hagrees
  obtain ⟨hmag, rfl⟩ := eq_of_tokenize_eq_some htokens
  obtain ⟨hpos, hle⟩ := tokenCount_bounds (firstPosition_le t) hn
  rw [blockTokens_length]
  refine ⟨hpos, hle, fun k hk => ?_⟩
  have hvalid : tokenValid k = true := tokenValid_of_mem_blockTokens hc0 hbefore hmag hk
  rw [unpackToken_packToken]
  exact ⟨(tokenValid_iff k).1 hvalid, rfl, hvalid, hvalid⟩

end Sys2Proof.Proofs
end

section
/-! PROOFS. TKN: its checks in their order, and the entries of `TOKM` it writes (44_tokenizer.md R190; 60_exceptions.md R215,
R217). -/

namespace Sys2Proof.Machine

/-! ## The stores of TKN -/

/-- The stores of TKN change memory alone. -/
theorem storeTokens_frame (k : Nat) (tokens : List Token) (s : State) :
    storeTokens k tokens s = { s with mem := (storeTokens k tokens s).mem } := by
  induction tokens generalizing k s with
  | nil => rfl
  | cons token rest ih => exact ih (k + 1) (s.setTokm k (packToken token))

theorem State.setTokm_read_other (s : State) (k : Nat) (w : Word) {a : Nat} (h : a < tokmAddr k ∨ tokmAddr (k + 1) ≤ a) :
    (s.setTokm k w).mem.read a = s.mem.read a :=
  Memory.read_writeWord_other s.mem (tokmAddr k) a w (by simp only [tokmAddr] at h ⊢; omega)

theorem storeTokens_read_other {k : Nat} {tokens : List Token} (s : State) {a : Nat}
    (h : a < tokmAddr k ∨ tokmAddr (k + tokens.length) ≤ a) : (storeTokens k tokens s).mem.read a = s.mem.read a := by
  induction tokens generalizing k s with
  | nil => rfl
  | cons token rest ih =>
    simp only [tokmAddr, List.length_cons] at h
    refine (ih (s.setTokm k (packToken token)) ?_).trans (s.setTokm_read_other k _ ?_)
    all_goals
      simp only [tokmAddr]
      omega

/-- Entries of `TOKM` do not overlap, so each record stays where it was stored. -/
theorem storeTokens_tokm {k j : Nat} {tokens : List Token} (s : State) (hj : j < tokens.length) :
    (storeTokens k tokens s).mem.tokm (k + j) = packToken tokens[j] := by
  induction tokens generalizing k j s with
  | nil => exact absurd hj (Nat.not_lt_zero j)
  | cons token rest ih =>
    cases j with
    | zero =>
      have hlater : (storeTokens (k + 1) rest (s.setTokm k (packToken token))).mem.tokm k =
          (s.setTokm k (packToken token)).mem.tokm k :=
        Memory.readWord_congr _ _ _ fun a _ ha => storeTokens_read_other _ (.inl (by simp only [tokmAddr] at ha ⊢; omega))
      exact hlater.trans (Memory.readWord_writeWord s.mem (tokmAddr k) _)
    | succ j =>
      have hrest := ih (k := k + 1) (s.setTokm k (packToken token)) (Nat.lt_of_succ_lt_succ hj)
      rwa [Nat.add_right_comm] at hrest

/-- The records appended at `TKWP`, which moves past them. -/
def State.appendTokens (s : State) (tokens : List Token) : State :=
  { storeTokens s.tkwp.toNat tokens s with
    tkwp := BitVec.ofNat 32 (s.tkwp.toNat + tokens.length), tkcnt := BitVec.ofNat 5 tokens.length }

theorem State.appendTokens_frame (s : State) (tokens : List Token) :
    s.appendTokens tokens = { s with
      tkwp := (s.appendTokens tokens).tkwp, tkcnt := (s.appendTokens tokens).tkcnt, mem := (s.appendTokens tokens).mem } :=
  congrArg (fun u : State => { u with
    tkwp := BitVec.ofNat 32 (s.tkwp.toNat + tokens.length), tkcnt := BitVec.ofNat 5 tokens.length })
    (storeTokens_frame s.tkwp.toNat tokens s)

theorem State.appendTokens_tkwp_toNat {s : State} {tokens : List Token} (h : s.tkwp.toNat + tokens.length ≤ 16384) :
    (s.appendTokens tokens).tkwp.toNat = s.tkwp.toNat + tokens.length := Nat.mod_eq_of_lt (by omega)

theorem State.appendTokens_tkcnt_toNat (s : State) {tokens : List Token} (h : tokens.length ≤ 16) :
    (s.appendTokens tokens).tkcnt.toNat = tokens.length := Nat.mod_eq_of_lt (by omega)

/-! ## The checks of TKN -/

section Checks

variable (bs : BitVec 5) (t : BitVec 2) {c0 : BitVec 2} {s : State}

theorem exec_tkn_operand (s : State) :
    exec (.tkn bs t 3) s = .next (s.raise .operand (encode (.tkn bs t 3))) := by
  change execTkn bs t 3 s = _
  rw [execTkn, if_pos rfl]
  rfl

theorem exec_tkn_eobTag (hc0 : c0 ≠ 3) (hagrees : eobAgrees (s.block bs) (s.eobTag bs).toNat = false) :
    exec (.tkn bs t c0) s = .next (s.raise .eobTag (encode (.tkn bs t c0))) := by
  change execTkn bs t c0 s = _
  rw [execTkn, if_neg hc0, if_pos hagrees]
  rfl

theorem exec_tkn_mag (hc0 : c0 ≠ 3) (hagrees : eobAgrees (s.block bs) (s.eobTag bs).toNat = true)
    (htokens : tokenize (s.block bs) t c0 (s.eobTag bs).toNat = none) :
    exec (.tkn bs t c0) s = .next (s.raise .mag (encode (.tkn bs t c0))) := by
  change execTkn bs t c0 s = _
  rw [execTkn, if_neg hc0, if_neg (by simp [hagrees]), htokens]
  rfl

theorem exec_tkn_tokFull {tokens : List Token} (hc0 : c0 ≠ 3)
    (hagrees : eobAgrees (s.block bs) (s.eobTag bs).toNat = true)
    (htokens : tokenize (s.block bs) t c0 (s.eobTag bs).toNat = some tokens)
    (hroom : s.cfg.ntok < s.tkwp.toNat + tokens.length) :
    exec (.tkn bs t c0) s = .next (s.raise .tokFull (encode (.tkn bs t c0))) := by
  change execTkn bs t c0 s = _
  rw [execTkn, if_neg hc0, if_neg (by simp [hagrees]), htokens]
  simp only
  rw [if_pos (.inr hroom)]
  rfl

theorem exec_tkn_done {tokens : List Token} (hc0 : c0 ≠ 3)
    (hagrees : eobAgrees (s.block bs) (s.eobTag bs).toNat = true)
    (htokens : tokenize (s.block bs) t c0 (s.eobTag bs).toNat = some tokens)
    (hroom : s.tkwp.toNat + tokens.length ≤ s.cfg.ntok) :
    exec (.tkn bs t c0) s = .next (s.appendTokens tokens) := by
  change execTkn bs t c0 s = _
  rw [execTkn, if_neg hc0, if_neg (by simp [hagrees]), htokens]
  simp only
  rw [if_neg (by omega)]
  rfl

/-- Everything TKN can do: one of its four faults, with no other effect, or the records appended. -/
theorem exec_tkn_cases (c0 : BitVec 2) (s : State) :
    (∃ code ∈ [FaultCode.operand, .eobTag, .mag, .tokFull],
      exec (.tkn bs t c0) s = .next (s.raise code (encode (.tkn bs t c0)))) ∨
    ∃ tokens, exec (.tkn bs t c0) s = .next (s.appendTokens tokens) := by
  by_cases hc0 : c0 = 3
  · subst hc0
    exact .inl ⟨.operand, by simp, exec_tkn_operand bs t s⟩
  cases hagrees : eobAgrees (s.block bs) (s.eobTag bs).toNat with
  | false => exact .inl ⟨.eobTag, by simp, exec_tkn_eobTag bs t hc0 hagrees⟩
  | true =>
    cases htokens : tokenize (s.block bs) t c0 (s.eobTag bs).toNat with
    | none => exact .inl ⟨.mag, by simp, exec_tkn_mag bs t hc0 hagrees htokens⟩
    | some tokens =>
      obtain hfull | hroom := Nat.lt_or_ge s.cfg.ntok (s.tkwp.toNat + tokens.length)
      · exact .inl ⟨.tokFull, by simp, exec_tkn_tokFull bs t hc0 hagrees htokens hfull⟩
      · exact .inr ⟨tokens, exec_tkn_done bs t hc0 hagrees htokens hroom⟩

end Checks

end Sys2Proof.Machine

namespace Sys2Proof.Proofs

open Sys2Proof.Machine

/-- Settles O56: the records of the positions are stored one after another. -/
theorem tknAppendsTheRecords : Obligations.TknAppendsTheRecords := by
  refine ⟨⟨by decide, by decide, magToken_ranges⟩, ?_⟩
  intro bs t c0 s x n first count hwf hc0 hn hbefore hafter hmag hroom
  obtain ⟨hntok, -⟩ := (config_wf_iff s.cfg).1 hwf
  obtain ⟨hpos, hle⟩ : 1 ≤ count ∧ count ≤ 16 := tokenCount_bounds (firstPosition_le t) hn
  have hagrees : eobAgrees x n = true := (eobAgrees_iff x n).2 ⟨hn, hbefore, hafter⟩
  have hlength : (blockTokens x t c0 first n).length = count := blockTokens_length x t c0 first n
  rw [← hlength] at hroom hpos hle ⊢
  refine ⟨_, exec_tkn_done bs t hc0 hagrees (tokenize_eq_some c0 hmag) hroom, State.appendTokens_frame s _,
    State.appendTokens_tkwp_toNat (hroom.trans hntok), State.appendTokens_tkcnt_toNat s hle, hpos, hle, fun j hj => ?_,
    fun a ha => storeTokens_read_other s ha⟩
  rw [← packToken_blockTokens t c0 hbefore hmag hj]
  exact congrArg BitVec.toNat (storeTokens_tokm s hj)

/-- Settles O58: the checks stand in the order of the faults, and TKN can do nothing else. -/
theorem tknFaultsArePrecise : Obligations.TknFaultsArePrecise := by
  refine ⟨?faults, fun bs t c0 s u hfstat hexec hfault => ?frame⟩
  case faults =>
    intro bs t c0 s x n first count tagWrong tooLarge faults
    have hagrees_iff : eobAgrees x n = true ↔ ¬tagWrong := by
      rw [eobAgrees_iff]
      simp only [tagWrong, not_or, not_and, not_exists, not_not, Nat.not_lt]
    have hmag (htooLarge : ¬tooLarge) : ∀ k, firstPosition t ≤ k → k < n → coefMag x k ≤ maxMagnitude :=
      fun k hk hk' => Nat.le_of_not_lt fun hlt => htooLarge ⟨k, hk, hk', hlt⟩
    refine ⟨?_, fun hc0 htag => ?_, fun hc0 htag hlarge => ?_, fun hc0 htag hlarge hroom => ?_⟩
    · rintro rfl
      exact exec_tkn_operand bs t s
    · exact exec_tkn_eobTag bs t hc0 (Bool.eq_false_iff.2 fun h => hagrees_iff.1 h htag)
    · obtain ⟨k, hfirst, hk, hlt⟩ := hlarge
      exact exec_tkn_mag bs t hc0 (hagrees_iff.2 htag) (tokenize_eq_none c0 hfirst hk hlt)
    · refine exec_tkn_tokFull bs t hc0 (hagrees_iff.2 htag) (tokenize_eq_some c0 (hmag hlarge)) ?_
      rw [blockTokens_length]
      exact hroom
  case frame =>
    obtain ⟨code, hcode, hraise⟩ | ⟨tokens, hdone⟩ := exec_tkn_cases bs t c0 s
    · cases hexec.symm.trans hraise
      rw [State.raise_of_fstat_eq_zero hfstat]
      exact ⟨rfl, List.mem_map_of_mem (f := FaultCode.number) hcode⟩
    · cases hexec.symm.trans hdone
      rw [s.appendTokens_frame tokens] at hfault
      exact absurd hfstat hfault

end Sys2Proof.Proofs
end

section
/-! PROOFS. The support commands NOP, LDI, BFILL, SEOB: what each writes, which words are theirs, and the host-port accesses
LDI and SEOB stand for (45_support.md). -/

namespace Sys2Proof.Machine

/-! ## What each command does -/

theorem exec_nop (s : State) : exec .nop s = .next s := rfl

theorem exec_ldi (bd : BitVec 5) (l : BitVec 4) (v : BitVec 16) (s : State) :
    exec (.ldi bd l v) s = .next (s.setLane bd l v) := rfl

theorem exec_bfill (bd : BitVec 5) (v : BitVec 16) (s : State) :
    exec (.bfill bd v) s = .next (s.setBlock bd (Vector.replicate 16 v)) := rfl

theorem exec_seob_done {n : BitVec 5} (h : n.toNat ≤ 16) (bd : BitVec 5) (s : State) :
    exec (.seob bd n) s = .next (s.setEobTag bd n) := by
  change execSeob bd n s = _
  rw [execSeob, if_neg (Nat.not_lt.2 h), finish_next, Run.settle_done]

theorem exec_seob_raised {n : BitVec 5} (h : 16 < n.toNat) (bd : BitVec 5) (s : State) :
    exec (.seob bd n) s = .next (s.raise .operand (encode (.seob bd n))) := by
  change execSeob bd n s = _
  rw [execSeob, if_pos h, finish_next, Run.settle_raised]

/-- A step that serves a write to `CMD` of a halted engine drops it, whatever the word (60_exceptions.md R216). -/
theorem step_command_dropped (s : State) (w : Word) (rest : List Transaction) (hfstat : s.fstat ≠ 0) :
    step { s with bus := .hwr 0 w :: rest } = .next { s with bus := rest, rdata := none } :=
  serve_dropped _ w (bne_iff_ne.2 hfstat)

/-! ## The words of each command -/

/-- A word of row `k` of the opcode map with a reserved bit set takes `E_ILLCMD`. -/
theorem takesIllCmd_of_row (k : Fin 18) {w : Word} (hop : opField w = (opTable.get k).op)
    (hres : w &&& (opTable.get k).reserved ≠ 0) : takesIllCmd w :=
  takesIllCmd_reserved (List.get_mem opTable k) hop.symm hres

/-- A word of row `k` of the opcode map with no reserved bit set is the command of its fields. -/
theorem decode_of_row (k : Fin 18) {w : Word} (hop : opField w = (opTable.get k).op)
    (hres : w &&& (opTable.get k).reserved = 0) : decode w = .ok ((opTable.get k).operands w) :=
  decode_assigned (List.get_mem opTable k) hop.symm hres

/-- Format I reserves bit 20 alone (30_encoding.md R92). -/
theorem reservedI_iff_bit (w : Word) : w &&& 0x00100000 = 0 ↔ w.getLsbD 20 = false := by
  rw [reservedI_iff]
  constructor
  · intro h
    simpa using congrArg (BitVec.getLsbD · 0) h.symm
  · intro h
    ext k hk
    simpa [Nat.lt_one_iff.1 hk] using h

/-! ## Lanes and tags written -/

theorem lane_replicate (v : Lane) {i : Nat} (hi : i < 16) : lane (Vector.replicate 16 v) i = v.toInt := by
  rw [lane_eq _ _ hi, Vector.getElem_replicate]

/-- The lane a write of one lane leaves there. -/
theorem State.lane_setLane_same (s : State) (n : BitVec 5) (i : BitVec 4) (v : Lane) :
    lane ((s.setLane n i v).block n) i.toNat = v.toInt := by
  rw [State.setLane_block_same, lane_eq _ _ i.isLt, Vector.getElem_set_self]

/-- The other lanes of the register stay. -/
theorem State.lane_setLane_other (s : State) (n : BitVec 5) (i : BitVec 4) (v : Lane) {j : Nat} (hj : j < 16)
    (h : j ≠ i.toNat) : lane ((s.setLane n i v).block n) j = lane (s.block n) j := by
  rw [State.setLane_block_same, lane_eq _ _ hj, lane_eq _ _ hj, Vector.getElem_set_ne _ _ h.symm]

/-- Writing the lane that is there already changes nothing. -/
theorem State.setLane_self (s : State) (n : BitVec 5) (i : BitVec 4) :
    s.setLane n i ((s.block n)[i.toNat]'i.isLt) = s := by
  simp [State.setLane, State.setBlock, State.block]

/-! ## The port accesses of LDI and SEOB -/

/-- A step that serves a write to the window of the EOB tags stores the low five bits, with no check (45_support.md R206). -/
theorem step_hwr_eob (s : State) (d : Word) (rest : List Transaction) (n : BitVec 5) :
    step { s with bus := .hwr (BitVec.ofNat 32 (0x800 + 4 * n.toNat)) d :: rest } =
      .next (State.setEobTag { s with bus := rest, rdata := none } n (d.extractLsb' 0 5)) :=
  have htarget := portTarget_eob s.cfg n
  step_hwr_mapped s d rest (ne_zero_of_portTarget (c := s.cfg) (by simp [htarget])) htarget

/-- A step that serves a write of the word of lane pair `k`. -/
theorem step_hwr_lanes (s : State) (d : Word) (rest : List Transaction) (n : BitVec 5) {k : Nat} (hk : k < 8) :
    step { s with bus := .hwr (lanesAddr n k) d :: rest } =
      .next (State.writeTarget { s with bus := rest, rdata := none } (lanesAddr n k) d (.lanes n (BitVec.ofNat 3 k))) :=
  have htarget := portTarget_lanes s.cfg n hk
  step_hwr_mapped s d rest (ne_zero_of_portTarget (c := s.cfg) (by simp [htarget])) htarget

/-- A lane is the even or the odd one of its pair (20_memory.md R67). -/
theorem pairLane_half (l : BitVec 4) {odd : BitVec 1} (h : l.toNat % 2 = odd.toNat) :
    pairLane (BitVec.ofNat 3 (l.toNat / 2)) odd = l := by
  have hl : l.toNat < 16 := l.isLt
  refine BitVec.eq_of_toNat_eq ?_
  rw [pairLane_toNat (by omega), ← h]
  omega

theorem pairLane_even_ne_odd (pair : BitVec 3) : (pairLane pair 0).toNat ≠ (pairLane pair 1).toNat := by
  revert pair
  decide

theorem extractLsb'_append_lane_low (x y : Lane) : (x ++ y).extractLsb' 0 16 = y := by
  rw [BitVec.extractLsb'_append_eq_of_add_le (by decide), BitVec.extractLsb'_eq_self]

theorem extractLsb'_append_lane_high (x y : Lane) : (x ++ y).extractLsb' 16 16 = x := by
  rw [BitVec.extractLsb'_append_eq_of_le (by decide), Nat.sub_self, BitVec.extractLsb'_eq_self]

/-- Writing back the word of a lane pair with its low half replaced writes the even lane. -/
theorem State.writeTarget_lanes_low (s : State) (addr : Word) (n : BitVec 5) (pair : BitVec 3) (v : Lane) :
    s.writeTarget addr ((s.lanePair n pair).extractLsb' 16 16 ++ v) (.lanes n pair) = s.setLane n (pairLane pair 0) v := by
  have hodd : (s.lanePair n pair).extractLsb' 16 16 =
      ((s.setLane n (pairLane pair 0) v).block n)[(pairLane pair 1).toNat]'(pairLane pair 1).isLt := by
    rw [State.lanePair, extractLsb'_append_lane_high]
    simp only [State.setLane_block_same, Vector.getElem_set_ne _ _ (pairLane_even_ne_odd pair)]
  simp only [State.writeTarget, extractLsb'_append_lane_low, extractLsb'_append_lane_high, hodd, State.setLane_self]

/-- Writing back the word of a lane pair with its high half replaced writes the odd lane. -/
theorem State.writeTarget_lanes_high (s : State) (addr : Word) (n : BitVec 5) (pair : BitVec 3) (v : Lane) :
    s.writeTarget addr (v ++ (s.lanePair n pair).extractLsb' 0 16) (.lanes n pair) = s.setLane n (pairLane pair 1) v := by
  simp only [State.writeTarget, State.lanePair, extractLsb'_append_lane_low, extractLsb'_append_lane_high,
    State.setLane_self]

/-- Replacing the half of lane `l` in the word of its pair and writing it back writes lane `l` (45_support.md R206). -/
theorem State.writeTarget_lanes_half (s : State) (addr : Word) (n : BitVec 5) (l : BitVec 4) (v : Lane) :
    let w := s.lanePair n (BitVec.ofNat 3 (l.toNat / 2))
    s.writeTarget addr (if l.toNat % 2 = 0 then w.extractLsb' 16 16 ++ v else v ++ w.extractLsb' 0 16)
      (.lanes n (BitVec.ofNat 3 (l.toNat / 2))) = s.setLane n l v := by
  intro w
  split
  next heven => rw [State.writeTarget_lanes_low, pairLane_half l (odd := 0) heven]
  next hodd => rw [State.writeTarget_lanes_high, pairLane_half l (odd := 1) (Nat.mod_two_ne_zero.1 hodd)]

end Sys2Proof.Machine

namespace Sys2Proof.Proofs

open Sys2Proof.Machine

/-- Settles O24: the word read holds the lanes there are, so the write back changes the lane of the immediate alone. -/
theorem supportCommandsEqualPortWrites : Obligations.SupportCommandsEqualPortWrites := by
  refine fun s rest hfstat => ⟨?ldi, fun bd n hn => ?seob, fun bd d => ?window⟩
  case ldi =>
    intro bd l v w addr word hread
    have hk : l.toNat / 2 < 8 := Nat.div_lt_of_lt_mul l.isLt
    have hw : s.lanePair bd (BitVec.ofNat 3 (l.toNat / 2)) = w := by
      have hmapped := (step_hrd_mapped s rest (portTarget_lanes s.cfg bd hk)).symm.trans hread
      exact Option.some.inj (congrArg State.rdata (Host.Outcome.next.inj hmapped))
    subst hw
    rw [step_command s rest hfstat (decode_encode _), exec_ldi]
    exact ((step_hwr_lanes s word rest bd hk).trans
      (congrArg _ (State.writeTarget_lanes_half { s with bus := rest, rdata := none } addr bd l v))).symm
  case seob =>
    have hbits : (BitVec.ofNat 32 n.toNat).extractLsb' 0 5 = n := by
      rw [← BitVec.setWidth_eq_extractLsb' (by decide)]
      simp
    rw [step_command s rest hfstat (decode_encode _), exec_seob_done hn, step_hwr_eob, hbits]
  case window =>
    refine ⟨_, step_hwr_eob s d rest bd, ?_, fun m hm => State.setEobTag_eobTag_other _ _ _ _ hm, rfl⟩
    rw [State.setEobTag_eobTag_same, BitVec.ofNat_toNat, BitVec.setWidth_eq_extractLsb' (by decide)]

/-- Settles O25: any other word of the opcode has a reserved bit set. -/
theorem nopChangesNothing : Obligations.NopChangesNothing := by
  refine ⟨exec_nop, decode_encode .nop, fun w hop hne => ?_, fun s => step_command_dropped s _⟩
  exact takesIllCmd_of_row 0 hop fun hres => hne ((formatZ_iff w 0x01#6).2 ⟨hop.symm, hres⟩).symm

/-- Settles O26: `State.setLane` writes the lane, and bit 20 is the only one its format reserves. -/
theorem ldiWritesOneLane : Obligations.LdiWritesOneLane := by
  refine ⟨fun bd l v s => ?effect, fun w hop hbit => ?illegal,
    fun w hop hbit => decode_of_row 1 hop ((reservedI_iff_bit w).2 hbit)⟩
  case effect =>
    exact ⟨_, exec_ldi bd l v s, s.lane_setLane_same bd l v, fun i hi hne => s.lane_setLane_other bd l v hi hne,
      fun m hm => s.setLane_block_other bd m l v hm, rfl⟩
  case illegal =>
    exact takesIllCmd_of_row 1 hop fun hres => Bool.false_ne_true (((reservedI_iff_bit w).1 hres).symm.trans hbit)

/-- Settles O27: `State.setBlock` writes a register of one value, and format F reserves bits [20:16]. -/
theorem bfillWritesAllLanes : Obligations.BfillWritesAllLanes := by
  refine ⟨fun bd v s => ?_,
    fun w hop hbits => takesIllCmd_of_row 2 hop fun hres => hbits ((reservedF_iff w).1 hres).symm,
    fun w hop hbits => decode_of_row 2 hop ((reservedF_iff w).2 hbits.symm)⟩
  obtain ⟨hframe, hother⟩ := s.setBlock_frame bd (Vector.replicate 16 v)
  refine ⟨_, exec_bfill bd v s, fun i hi => ?_, hother, hframe⟩
  rw [State.setBlock_block_same, lane_replicate v hi]

/-- Settles O28: the check of the operand is the only one, so nothing of the lanes enters. -/
theorem seobSetsTheTag : Obligations.SeobSetsTheTag := by
  refine ⟨fun bd n s hn => ?_, fun bd n s hn => exec_seob_raised hn bd s,
    fun w hop hbits => takesIllCmd_of_row 3 hop fun hres => hbits ((reservedE_iff w).1 hres).symm,
    fun w hop hbits => decode_of_row 3 hop ((reservedE_iff w).2 hbits.symm)⟩
  exact ⟨_, exec_seob_done hn bd s, s.setEobTag_eobTag_same bd n, fun m hm => s.setEobTag_eobTag_other bd m n hm, rfl⟩

end Sys2Proof.Proofs
end

section
/-! PROOFS. Runs of bools from any coder state, whatever a host wrote into it: what they change, where they stop, and the
commands that are such runs (60_exceptions.md R215, R217). -/

namespace Sys2Proof.Machine

/-! ## What a run of bools changes -/

/-- `t` is `s` but for the coder tuple, ACTIVE and the bytes of `OBUF`. -/
structure State.CodesTo (s t : State) : Prop where
  frame : ∃ c active, t = { s.withCoder c with bcActive := active }
  read_below : ∀ a < 0x20000, t.mem.read a = s.mem.read a

theorem State.CodesTo.refl (s : State) : s.CodesTo s :=
  ⟨⟨s.coder, s.bcActive, by rw [s.withCoder_coder]⟩, fun _ _ => rfl⟩

theorem State.CodesTo.trans {s t u : State} (hst : s.CodesTo t) (htu : t.CodesTo u) : s.CodesTo u := by
  obtain ⟨⟨c, active, rfl⟩, hread⟩ := hst
  obtain ⟨⟨c', active', rfl⟩, hread'⟩ := htu
  exact ⟨⟨c', active', rfl⟩, fun a ha => (hread' a ha).trans (hread a ha)⟩

theorem State.CodesTo.fstat_eq {s t : State} (h : s.CodesTo t) : t.fstat = s.fstat := by
  obtain ⟨⟨c, active, rfl⟩, -⟩ := h
  rfl

/-- A carry and a byte written lie in `OBUF`, wherever `base` and `pos` point (20_memory.md R68). -/
theorem Coder.shift_read_below {base limit : Nat} {c c' : Coder} (h : c.shift base limit = .ok c') {a : Nat}
    (ha : a < 0x20000) : c'.mem.read a = c.mem.read a := by
  have hbelow (k : Nat) : a < obufAddr k := Nat.lt_add_right k ha
  obtain ⟨m, hcarry, -, hturn⟩ := Coder.shift_ok base limit c c' h
  have hcarried : m.read a = c.mem.read a := by
    split at hcarry
    · exact carryInto_read_other hcarry (.inl (hbelow base))
    · cases hcarry
      rfl
  obtain ⟨-, -, -, -, hmem⟩ | ⟨-, -, -, -, -, hmem⟩ := hturn
  · rw [hmem, hcarried]
  · rw [hmem, Memory.read_write_other _ _ _ _ (hbelow c.pos).ne, hcarried]

theorem Coder.renorm_read_below {base limit : Nat} (fuel : Nat) {c c' : Coder} (h : c.renorm base limit fuel = .ok c')
    {a : Nat} (ha : a < 0x20000) : c'.mem.read a = c.mem.read a := by
  induction fuel generalizing c with
  | zero =>
    cases h
    rfl
  | succ fuel ih =>
    unfold Coder.renorm at h
    split at h
    · cases hshift : c.shift base limit with
      | error code =>
        rw [hshift] at h
        cases h
      | ok next =>
        rw [hshift] at h
        exact (ih h).trans (Coder.shift_read_below hshift ha)
    · cases h
      rfl

@[simp] theorem Coder.narrow_mem (c : Coder) (bit : Bool) (p : Nat) : (c.narrow bit p).mem = c.mem := by
  cases bit <;> rfl

/-- A coding step, completed or not, leaves all but the coder and `OBUF` as it was. -/
theorem encodeBool_codesTo (bit : Bool) (p : Nat) (s : State) : s.CodesTo (encodeBool bit p s).state := by
  obtain ⟨-, h⟩ | ⟨-, -, h⟩ | ⟨-, -, -, h⟩ | ⟨-, -, -, ⟨c, hc, h⟩ | ⟨-, h⟩ | ⟨code, -, -, h⟩⟩ := encodeBool_cases bit p s
  case inr.inr.inr.inl =>
    rw [h]
    exact ⟨⟨c, s.bcActive, rfl⟩, fun a ha => (Coder.renorm_read_below 7 hc ha).trans (by rw [Coder.narrow_mem]; rfl)⟩
  case inr.inr.inr.inr.inl =>
    rw [h]
    exact ⟨⟨s.coder, 0, by rw [s.withCoder_coder]; rfl⟩, fun _ _ => rfl⟩
  all_goals rw [h]; exact State.CodesTo.refl s

theorem encodeBools_codesTo (bools : List (Bool × Nat)) (s : State) : s.CodesTo (encodeBools bools s).state := by
  induction bools generalizing s with
  | nil => exact State.CodesTo.refl s
  | cons b rest ih =>
    obtain ⟨bit, p⟩ := b
    have hstep := encodeBool_codesTo bit p s
    rw [encodeBools_cons]
    cases h : encodeBool bit p s with
    | done t =>
      rw [h] at hstep
      exact hstep.trans (ih t)
    | raised code t =>
      rw [h] at hstep
      exact hstep

theorem codesTo_of_encodeBools_done {bools : List (Bool × Nat)} {s t : State} (h : encodeBools bools s = .done t) :
    s.CodesTo t := by
  have hrun := encodeBools_codesTo bools s
  rwa [h] at hrun

/-! ## Where a run of bools stops -/

theorem encodeBools_cons_of_done {bit : Bool} {p : Nat} (rest : List (Bool × Nat)) {s t : State}
    (h : encodeBool bit p s = .done t) : encodeBools ((bit, p) :: rest) s = encodeBools rest t := by
  rw [encodeBools_cons, h]

theorem encodeBools_cons_of_raised {bit : Bool} {p : Nat} (rest : List (Bool × Nat)) {s t : State} {code : FaultCode}
    (h : encodeBool bit p s = .raised code t) : encodeBools ((bit, p) :: rest) s = .raised code t := by
  rw [encodeBools_cons, h]

theorem encodeBools_append_of_done {xs : List (Bool × Nat)} (ys : List (Bool × Nat)) {s t : State}
    (h : encodeBools xs s = .done t) : encodeBools (xs ++ ys) s = encodeBools ys t := by
  rw [encodeBools_append, h]

/-- A coding step that takes a fault has no effect, but for ACTIVE on `E_OBUFFULL` (40_bool_coder.md R123). -/
theorem encodeBool_raised {bit : Bool} {p : Nat} {s t : State} {code : FaultCode} (h : encodeBool bit p s = .raised code t) :
    t = if code = .obufFull then { s with bcActive := 0 } else s := by
  obtain ⟨-, he⟩ | ⟨-, -, he⟩ | ⟨-, -, -, he⟩ | ⟨-, -, -, ⟨c, -, he⟩ | ⟨-, he⟩ | ⟨code', hcode, -, he⟩⟩ :=
    encodeBool_cases bit p s
  case inr.inr.inr.inr.inr =>
    cases h.symm.trans he
    exact (if_neg hcode).symm
  all_goals cases h.symm.trans he <;> rfl

/-- From an active coder with `BacOk` a coding step passes its checks. -/
theorem encodeBool_raised_of_bacOk {bit : Bool} {p : Nat} {s t : State} {code : FaultCode} (hactive : s.bcActive = 1)
    (hbac : s.bacOk = true) (hp : 1 ≤ p ∧ p ≤ 255) (h : encodeBool bit p s = .raised code t) :
    code = .carry ∨ code = .obufFull := by
  obtain ⟨c, hr⟩ | hr | hr := State.renorm_cases hbac hp.2 bit
  · cases h.symm.trans (encodeBool_of_renorm_ok hactive hbac hp.1 hr)
  · cases h.symm.trans (encodeBool_of_renorm_error hactive hbac hp.1 hr)
    exact .inl rfl
  · cases h.symm.trans (encodeBool_of_renorm_error hactive hbac hp.1 hr)
    exact .inr rfl

/-- So does every step of a run, since each leaves an active coder with `BacOk` (40_bool_coder.md R121). -/
theorem encodeBools_raised_of_bacOk {bools : List (Bool × Nat)} {s t : State} {code : FaultCode} (hactive : s.bcActive = 1)
    (hbac : s.bacOk = true) (hbools : ValidBools bools) (h : encodeBools bools s = .raised code t) :
    code = .carry ∨ code = .obufFull := by
  induction bools generalizing s with
  | nil => cases h
  | cons b rest ih =>
    obtain ⟨bit, p⟩ := b
    obtain ⟨hp, hrest⟩ := List.forall_mem_cons.1 hbools
    cases hstep : encodeBool bit p s with
    | done next =>
      obtain ⟨hbac', hactive'⟩ := encodeBool_keeps_bacOk hp.2 hstep
      rw [encodeBools_cons_of_done rest hstep] at h
      exact ih hactive' hbac' hrest h
    | raised code' u =>
      cases h.symm.trans (encodeBools_cons_of_raised rest hstep)
      exact encodeBool_raised_of_bacOk hactive hbac hp hstep

/-- `E_NOTACTIVE` and `E_RANGE` strike the first step only (60_exceptions.md R215). -/
theorem encodeBools_early {bools : List (Bool × Nat)} {s t : State} {code : FaultCode} (hbools : ValidBools bools)
    (h : encodeBools bools s = .raised code t) (hcode : code = .notActive ∨ code = .coderRange) : t = s := by
  cases bools with
  | nil => cases h
  | cons b rest =>
    obtain ⟨bit, p⟩ := b
    obtain ⟨hp, hrest⟩ := List.forall_mem_cons.1 hbools
    cases hstep : encodeBool bit p s with
    | done next =>
      obtain ⟨hbac, hactive⟩ := encodeBool_keeps_bacOk hp.2 hstep
      rw [encodeBools_cons_of_done rest hstep] at h
      obtain rfl | rfl := encodeBools_raised_of_bacOk hactive hbac hrest h <;> simp at hcode
    | raised code' u =>
      cases h.symm.trans (encodeBools_cons_of_raised rest hstep)
      rw [encodeBool_raised hstep, if_neg (by rintro rfl; simp at hcode)]

theorem encodeBools_of_inactive {bools : List (Bool × Nat)} (hne : bools ≠ []) {s : State} (hactive : s.bcActive = 0) :
    encodeBools bools s = .raised .notActive s := by
  obtain ⟨⟨bit, p⟩, rest, rfl⟩ := List.exists_cons_of_ne_nil hne
  exact encodeBools_cons_of_raised rest (encodeBool_of_inactive hactive bit p)

theorem encodeBools_of_not_bacOk {bools : List (Bool × Nat)} (hne : bools ≠ []) (hbools : ValidBools bools) {s : State}
    (hactive : s.bcActive = 1) (hbac : s.bacOk = false) : encodeBools bools s = .raised .coderRange s := by
  obtain ⟨⟨bit, p⟩, rest, rfl⟩ := List.exists_cons_of_ne_nil hne
  obtain ⟨⟨hp, -⟩, -⟩ := List.forall_mem_cons.1 hbools
  exact encodeBools_cons_of_raised rest (encodeBool_of_not_bacOk hactive hp hbac bit)

/-! ## The commands that are one run of bools -/

theorem literalBools_ne_nil {n : Nat} (hn : 1 ≤ n) (v : BitVec 16) : literalBools n v ≠ [] := by
  simp [literalBools, Nat.ne_of_gt hn]

theorem exec_bstop_inactive {s : State} (hactive : s.bcActive = 0) :
    exec .bstop s = .next (s.raise .notActive (encode .bstop)) := by
  change execBstop s = _
  rw [execBstop, if_pos (s.active_eq_false_iff.2 hactive)]
  rfl

/-- A path found has a node, the one it starts at. -/
theorem findPath_ne_nil {entry : Nat → Int} {size tb v start : Nat} {path : Path}
    (h : findPath entry size tb v start = .ok path) : path ≠ [] := by
  rintro rfl
  exact (findPath_ok h).1

/-- The bools of a path that passes its checks can be coded, and there is at least one. -/
theorem pathBools_of_checkedPath {m : Memory} {tb pb v : Nat} {path : Path} (h : checkedPath m tb pb v = .ok path) :
    pathBools (fun k => m.probm (pb + k)) path ≠ [] ∧ ValidBools (pathBools (fun k => m.probm (pb + k)) path) := by
  obtain ⟨hpath, hprobs⟩ := (checkedPath_ok m tb pb v path).1 h
  refine ⟨mt List.map_eq_nil_iff.1 (findPath_ne_nil hpath), ?_⟩
  exact validBools_pathBools (fun k => (m.read _).isLt) fun node hnode => ((checkProbs_none m pb path).1 hprobs node hnode).2

theorem tokenBools_ne_nil {m : Memory} {k : Token} (h : tokenReady m k = true) : tokenBools m k ≠ [] := by
  obtain ⟨-, path, hpath, -⟩ := (tokenReady_iff m k).1 h
  have hne : path ≠ [] := findPath_ne_nil hpath
  simp [tokenBools_of_path hpath, pathBools, hne]

/-! ## The tokens of PUTTOK, one run of bools each -/

/-- The state with `TKRP` at `r`. -/
def State.withTkrp (s : State) (r : Word) : State := { s with tkrp := r }

/-- The run with `TKRP` at `r` in the state it leaves. -/
def Run.withTkrp (r : Word) : Run → Run
  | .done s => .done (s.withTkrp r)
  | .raised code s => .raised code (s.withTkrp r)

/-- A coding step does not look at `TKRP`. -/
theorem encodeBool_withTkrp (bit : Bool) (p : Nat) (s : State) (r : Word) :
    encodeBool bit p (s.withTkrp r) = (encodeBool bit p s).withTkrp r := by
  obtain ⟨ha, h⟩ | ⟨ha, rfl, h⟩ | ⟨ha, hp, hbac, h⟩ | ⟨ha, hp, hbac, ⟨c, hc, h⟩ | ⟨hc, h⟩ | ⟨code, hcode, hc, h⟩⟩ :=
    encodeBool_cases bit p s
  · rw [h]
    exact encodeBool_of_inactive (s := s.withTkrp r) (s.active_eq_false_iff.1 ha) bit p
  all_goals
    have hactive : (s.withTkrp r).bcActive = 1 := s.active_iff.1 ha
    rw [h]
  · exact encodeBool_of_prob0 hactive bit
  · exact encodeBool_of_not_bacOk hactive (Nat.pos_of_ne_zero hp) hbac bit
  · exact encodeBool_of_renorm_ok hactive hbac (Nat.pos_of_ne_zero hp) hc
  · exact encodeBool_of_renorm_error hactive hbac (Nat.pos_of_ne_zero hp) hc
  · exact (encodeBool_of_renorm_error hactive hbac (Nat.pos_of_ne_zero hp) hc).trans (by rw [if_neg hcode]; rfl)

theorem encodeBools_withTkrp (bools : List (Bool × Nat)) (s : State) (r : Word) :
    encodeBools bools (s.withTkrp r) = (encodeBools bools s).withTkrp r := by
  induction bools generalizing s with
  | nil => rfl
  | cons b rest ih =>
    obtain ⟨bit, p⟩ := b
    have hstep := encodeBool_withTkrp bit p s r
    cases h : encodeBool bit p s with
    | done t =>
      rw [h] at hstep
      rw [encodeBools_cons_of_done rest h, encodeBools_cons_of_done rest hstep]
      exact ih t
    | raised code t =>
      rw [h] at hstep
      rw [encodeBools_cons_of_raised rest h, encodeBools_cons_of_raised rest hstep]
      rfl

/-- `TKRP` past the first `j` tokens of a PUTTOK. -/
def State.tkrpAfter (s : State) (j : Nat) : Word := BitVec.ofNat 32 (s.tkrp.toNat + j)

theorem State.tkrpAfter_toNat {s : State} {j : Nat} (hj : s.tkrp.toNat + j ≤ 16384) :
    (s.tkrpAfter j).toNat = s.tkrp.toNat + j := Nat.mod_eq_of_lt (by omega)

section NextToken

/- `s` is the state a PUTTOK starts from, `t` is where the bools of the tokens before `j` lead. -/
variable {s t u : State} {j : Nat} {code : FaultCode} (ht : s.CodesTo t) (hj : s.tkrp.toNat + j < 16384)

include ht hj

/-- The records of a PUTTOK stand outside `OBUF`. -/
theorem record_withTkrp : (t.withTkrp (s.tkrpAfter j)).record 0 = s.record j := by
  rw [State.record, State.record]
  change unpackToken (t.mem.tokm ((s.tkrpAfter j).toNat + 0)) = _
  rw [State.tkrpAfter_toNat hj.le]
  exact congrArg unpackToken (tokm_congr ht.read_below hj)

/-- The next token, when it is ready, is the run of the bools it had before the first. -/
theorem putToken_withTkrp (hready : tokenReady s.mem (s.record j) = true) :
    putToken (t.withTkrp (s.tkrpAfter j)) =
      ((encodeBools (tokenBools s.mem (s.record j)) t).withTkrp (s.tkrpAfter j)).advanceTkrp := by
  have hrecord := record_withTkrp ht hj
  obtain ⟨hready', hbools⟩ := tokenReady_congr ht.read_below hready
  rw [← hbools, ← encodeBools_withTkrp, ← hrecord]
  rw [← hrecord] at hready'
  exact putToken_of_ready hready'

theorem putToken_withTkrp_of_done (hready : tokenReady s.mem (s.record j) = true)
    (h : encodeBools (tokenBools s.mem (s.record j)) t = .done u) :
    putToken (t.withTkrp (s.tkrpAfter j)) = .done (u.withTkrp (s.tkrpAfter (j + 1))) := by
  have hnext : BitVec.ofNat 32 ((s.tkrpAfter j).toNat + 1) = s.tkrpAfter (j + 1) := by
    rw [State.tkrpAfter_toNat hj.le]
    rfl
  rw [putToken_withTkrp ht hj hready, h, ← hnext]
  rfl

theorem putToken_withTkrp_of_raised (hready : tokenReady s.mem (s.record j) = true)
    (h : encodeBools (tokenBools s.mem (s.record j)) t = .raised code u) :
    putToken (t.withTkrp (s.tkrpAfter j)) = .raised code (u.withTkrp (s.tkrpAfter j)) := by
  rw [putToken_withTkrp ht hj hready, h]
  rfl

theorem putToken_withTkrp_of_not_ready (hready : tokenReady s.mem (s.record j) = false) :
    putToken (t.withTkrp (s.tkrpAfter j)) =
      .raised (if tokenValid (s.record j) then .prob0 else .token) (t.withTkrp (s.tkrpAfter j)) := by
  have hready' := tokenReady_eq_false_congr ht.read_below hready
  rw [← record_withTkrp ht hj] at hready' ⊢
  exact putToken_of_not_ready hready'

end NextToken

/-- Tokens that are ready, whose bools are all coded, are written in turn. -/
theorem putTokens_of_done {s t : State} {j : Nat} (hj : s.tkrp.toNat + j ≤ 16384)
    (hready : ∀ k < j, tokenReady s.mem (s.record k) = true) (h : encodeBools (s.tokensBools j) s = .done t) :
    putTokens j s = .done (t.withTkrp (s.tkrpAfter j)) := by
  induction j generalizing t with
  | zero =>
    cases h
    simp [putTokens, State.withTkrp, State.tkrpAfter]
  | succ j ih =>
    rw [State.tokensBools_succ] at h
    cases hrun : encodeBools (s.tokensBools j) s with
    | raised code u =>
      rw [encodeBools_append, hrun] at h
      cases h
    | done u =>
      rw [encodeBools_append_of_done _ hrun] at h
      have hput := putToken_withTkrp_of_done (codesTo_of_encodeBools_done hrun) (by omega) (hready j (Nat.lt_succ_self j)) h
      rw [putTokens_add (ih (by omega) (fun k hk => hready k (Nat.lt_succ_of_lt hk)) hrun)]
      exact putTokens_succ_of_done hput

/-- Tokens in turn stop at the first that takes a fault. -/
theorem putTokens_of_raised {s t u : State} {count j : Nat} {code : FaultCode} (hj : j < count)
    (ht : putTokens j s = .done t) (hput : putToken t = .raised code u) : putTokens count s = .raised code u := by
  obtain ⟨rest, rfl⟩ : ∃ rest, count = j + (rest + 1) := ⟨count - j - 1, by omega⟩
  rw [putTokens_add ht]
  exact putTokens_succ_of_raised hput

end Sys2Proof.Machine

namespace Sys2Proof.Proofs

open Sys2Proof.Machine

/-- Settles O49: only the first step of a run meets the checks of the coder, and each command is a run of bools, PUTTOK one
run for each token. -/
theorem earlyCoderFaultsArePrecise : Obligations.EarlyCoderFaultsArePrecise := by
  refine ⟨fun s => ⟨rfl, fun _ _ rest _ h => encodeBools_cons_of_done rest h⟩, ?precise,
    fun _ _ _ _ hbools h hcode => encodeBools_early hbools h hcode, fun s => ?early, fun s hactive => ?runs⟩
  case precise =>
    intro coded rest bit p s t u code hcoded hstep
    exact ⟨(encodeBools_append_of_done _ hcoded).trans (encodeBools_cons_of_raised rest hstep), encodeBool_raised hstep⟩
  case early =>
    intro early
    have hearly (i : Instr) {bools : List (Bool × Nat)} (hne : bools ≠ []) (hvalid : ValidBools bools)
        (hexec : exec i s = finish i (encodeBools bools s)) : early i :=
      ⟨fun hactive => by rw [hexec, encodeBools_of_inactive hne hactive]; rfl,
        fun hactive hbac => by rw [hexec, encodeBools_of_not_bacOk hne hvalid hactive hbac]; rfl⟩
    refine ⟨fun n v hpos hn => ?blit, ⟨exec_bstop_inactive, fun hactive hbac => ?bstop⟩, fun tb pb v path hpath => ?twrite,
      fun count hcount hptr htkwp hready => ?puttok⟩
    case blit => exact hearly _ (literalBools_ne_nil hpos v) (validBools_literalBools _ v) (exec_blit hn v s)
    case bstop =>
      exact exec_bstop_raised hactive (encodeBools_of_not_bacOk (by decide) validBools_flushBools hactive hbac)
    case twrite =>
      obtain ⟨hne, hvalid⟩ := pathBools_of_checkedPath hpath
      exact hearly _ hne hvalid (exec_twrite hpath)
    case puttok =>
      have hpos : 0 < count.toNat := Nat.pos_of_ne_zero fun h => hcount (BitVec.eq_of_toNat_eq h)
      refine ⟨exec_puttok_inactive hptr htkwp hpos, fun hactive hbac => ?_⟩
      have hput := putToken_of_ready hready
      rw [encodeBools_of_not_bacOk (tokenBools_ne_nil hready) (validBools_tokenBools hready) hactive hbac] at hput
      rw [exec_puttok hactive hptr htkwp, putTokens_of_raised hpos rfl hput]
      rfl
  case runs =>
    intro runs
    have hruns (i : Instr) {bools : List (Bool × Nat)} (hexec : exec i s = finish i (encodeBools bools s)) : runs i bools :=
      ⟨fun t h => by rw [hexec, h]; rfl, fun code t h => by rw [hexec, h]; rfl⟩
    refine ⟨fun n v bits hn hlength hbits => ?blit,
      ⟨fun t => exec_bstop_done hactive, fun code t => exec_bstop_raised hactive⟩,
      fun tb pb v path hpath => hruns _ (exec_twrite hpath), fun count hwf hptr htkwp => ?puttok⟩
    case blit =>
      obtain rfl := eq_literalBools hlength hbits
      exact hruns _ (exec_blit hn v s)
    case puttok =>
      intro record written
      obtain ⟨hntok, -⟩ := (config_wf_iff s.cfg).1 hwf
      have hexec := exec_puttok hactive hptr htkwp
      have hstop {j : Nat} {t u : State} {code : FaultCode} (hj : j < count.toNat)
          (hready : ∀ k < j, tokenReady s.mem (record k) = true) (hrun : encodeBools (written j) s = .done t)
          (hput : putToken (t.withTkrp (s.tkrpAfter j)) = .raised code u) :
          exec (.puttok count) s = .next (u.raise code (encode (.puttok count))) := by
        rw [hexec, putTokens_of_raised hj (putTokens_of_done (by omega) hready hrun) hput]
        rfl
      refine ⟨fun hready t hrun => ?_, fun j hj hready t u code hrun hraised => ?_, fun j hj hready hlast t hrun => ?_⟩
      · rw [hexec, putTokens_of_done (by omega) hready hrun]
        rfl
      · exact hstop hj (fun k hk => hready k hk.le) hrun
          (putToken_withTkrp_of_raised (codesTo_of_encodeBools_done hrun) (by omega) (hready j (Nat.le_refl j)) hraised)
      · exact hstop hj hready hrun
          (putToken_withTkrp_of_not_ready (codesTo_of_encodeBools_done hrun) (by omega) hlast)

end Sys2Proof.Proofs
end

section
/-! PROOFS. Faults: what taking one records, what clears it, and that the engine goes on whether or not it is halted
(60_exceptions.md R211 to R218). -/

namespace Sys2Proof.Machine

/-! ## Taking a fault -/

/-- The class of each fault (60_exceptions.md R212). -/
theorem FaultCode.classBit_eq (code : FaultCode) : code.classBit =
    if code = .obufFull ∨ code = .tokFull then 2
    else if code = .coderRange ∨ code = .eobTag ∨ code = .tree ∨ code = .carry ∨ code = .mag ∨ code = .token then 4
    else 1 := by
  cases code <;> decide

theorem FaultCode.classBit_getLsbD (code : FaultCode) :
    ∀ k < 3, code.classBit.getLsbD k = decide ((code.number.extractLsb' 4 2).toNat = k + 1) := by
  cases code <;> decide

theorem State.raise_of_fstat_ne_zero {s : State} (hfstat : s.fstat ≠ 0) (code : FaultCode) (w : Word) :
    s.raise code w = { s with fstat := s.fstat ||| code.classBit } := if_neg hfstat

theorem State.halted_iff (s : State) : s.halted = true ↔ s.fstat ≠ 0 := bne_iff_ne

theorem State.raise_fstat_ne_zero (s : State) (code : FaultCode) (w : Word) : (s.raise code w).fstat ≠ 0 := by
  rw [State.raise_fstat]
  exact fstatAfter_ne_zero _ _

/-! ## Every command ends its run, and leaves the fault registers to that end -/

theorem encodeBools_fstat (bools : List (Bool × Nat)) (s : State) : (encodeBools bools s).state.fstat = s.fstat :=
  (encodeBools_codesTo bools s).fstat_eq

theorem Run.advanceTkrp_fstat (r : Run) : r.advanceTkrp.state.fstat = r.state.fstat := by
  cases r <;> rfl

theorem putToken_fstat (s : State) : (putToken s).state.fstat = s.fstat := by
  cases hready : tokenReady s.mem (s.record 0) with
  | false => rw [putToken_of_not_ready hready, Run.state_raised]
  | true => rw [putToken_of_ready hready, Run.advanceTkrp_fstat, encodeBools_fstat]

theorem putTokens_fstat (n : Nat) (s : State) : (putTokens n s).state.fstat = s.fstat := by
  induction n generalizing s with
  | zero => rfl
  | succ n ih =>
    have hput := putToken_fstat s
    cases h : putToken s with
    | done t =>
      rw [h] at hput
      rw [putTokens_succ_of_done h]
      exact (ih t).trans hput
    | raised code t =>
      rw [h] at hput
      rw [putTokens_succ_of_raised h]
      exact hput

theorem writeCosts_fstat (costs : List (Nat × Nat)) (done : List Nat) (s : State) :
    (writeCosts costs done s).fstat = s.fstat := by
  rw [writeCosts_frame]

/-- BSTOP ends as its flush does, as far as `FSTAT` goes. -/
theorem exec_bstop_eq_finish (s : State) : ∃ r, exec .bstop s = finish .bstop r ∧ r.state.fstat = s.fstat := by
  cases hactive : s.active with
  | false => exact ⟨.raised .notActive s, exec_bstop_inactive (s.active_eq_false_iff.1 hactive), rfl⟩
  | true =>
    have hflush := encodeBools_fstat flushBools s
    cases h : encodeBools flushBools s with
    | done t =>
      rw [h] at hflush
      exact ⟨.done t.stopCoder, exec_bstop_done (s.active_iff.1 hactive) h, hflush⟩
    | raised code t =>
      rw [h] at hflush
      exact ⟨.raised code t, exec_bstop_raised (s.active_iff.1 hactive) h, hflush⟩

/-- A command ends in `finish`, which alone writes `FSTAT` (60_exceptions.md R214). -/
theorem exec_eq_finish (i : Instr) (s : State) : ∃ r, exec i s = finish i r ∧ r.state.fstat = s.fstat := by
  cases i with
  | nop => exact ⟨_, rfl, rfl⟩
  | ldi bd lane imm16 => exact ⟨_, rfl, rfl⟩
  | bfill bd imm16 => exact ⟨_, rfl, rfl⟩
  | seob bd n => exact ⟨_, rfl, by split <;> rfl⟩
  | gdc bd bs => exact ⟨_, rfl, by split <;> rfl⟩
  | fdct bd bs => exact ⟨_, rfl, rfl⟩
  | fwht bd bs => exact ⟨_, rfl, rfl⟩
  | quant bd bs t => exact ⟨_, rfl, rfl⟩
  | dequant bd bs t => exact ⟨_, rfl, rfl⟩
  | tkn bs t c0 =>
    obtain ⟨code, -, h⟩ | ⟨tokens, h⟩ := exec_tkn_cases bs t c0 s
    · exact ⟨.raised code s, h, rfl⟩
    · exact ⟨.done (s.appendTokens tokens), h, by rw [s.appendTokens_frame tokens, Run.state_done]⟩
  | puttok count => exact ⟨_, rfl, by split; exacts [rfl, by split; exacts [rfl, putTokens_fstat _ s]]⟩
  | bstart => exact ⟨_, rfl, by split <;> rfl⟩
  | bbool bit prob => exact ⟨_, exec_bbool bit prob s, encodeBools_fstat _ s⟩
  | blit n value => exact ⟨_, rfl, by split; exacts [rfl, encodeBools_fstat _ s]⟩
  | bstop => exact exec_bstop_eq_finish s
  | twrite tb pb v => exact ⟨_, rfl, by split; exacts [rfl, encodeBools_fstat _ s]⟩
  | tcost tb pb v => exact ⟨_, rfl, by split <;> rfl⟩
  | tcosts tb pb => exact ⟨_, rfl, by split; exacts [rfl, writeCosts_fstat _ _ s]⟩

/-- A command of an engine that is not halted leaves no fault, or records one fault and its own word. -/
theorem exec_fault {i : Instr} {s t : State} (hfstat : s.fstat = 0) (h : exec i s = .next t) (hfault : t.fstat ≠ 0) :
    t.finfo = encode i ∧ ∃ code : FaultCode, t.fcause = code.number ∧ t.fstat = code.classBit := by
  obtain ⟨r, hexec, hr⟩ := exec_eq_finish i s
  cases Host.Outcome.next.inj (h.symm.trans hexec)
  cases r with
  | done u => exact absurd (hr.trans hfstat) hfault
  | raised code u =>
    have hu : u.fstat = 0 := hr.trans hfstat
    rw [Run.settle_raised, State.raise_of_fstat_eq_zero hu]
    exact ⟨rfl, code, rfl, rfl⟩

/-- So does a step that serves a write to `CMD`, of a word that is a command or not (60_exceptions.md R214). -/
theorem step_command_fault {s t : State} {w : Word} {rest : List Transaction} (hfstat : s.fstat = 0)
    (h : step { s with bus := .hwr 0 w :: rest } = .next t) (hfault : t.fstat ≠ 0) :
    t.finfo = w ∧ ∃ code : FaultCode, t.fcause = code.number ∧ t.fstat = code.classBit := by
  cases hd : decode w with
  | error r =>
    cases Host.Outcome.next.inj (h.symm.trans (takesIllCmd_of_decode hd s rest hfstat))
    exact ⟨rfl, .illCmd, rfl, rfl⟩
  | ok i =>
    obtain rfl := (decode_eq_ok_iff w i).1 hd
    exact exec_fault (by exact hfstat) ((step_command s rest hfstat hd).symm.trans h) hfault

/-! ## Fault bits that stay and fault bits that are cleared -/

theorem State.raise_keeps_bit {s : State} {k : Nat} (h : s.fstat.getLsbD k = true) (code : FaultCode) (w : Word) :
    (s.raise code w).fstat.getLsbD k = true := by
  rw [State.raise_fstat, fstatAfter, BitVec.getLsbD_or, h, Bool.true_or]

/-- A write to `FCLR` clears CFG and BUF by ones, and never INV (60_exceptions.md R218). -/
theorem fstatCleared_getLsbD (fstat : BitVec 3) (d : Word) {k : Nat} (hk : k < 3) :
    (fstatCleared fstat d).getLsbD k = (fstat.getLsbD k && !(decide (k < 2) && d.getLsbD k)) := by
  rw [fstatCleared, BitVec.getLsbD_and, BitVec.getLsbD_not, BitVec.getLsbD_append, BitVec.getLsbD_extractLsb']
  by_cases hlow : k < 2 <;> simp [hk, hlow]

/-- The cause is cleared with the last fault bit (60_exceptions.md R218). -/
theorem State.clearFaults_cases (s : State) (d : Word) :
    (fstatCleared s.fstat d = 0 ∧ s.clearFaults d = { s with fstat := 0, fcause := 0, finfo := 0 }) ∨
    (fstatCleared s.fstat d ≠ 0 ∧ s.clearFaults d = { s with fstat := fstatCleared s.fstat d }) := by
  by_cases h : fstatCleared s.fstat d = 0
  · exact .inl ⟨h, if_pos h⟩
  · exact .inr ⟨h, if_neg h⟩

/-- A state whose fault registers agree and show no fault is left by a write to `FCLR` as it was. -/
theorem State.clearFaults_of_no_fault {s : State} (hs : s.faultsOk = true) (hfstat : s.fstat = 0) (d : Word) :
    s.clearFaults d = s := by
  obtain ⟨hnone, -⟩ := s.faultsOk_iff.1 hs
  obtain ⟨hcause, hinfo⟩ := hnone hfstat
  have hzero : fstatCleared s.fstat d = 0 := hfstat ▸ fstatCleared_zero d
  obtain ⟨-, h⟩ | ⟨hne, -⟩ := s.clearFaults_cases d
  · rw [h, ← hfstat, ← hcause, ← hinfo]
  · exact absurd hzero hne

/-- A step that serves a write to `FCLR` (10_state.md R24). -/
theorem step_hwr_fclr (s : State) (d : Word) (rest : List Transaction) :
    step { s with bus := .hwr 0x10 d :: rest } = .next (State.clearFaults { s with bus := rest, rdata := none } d) :=
  step_hwr_csr s d rest (by decide) (by decide) (by decide) rfl

/-- What a register write can do to `FSTAT`: that of `FCLR` clears, that of `QIDX` may take a fault, no other reaches it. -/
theorem State.writeCsr_fstat_cases (s : State) (offset : Nat) (d : Word) :
    (offset / 4 = 4 ∧ s.writeCsr offset d = s.clearFaults d) ∨ s.writeCsr offset d = s.raise .qidx 0x14 ∨
      (s.writeCsr offset d).fstat = s.fstat := by
  unfold State.writeCsr
  split
  case h_1 h => exact .inl ⟨h, rfl⟩
  case h_2 => split; exacts [.inr (.inr rfl), .inr (.inl rfl)]
  all_goals exact .inr (.inr rfl)

/-- Only an aligned address names a register, the one at that offset (20_memory.md R63, R68). -/
theorem offset_of_portTarget_csr {c : Config} {addr : Word} {offset : Nat} (h : portTarget c addr = some (.csr offset)) :
    addr.toNat % 4 = 0 ∧ offset = addr.toNat := by
  unfold portTarget at h
  extract_lets a at h
  split_ifs at h <;> simp_all [a]

/-- A write to a mapped address other than that of `FCLR` clears no fault bit, and no write clears INV. -/
theorem State.writeTarget_keeps_bit {s : State} {addr : Word} {target : Target} (ht : portTarget s.cfg addr = some target)
    (d : Word) {k : Nat} (hk : k < 3) (hbit : s.fstat.getLsbD k = true) (haddr : k = 2 ∨ addr ≠ 0x10) :
    (s.writeTarget addr d target).fstat.getLsbD k = true := by
  cases target with
  | csr offset =>
    change (s.writeCsr offset d).fstat.getLsbD k = true
    obtain ⟨hoffset, h⟩ | h | h := s.writeCsr_fstat_cases offset d
    · obtain ⟨haligned, rfl⟩ := offset_of_portTarget_csr ht
      have hfclr : addr = 0x10 := BitVec.eq_of_toNat_eq (by change addr.toNat = 16; omega)
      obtain rfl | hne := haddr
      · rw [h, State.clearFaults_fstat, fstatCleared_getLsbD _ _ hk, hbit]
        rfl
      · exact absurd hfclr hne
    · rw [h]
      exact State.raise_keeps_bit hbit _ _
    · rw [h]
      exact hbit
  | lanes n pair => exact hbit
  | eob n => exact hbit
  | storage =>
    change (s.setPortWord addr.toNat d).fstat.getLsbD k = true
    rw [State.setPortWord_frame]
    exact hbit
  | qlut word => exact hbit

/-! ## Every transaction is served -/

/-- A write to `CMD` is dropped, rejected, or runs a command to its end. -/
theorem serve_cmd_next (s : State) (w : Word) : ∃ t, serve s (.hwr 0 w) = .next t := by
  cases hh : s.halted with
  | true => exact ⟨_, serve_dropped s w hh⟩
  | false =>
    cases hd : decode w with
    | error r => exact ⟨_, serve_illegal s w r hh hd⟩
    | ok i =>
      obtain ⟨r, hexec, -⟩ := exec_eq_finish i s
      exact ⟨_, (serve_command s w i hh hd).trans hexec⟩

theorem serve_next (s : State) (transaction : Transaction) : ∃ t, serve s transaction = .next t := by
  cases transaction with
  | hrd addr => exact ⟨_, rfl⟩
  | hwr addr w =>
    by_cases haddr : addr = 0
    · subst haddr
      exact serve_cmd_next s w
    · exact ⟨_, serve_write s addr w haddr⟩
  | rst => exact ⟨_, rfl⟩

end Sys2Proof.Machine

namespace Sys2Proof.Proofs

open Sys2Proof.Machine

/-- Settles O7: a step that serves a command records at most one fault, the one its run ends with. -/
theorem faultEntryRecordsTheFirstCause : Obligations.FaultEntryRecordsTheFirstCause := by
  refine ⟨?numbers, FaultCode.classBit_eq, fun s code info => ?entry, fun s addr d rest ht => ?access,
    fun s t w rest hfstat h hfault => step_command_fault hfstat h hfault⟩
  case numbers => exact ⟨rfl, rfl, rfl, rfl, rfl, rfl, rfl, rfl, rfl, rfl, rfl, rfl, rfl, rfl, rfl, rfl, rfl⟩
  case entry =>
    have hne := s.raise_fstat_ne_zero code info
    exact ⟨fun h => State.raise_of_fstat_eq_zero h code info, fun h => State.raise_of_fstat_ne_zero h code info,
      code.classBit_getLsbD, (State.halted_iff _).2 hne, (State.halted_iff _).2 hne⟩
  case access => exact ⟨step_hrd_unmapped s rest ht, step_hwr_unmapped s d rest ht⟩

/-- Settles O8: the write is `State.clearFaults`, bit by bit. -/
theorem faultClearWriteKeepsInvBit : Obligations.FaultClearWriteKeepsInvBit := by
  intro s d rest
  have hbit {k : Nat} (hk : k < 3) : (State.clearFaults { s with bus := rest, rdata := none } d).fstat.getLsbD k =
      (s.fstat.getLsbD k && !(decide (k < 2) && d.getLsbD k)) := by
    rw [State.clearFaults_fstat, fstatCleared_getLsbD _ _ hk]
  refine ⟨_, step_hwr_fclr s d rest, hbit (by decide), hbit (by decide), (hbit (by decide)).trans (Bool.and_true _), ?_⟩
  have hnone (hs : s.faultsOk = true) (hfstat : s.fstat = 0) :=
    State.clearFaults_of_no_fault (s := { s with bus := rest, rdata := none }) hs hfstat d
  obtain ⟨-, h⟩ | ⟨hne, h⟩ := State.clearFaults_cases { s with bus := rest, rdata := none } d
  · rw [h] at hnone ⊢
    exact ⟨fun _ => ⟨rfl, rfl, rfl⟩, fun hne => absurd rfl hne, hnone, rfl⟩
  · rw [h] at hnone ⊢
    exact ⟨fun hzero => absurd hzero hne, fun _ => ⟨rfl, rfl⟩, hnone, rfl⟩

/-- Settles O9: an engine with a fault bit set is halted, so no command runs, and a host access only adds a fault. -/
theorem faultBitsClearOnlyByFclrOrReset : Obligations.FaultBitsClearOnlyByFclrOrReset := by
  intro s t x rest k hrst hfclr hk hbit h
  have hfault : s.fstat ≠ 0 := by
    intro hzero
    simp [hzero] at hbit
  cases x with
  | rst => exact absurd rfl hrst
  | hrd addr =>
    cases ht : portTarget s.cfg addr with
    | none =>
      cases Host.Outcome.next.inj (h.symm.trans (step_hrd_unmapped s rest ht))
      exact State.raise_keeps_bit hbit _ _
    | some target =>
      cases Host.Outcome.next.inj (h.symm.trans (step_hrd_mapped s rest ht))
      exact hbit
  | hwr addr d =>
    by_cases hcmd : addr = 0
    · subst hcmd
      cases Host.Outcome.next.inj (h.symm.trans (step_command_dropped s d rest hfault))
      exact hbit
    cases ht : portTarget s.cfg addr with
    | none =>
      cases Host.Outcome.next.inj (h.symm.trans (step_hwr_unmapped s d rest ht))
      exact State.raise_keeps_bit hbit _ _
    | some target =>
      cases Host.Outcome.next.inj (h.symm.trans (step_hwr_mapped s d rest hcmd ht))
      have haddr : k = 2 ∨ addr ≠ 0x10 := hfclr.imp_right fun hne h10 => hne d (h10 ▸ rfl)
      exact State.writeTarget_keeps_bit (s := { s with bus := rest, rdata := none }) ht d hk hbit haddr

/-- Settles O6. -/
theorem haltedEngineDropsCommands : Obligations.HaltedEngineDropsCommands := fun s rest =>
  ⟨s.halted_iff, fun hfault =>
    ⟨fun w => step_command_dropped s w rest hfault, fun _ _ ht => step_hrd_mapped s rest ht,
      fun _ d _ hne ht => step_hwr_mapped s d rest hne ht,
      fun _ d ht => ⟨step_hrd_unmapped s rest ht, step_hwr_unmapped s d rest ht⟩⟩⟩

/-- Settles O14: every command ends its run, and every other transaction is served at once. -/
theorem everyStepGoesOn : Obligations.EveryStepGoesOn := by
  refine ⟨fun s => ?_, fun _ => rfl⟩
  obtain ⟨-, h⟩ | ⟨transaction, rest, -, h⟩ := step_cases s
  · exact ⟨s, h⟩
  · rw [h]
    exact serve_next _ transaction

end Sys2Proof.Proofs
end
